-- ==== Sys2Proof/Word.lean ====
section
/-! DEFINITION. The plain value types of HUFFCORE (00_scope.md R5, R6; 10_state.md R11, R15).
Bit vectors hold only what the spec treats as bits: table bytes, counts, weights, the register words. -/

namespace Sys2Proof

/-- A symbol or a table-text byte: 8 bits (20_memory.md R44). -/
abbrev Byte := BitVec 8

/-- One frequency-table entry, unsigned, `FREQ_BITS` = 32 (R5). -/
abbrev Count := BitVec 32

/-- A node weight, unsigned, `WEIGHT_BITS` = 40 (R5, R24). -/
abbrev Weight := BitVec 40

/-- A code or path: first descent first, `false` = 0 = left, `true` = 1 = right (30_encoding.md R76). -/
abbrev Path := List Bool

/-- A node index, `0 .. 510` (R5: `NODE_CAP` = 511). -/
abbrev Idx := Fin 511

/-- A 9-bit link: a node index, or `none` for `NIL` = 511 (R5, R15). -/
abbrev Link := Option Idx

/-- The line feed, `LF` = `0x0A` (R6, R77; ASCII is 93_implementation_defined.md G1). -/
abbrev LF : Byte := 0x0A#8

/-- The digit `'0'` (R6). -/
abbrev digit0 : Byte := 0x30#8

/-- The digit `'1'`, which is path step right (30_encoding.md R80). -/
abbrev digit1 : Byte := 0x31#8

/-- The digit `'9'` (R6). -/
abbrev digit9 : Byte := 0x39#8

end Sys2Proof
end

