-- ==== Sys2Proof/Syntax.lean ====
section
/-! DEFINITION. The command set: one constructor for each row of spec/opcode_table.json (30_encoding.md R70, R71).
No command has an operand (R70). -/

namespace Sys2Proof

/-- The eight command words of R71, by mnemonic. -/
inductive Instr where
  /-- op 0, 44_system_commands.md R167 -/
  | nop
  /-- op 1, 40_tree_builder.md R105 -/
  | build
  /-- op 2, 41_code_table_codec.md R122 -/
  | save
  /-- op 3, 41_code_table_codec.md R124 -/
  | load
  /-- op 4, 42_stream_encoder.md R141 -/
  | encode
  /-- op 5, 43_stream_decoder.md R150 -/
  | decode
  /-- op 6, the reserved word, 44_system_commands.md R169 -/
  | reserved6
  /-- op 7, 44_system_commands.md R168 -/
  | reset
deriving DecidableEq, Repr

end Sys2Proof
end

