-- ==== Sys2Proof/WellFormed.lean ====
section
/-! DEFINITION. Well-formedness of commands and of the bytes that carry them.
A command has no operand field (30_encoding.md R70), so every `Instr` is well-formed; what can be ill-formed is a byte
offered as a command word, whose bits 7 to 3 the 3-bit `CMD` port does not have. -/

namespace Sys2Proof

/-- Every command is well-formed: format `C` has the one field `op` and no operand (R70). -/
abbrev Instr.wf (_ : Instr) : Prop := True

/-- A byte carries a command word when it fits the 3 bits of `CMD` (R70).
DESIGN CHOICE (log entry 12): a byte with a higher bit set is no command word. -/
abbrev isCommandByte (b : Byte) : Prop := b < 8#8

end Sys2Proof
end

