-- ==== Sys2Proof/Decode.lean ====
section
/-! DEFINITION. Decoding and encoding of command words (30_encoding.md R70 to R72). -/

namespace Sys2Proof

/-- The opcode map of R71: every 3-bit word is a row, so decoding a word is total. -/
def decodeOp (op : BitVec 3) : Instr :=
  match op with
  | 0b000#3 => .nop
  | 0b001#3 => .build
  | 0b010#3 => .save
  | 0b011#3 => .load
  | 0b100#3 => .encode
  | 0b101#3 => .decode
  | 0b110#3 => .reserved6
  | 0b111#3 => .reset

/-- The command word of a command, from the `op` column of R71. -/
def encodeOp (i : Instr) : BitVec 3 :=
  match i with
  | .nop => 0#3
  | .build => 1#3
  | .save => 2#3
  | .load => 3#3
  | .encode => 4#3
  | .decode => 5#3
  | .reserved6 => 6#3
  | .reset => 7#3

/-- Why a list of bytes carries no command. -/
inductive DecodeError where
  /-- No byte is there. -/
  | noByte
  /-- The byte has a bit above the 3 bits of the command word (R70). -/
  | notACommandWord (b : Byte)
deriving DecidableEq, Repr

/-- Decoding on any bytes: one byte carries one command word in its bits 2 to 0. -/
def decode (bytes : List Byte) : Except DecodeError (Instr × List Byte) :=
  match bytes with
  | [] => .error .noByte
  | b :: rest => if isCommandByte b then .ok (decodeOp (b.setWidth 3), rest) else .error (.notACommandWord b)

/-- The byte that carries a command word. -/
def encode (i : Instr) : List Byte :=
  [(encodeOp i).setWidth 8]

/-- The host's word for a table row: the bytes of `w`, first byte least significant, given to the decoder; a value that
needs more than one byte, or that `nbits` does not hold, is no command word. -/
def decodeTableWord (nbits w : Nat) : Option Instr :=
  if w < 2 ^ nbits ∧ w < 256 then
    match decode [BitVec.ofNat 8 w] with
    | .ok (i, _) => some i
    | .error _ => none
  else none

end Sys2Proof
end

