-- ==== Sys2Proof/Config.lean ====
section
/-! DEFINITION. The implementation parameters of 00_scope.md R5, all fixed by the spec ("No parameter is left open").
There is no free value: 93_implementation_defined.md says "Nothing is modelled as a free draw or left as a parameter". -/

namespace Sys2Proof.Config

/-- `NSYM`: the alphabet size (R5). -/
abbrev nsym : Nat := 256

/-- `SENTINEL`: the "not a leaf" value of a node's 9-bit `sym` field (R5, R16). -/
abbrev sentinel : Nat := 256

/-- `NODE_CAP`: the arena's capacity (R5). -/
abbrev nodeCap : Nat := 511

/-- `NIL`: the "no node" index (R5). -/
abbrev nil : Nat := 511

/-- `PQ_CAP`: the queue's capacity (R5, 20_memory.md R43). -/
abbrev pqCap : Nat := 256

/-- `MAX_SYM_DIGITS`: most decimal digits `LOAD` accepts in a symbol line (R5, 30_encoding.md R79). -/
abbrev maxSymDigits : BitVec 2 := 3#2

end Sys2Proof.Config
end

