-- ==== Sys2Proof/Machine/State.lean ====
section
/-! DEFINITION. The state of HUFFCORE as plain data (10_state.md R10 to R24; 20_memory.md R40, R48 to R55), the reasons a
step can stop, and the state after reset. -/

namespace Sys2Proof.Machine

open Sys2Proof

/-- A node's 9-bit `sym` field, as the tagged variant of R16: a symbol `0 .. 255`, or the sentinel 256.
The values 257 to 511 are never written (R15, U12), so the type leaves them out. -/
inductive NodeSym where
  | symbol (c : Byte)
  | sentinel
deriving DecidableEq, Repr

/-- One arena record (R15; layout 30_encoding.md R74). -/
structure Node where
  sym : NodeSym
  left : Link
  right : Link
  weight : Weight
deriving DecidableEq, Repr

/-- One queue entry (R17; layout 30_encoding.md R75). -/
structure PqEntry where
  weight : Weight
  seq : BitVec 9
  idx : Idx
deriving DecidableEq, Repr

/-- Where in its pseudocode a running command waits for the environment, with the pseudocode's local variables there.
The model's own (log entry 8); a command that uses no stream never waits and has no point. -/
inductive Point where
  /-- `SAVE` (R122): these bytes are still to be written to `TblSink`. -/
  | save (rest : List Byte)
  /-- `LOAD` (R124) at `while TblSrc.has_next()`, a pair boundary. -/
  | loadPair
  /-- `LOAD` inside `ParseSymbolLine` (R125). -/
  | loadSym
  /-- `LOAD` inside `WalkPathLine` (R126); its argument `s` is held in `val` (log entry 9). -/
  | loadPath
  /-- `ENCODE` (R141): these code bits are still to be written; with none left, at `while SymSrc.has_next()`. -/
  | encode (rest : Path)
  /-- `DECODE` (R150) at the `has_next_bit` of its first two tests: no tree, or a single leaf. -/
  | decodeProbe
  /-- `DECODE` at the head of its loop. -/
  | decode
deriving DecidableEq, Repr

/-- The sequencer mode (R12), this hardware's program counter. Value 3 is never held. `busy` is mode 1 and carries the
position inside the running command. -/
inductive Mode where
  | idle
  | busy (at_ : Point)
  | fault
deriving DecidableEq, Repr

/-- The fault codes of 60_exceptions.md R181; 10 to 15 are never produced. -/
inductive ErrCode where
  /-- 0, `E_NONE` -/
  | none
  /-- 1, `E_ILLEGAL_CMD` -/
  | illegalCmd
  /-- 2, `E_TREE_PRESENT` -/
  | treePresent
  /-- 3, `E_NO_TREE` -/
  | noTree
  /-- 4, `E_DEGENERATE_TREE` -/
  | degenerateTree
  /-- 5, `E_UNKNOWN_SYMBOL` -/
  | unknownSymbol
  /-- 6, `E_TRUNCATED_STREAM` -/
  | truncatedStream
  /-- 7, `E_BAD_PATH` -/
  | badPath
  /-- 8, `E_TABLE_SYNTAX` -/
  | tableSyntax
  /-- 9, `E_ARENA_FULL` -/
  | arenaFull
deriving DecidableEq, Repr

/-- An input stream port (20_memory.md R48, R50, R52, R55): the units the environment presents and the core has not yet
consumed, and whether end-of-stream follows them. With no unit and no end-of-stream, `has_next` waits.
DESIGN CHOICE (log entry 23): `ended` stays as the host last set it when a command ends. -/
structure Source (α : Type) where
  units : List α
  ended : Bool
deriving DecidableEq, Repr

/-- An output stream port (R49, R51, R53, R55): the units written so far, oldest first, and how many more the environment
is ready to take (`none`: it takes every unit offered). -/
structure Sink (α : Type) where
  written : List α
  room : Option Nat
deriving DecidableEq, Repr

/-- What the host can do (R57; the script lines of 30_encoding.md R84). -/
inductive HostAct where
  /-- Write a word to `CMD`. -/
  | cmd (op : BitVec 3)
  /-- `FREQ idx = data`: one write on `FREQW`. -/
  | freqw (idx : Byte) (data : Count)
  /-- Raise the `rst` pin (70_reset_and_hazards.md R200). -/
  | rst
  /-- `TBLIN`: what `TblSrc` presents from now on. -/
  | tblIn (units : List Byte) (ended : Bool)
  /-- `SYMIN`: what `SymSrc` presents from now on. -/
  | symIn (units : List Byte) (ended : Bool)
  /-- `BITIN`: what `BitSrc` presents from now on. -/
  | bitIn (units : List Bool) (ended : Bool)
  /-- How many more bytes the environment takes from `TblSink` (R55). -/
  | tblRoom (room : Option Nat)
  /-- How many more symbols the environment takes from `SymSink` (R55). -/
  | symRoom (room : Option Nat)
  /-- How many more bits the environment takes from `BitSink` (R55). -/
  | bitRoom (room : Option Nat)
deriving DecidableEq, Repr

/-- The space `FREQ` (20_memory.md R40, R41): pairs of an index and a 32-bit count, indices strictly rising, no count 0;
an index that is not listed reads 0. Elements are 32 bits wide because no access is narrower (R44; log entry 10). -/
abbrev Memory := List (Nat × Count)

/-- HUFFCORE's whole state, and the environment's side of its ports. -/
structure State where
  /-- sequencer mode, 2 bits (R12) -/
  mode : Mode
  /-- latched fault code, 4 bits (R181) -/
  err : ErrCode
  /-- fault information, 9 bits (R184) -/
  errInfo : BitVec 9
  /-- index of the root node, or `NIL` (R11) -/
  root : Link
  /-- the allocated arena entries `node[0 .. node_count-1]` (R15, R23); its length is `node_count` (log entry 6) -/
  arena : List Node
  /-- the frequency table (R41) -/
  freq : Memory
  /-- the priority queue's entries, in order of insertion (R17); its length is `pq_len` -/
  pq : List PqEntry
  /-- next insertion sequence number, 9 bits (R11) -/
  seqNext : BitVec 9
  /-- current node, 9 bits (R11) -/
  cur : Idx
  /-- symbol value being parsed, 10 bits (R11) -/
  val : BitVec 10
  /-- digits seen in the current symbol line, 2 bits (R11) -/
  ndig : BitVec 2
  /-- input bits of `DECODE` (R48) -/
  bitSrc : Source Bool
  /-- input symbols of `ENCODE` (R50) -/
  symSrc : Source Byte
  /-- table text for `LOAD` (R52) -/
  tblSrc : Source Byte
  /-- output bits of `ENCODE` (R49) -/
  bitSink : Sink Bool
  /-- output symbols of `DECODE` (R51) -/
  symSink : Sink Byte
  /-- table text from `SAVE` (R53) -/
  tblSink : Sink Byte
  /-- what the host presents next, in order (R57; log entry 2) -/
  script : List HostAct
deriving DecidableEq, Repr

/-- Reasons the MODEL stops; HUFFCORE's own faults are next states in mode `fault` (R183). Each is safe (the model stops)
and arises only in states that no run reaches (log entry 7). -/
inductive Fault where
  /-- An arena entry at or above `node_count` is read (R23, U13). Raised by every read of a node, the
  read of `tree_single` for `STATUS` (R13) among them. Safe. -/
  | unallocatedNode
  /-- The entries reachable from `root` form no tree (R20 item 2). Raised by the traversal of SAVE and ENCODE. Safe. -/
  | notATree
  /-- `PQ_EXTRACT_MIN` with `pq_len` = 0, outside its precondition (R103). Raised by BUILD's micro-operations. Safe. -/
  | queueEmpty
  /-- `ALLOC` returns FULL where the spec says it cannot (R111, R126 point 1). Raised by BUILD and by LOAD's root. Safe. -/
  | arenaOverflow
  /-- DECODE's loop stands with no root or a leaf as root, which its first tests exclude (R150, R158). Safe. -/
  | decodeRoot
deriving DecidableEq, Repr

/-- Refusals. No meaning of this model refuses. -/
inductive Refusal where
  /-- Raised by `exec` for an instruction without a meaning (none is left). Safe. -/
  | notModelled (mnemonic : String)
deriving DecidableEq, Repr

/-- The state right after reset (10_state.md R22, 70_reset_and_hazards.md R201): the architectural registers at the values
the spec gives. DESIGN CHOICE (log entry 5): the transient registers, to which the spec gives no value, are 0 or empty.
DESIGN CHOICE (log entry 4): the streams hold nothing, the inputs are at end-of-stream, the outputs are ready. -/
def State.reset : State where
  mode := .idle
  err := .none
  errInfo := 0
  root := none
  arena := []
  freq := []
  pq := []
  seqNext := 0
  cur := 0
  val := 0
  ndig := 0
  bitSrc := ⟨[], true⟩
  symSrc := ⟨[], true⟩
  tblSrc := ⟨[], true⟩
  bitSink := ⟨[], none⟩
  symSink := ⟨[], none⟩
  tblSink := ⟨[], none⟩
  script := []

end Sys2Proof.Machine
end

