-- ==== Sys2Proof/Machine/Ops.lean ====
section
/-! DEFINITION. The named operations every command is built from: the frequency table, node reads and ALLOC, the output
ports, raising a fault, ending a command, resetting, and accepting a command by mode. -/

namespace Sys2Proof.Machine

open Sys2Proof Host

/-! ### The space FREQ (20_memory.md R41) -/

/-- `freq[a]`; an index that is not listed reads 0 (R41). -/
def Memory.read : Memory → Nat → Count
  | [], _ => 0
  | (b, w) :: m, a => if a = b then w else Memory.read m a

/-- `freq[a] <- v` (R54), keeping the canonical form. -/
def Memory.write : Memory → Nat → Count → Memory
  | [], a, v => if v = 0 then [] else [(a, v)]
  | (b, w) :: m, a, v =>
    if a < b then (if v = 0 then (b, w) :: m else (a, v) :: (b, w) :: m)
    else if a = b then (if v = 0 then m else (a, v) :: m)
    else (b, w) :: Memory.write m a v

/-- The canonical form: indices strictly rising and below 256, no element 0. -/
abbrev Memory.wf (m : Memory) : Prop :=
  m.Pairwise (fun p q => p.1 < q.1) ∧ ∀ p ∈ m, p.1 < Config.nsym ∧ p.2 ≠ 0

/-- `freq[s]` for a symbol `s`. -/
def State.freqOf (s : State) (c : Byte) : Count := s.freq.read c.toNat

/-! ### Registers stored once (log entry 6) -/

/-- `node_count` (10_state.md R11). -/
abbrev State.nodeCount (s : State) : Nat := s.arena.length

/-- `pq_len` (R11). -/
abbrev State.pqLen (s : State) : Nat := s.pq.length

/-! ### The arena -/

/-- `isLeaf` of a node record: decided by `sym` alone (R16). -/
def Node.isLeaf (nd : Node) : Bool :=
  match nd.sym with
  | .symbol _ => true
  | .sentinel => false

/-- The child a bit selects: 0 left, 1 right (30_encoding.md R76). -/
def Node.child (nd : Node) (b : Bool) : Link := if b then nd.right else nd.left

/-- `node[i].left <- l` for bit 0, `node[i].right <- l` for bit 1. -/
def Node.setChild (nd : Node) (b : Bool) (l : Link) : Node :=
  if b then { nd with right := l } else { nd with left := l }

/-- `node[i]`; an entry at or above `node_count` holds no value, and reading it is a fault of the model (R23). -/
def readNode (arena : List Node) (i : Idx) : Except Fault Node :=
  match arena[i.val]? with
  | some nd => .ok nd
  | none => .error .unallocatedNode

/-- `node[i] <- nd` for an allocated entry. -/
def State.setNode (s : State) (i : Idx) (nd : Node) : State :=
  { s with arena := s.arena.set i.val nd }

/-- `ALLOC(sym, left, right, weight)` (40_tree_builder.md R101): the new index and state, or `none` for FULL. -/
def State.alloc (s : State) (sym : NodeSym) (left right : Link) (weight : Weight) : Option (Idx × State) :=
  if h : s.arena.length < Config.nodeCap then
    some (⟨s.arena.length, h⟩, { s with arena := s.arena ++ [⟨sym, left, right, weight⟩] })
  else none

/-! ### Output ports (20_memory.md R49, R51, R53, R55) -/

/-- Offer units to an output port, in order: the port after it and the units the environment was not ready to take. -/
def Sink.push {α : Type} (k : Sink α) (us : List α) : Sink α × List α :=
  match k.room with
  | none => ({ k with written := k.written ++ us }, [])
  | some n => (⟨k.written ++ us.take n, some (n - us.length)⟩, us.drop n)

/-! ### Ending a command -/

/-- `done` (44_system_commands.md R171): `mode <- IDLE` and nothing else.
DESIGN CHOICE (log entry 23): R55 makes end-of-stream final within a command and does not say what the port presents after
it; the model leaves it presented until the host's next action on that port. -/
def State.done (s : State) : State := { s with mode := .idle }

/-- Taking a fault, `raise Fault(code, info)` (60_exceptions.md R183): err, err_info and mode, and nothing else.
There is no return from a fault (R188): the only way on is reset. -/
def State.raise (s : State) (code : ErrCode) (info : BitVec 9) : State :=
  { s with err := code, errInfo := info, mode := .fault }

/-- The effect of the rst pin and of RESET (70_reset_and_hazards.md R200): every register and space at its reset value;
the ports are the environment's, so units transferred stay transferred and the rest stays the host's. -/
def State.toReset (s : State) : State :=
  { State.reset with
    bitSrc := s.bitSrc, symSrc := s.symSrc, tblSrc := s.tblSrc
    bitSink := s.bitSink, symSink := s.symSink, tblSink := s.tblSink
    script := s.script }

/-- The outcome of a meaning: a next state, or a fault of the model. -/
def toOutcome (r : Except Fault State) : Outcome State Fault Refusal :=
  match r with
  | .ok s => .next s
  | .error f => .fault f

/-- Acceptance of a command other than RESET (R165): it runs in IDLE; in FAULT it is taken and dropped (R170); in BUSY the
port is not ready, the write waits and nothing changes (log entry 16). -/
def State.accept (s : State) (run : State → Except Fault State) : Outcome State Fault Refusal :=
  match s.mode with
  | .idle => toOutcome (run s)
  | .busy _ => .next s
  | .fault => .next s

end Sys2Proof.Machine
end

