-- ==== Sys2Proof/Machine/Tree.lean ====
section
/-! DEFINITION. Trees as values and the traversal: `Tree` and well-formedness (10_state.md R19), `Leaves`
(41_code_table_codec.md R121), `CodeOf` (42_stream_encoder.md R140). -/

namespace Sys2Proof.Machine

open Sys2Proof

/-- The tree values of R19. -/
inductive CodeTree where
  | empty
  | leaf (c : Byte)
  | node (left right : CodeTree)
deriving DecidableEq, Repr

/-- `Tree(i)` of R19 over an arena. The first argument bounds the number of nodes on a path; a tree's paths have at most
`node_count` nodes, so running out of it shows that the entries form no tree. -/
def treeAt : Nat → List Node → Link → Except Fault CodeTree
  | _, _, none => .ok .empty
  | 0, _, some _ => .error .notATree
  | n + 1, arena, some i => do
    let nd ← readNode arena i
    match nd.sym with
    | .symbol c => .ok (.leaf c)
    | .sentinel => do
      let l ← treeAt n arena nd.left
      let r ← treeAt n arena nd.right
      .ok (.node l r)

/-- The tree, `Tree(root)` (R19). -/
def State.tree (s : State) : Except Fault CodeTree := treeAt s.arena.length s.arena s.root

/-- `Leaves` (R121): the pre-order listing of leaves with their paths, below a node reached by path `p`. -/
def CodeTree.leaves : CodeTree → Path → List (Byte × Path)
  | .empty, _ => []
  | .leaf c, p => [(c, p)]
  | .node l r, p => CodeTree.leaves l (p ++ [false]) ++ CodeTree.leaves r (p ++ [true])

/-- The table of the tree, `Leaves(root, [])` (R121). -/
def CodeTree.table (t : CodeTree) : List (Byte × Path) := t.leaves []

/-- The symbols at the leaves, in pre-order. -/
def CodeTree.symbols : CodeTree → List Byte
  | .empty => []
  | .leaf c => [c]
  | .node l r => CodeTree.symbols l ++ CodeTree.symbols r

/-- The first pair of a table with a given symbol. -/
def lookupCode : List (Byte × Path) → Byte → Option Path
  | [], _ => none
  | (t, p) :: rest, c => if t = c then some p else lookupCode rest c

/-- `CodeOf(s)` (R140): the path of the first leaf in pre-order that holds the symbol, or `none`. -/
def CodeTree.codeOf (t : CodeTree) (c : Byte) : Option Path := lookupCode t.table c

/-- Strict (full): no node has an empty child (R19 (b)), read of a tree that is not empty (R19 (a)). -/
def CodeTree.full : CodeTree → Bool
  | .empty => false
  | .leaf _ => true
  | .node l r => l.full && r.full

/-- Well-formed as a value: R19 (a), (b) and (c). Clause (d) is about the arena: `bareLeaves`. -/
abbrev CodeTree.wf (t : CodeTree) : Prop := t.full = true ∧ t.symbols.Nodup

/-- R19 (d): every leaf entry reached from a link has both children `NIL`; bounded as `treeAt` is. -/
def bareLeaves : Nat → List Node → Link → Bool
  | _, _, none => true
  | 0, _, some _ => false
  | n + 1, arena, some i =>
    match readNode arena i with
    | .error _ => false
    | .ok nd =>
      match nd.sym with
      | .symbol _ => nd.left.isNone && nd.right.isNone
      | .sentinel => bareLeaves n arena nd.left && bareLeaves n arena nd.right

/-- The depth of a tree: the longest path. -/
def CodeTree.depth : CodeTree → Nat
  | .empty => 0
  | .leaf _ => 0
  | .node l r => max l.depth r.depth + 1

/-- The number of nodes that are not `Empty`. -/
def CodeTree.size : CodeTree → Nat
  | .empty => 0
  | .leaf _ => 1
  | .node l r => l.size + r.size + 1

/-- The cost of R112, over exact counts: the sum over the leaves of weight times depth; `d` is the depth of the tree itself. -/
def CodeTree.cost (w : Byte → Nat) : CodeTree → Nat → Nat
  | .empty, _ => 0
  | .leaf c, d => w c * d
  | .node l r, d => CodeTree.cost w l (d + 1) + CodeTree.cost w r (d + 1)

end Sys2Proof.Machine
end

