-- ==== Sys2Proof/Machine/Operands.lean ====
section
/-! DEFINITION. Operand assembly and the packed layouts of 30_encoding.md: decimal numerals (R78, R79), path characters
(R80), the text of a table (R120), the node record (R74), the queue entry (R75). No command has an operand field. -/

namespace Sys2Proof.Machine

open Sys2Proof

/-! ### Table text -/

/-- `Dec(s)` (R78): the shortest decimal numeral of a symbol, most significant digit first. -/
def dec (c : Byte) : List Byte :=
  let h := c / 100#8
  let t := (c / 10#8) % 10#8
  let u := c % 10#8
  if h ≠ 0 then [digit0 + h, digit0 + t, digit0 + u]
  else if t ≠ 0 then [digit0 + t, digit0 + u]
  else [digit0 + u]

/-- A digit byte, `'0'` to `'9'` (R79). -/
def isDigit (c : Byte) : Bool := decide (digit0 ≤ c) && decide (c ≤ digit9)

/-- One step of the digit accumulator: `val * 10 + (c - 0x30)` (R79). -/
def addDigit (val : BitVec 10) (c : Byte) : BitVec 10 := val * 10#10 + (c - digit0).setWidth 10

/-- The byte of a path step: `0x30 + b` (R80). -/
def pathChar (b : Bool) : Byte := if b then digit1 else digit0

/-- The text of one pair: symbol line, path line, each ended by LF (R77, R120). -/
def pairText (pair : Byte × Path) : List Byte :=
  dec pair.1 ++ [LF] ++ pair.2.map pathChar ++ [LF]

/-- The text of a table: its pairs in order, no header, no trailer (R77, R120). -/
def tableText (pairs : List (Byte × Path)) : List Byte := pairs.flatMap pairText

/-! ### Packed layouts -/

/-- The 9 bits of a `sym` field: a symbol zero-extended, or 256 (R73). -/
def NodeSym.bits : NodeSym → BitVec 9
  | .symbol c => c.setWidth 9
  | .sentinel => BitVec.ofNat 9 Config.sentinel

/-- The 9 bits of a link: the index, or 511 = `NIL` (R74). -/
def linkBits : Link → BitVec 9
  | some i => BitVec.ofNat 9 i.val
  | none => BitVec.ofNat 9 Config.nil

/-- The node record, 67 bits: weight, right, left, sym, from the high bits down (R74). -/
def Node.pack (nd : Node) : BitVec 67 :=
  nd.weight ++ linkBits nd.right ++ linkBits nd.left ++ nd.sym.bits

/-- The queue entry, 58 bits: weight, seq, idx, from the high bits down (R75). -/
def PqEntry.pack (e : PqEntry) : BitVec 58 :=
  e.weight ++ e.seq ++ BitVec.ofNat 9 e.idx.val

end Sys2Proof.Machine
end

