-- ==== Sys2Proof/Machine/Flags.lean ====
section
/-! DEFINITION. The status outputs (10_state.md R13, R14; 30_encoding.md R81). HUFFCORE has no arithmetic condition codes
(R13). No command writes a flag: each is computed from state when it is read, and reading changes nothing (R14). -/

namespace Sys2Proof.Machine

open Sys2Proof

/-- The 2 bits of `mode` (R12). -/
def Mode.bits : Mode → BitVec 2
  | .idle => 0
  | .busy _ => 1
  | .fault => 2

/-- The 4 bits of `err` (60_exceptions.md R181). -/
def ErrCode.bits : ErrCode → BitVec 4
  | .none => 0
  | .illegalCmd => 1
  | .treePresent => 2
  | .noTree => 3
  | .degenerateTree => 4
  | .unknownSymbol => 5
  | .truncatedStream => 6
  | .badPath => 7
  | .tableSyntax => 8
  | .arenaFull => 9

/-- `tree_present = (root != NIL)` (R13). -/
def State.treePresent (s : State) : Bool := s.root.isSome

/-- `tree_single = (root != NIL) and isLeaf(root)` (R13). With a root that is not allocated, which no run reaches, reading
it is a fault of the model (R23, U13; log entry 18). -/
def State.treeSingle (s : State) : Except Fault Bool :=
  match s.root with
  | none => .ok false
  | some r => (readNode s.arena r).map Node.isLeaf

/-- The 17-bit `STATUS` word (R81); a read of `tree_single` that is a fault of the model is one of `STATUS` too. -/
def State.status (s : State) : Except Fault (BitVec 17) :=
  s.treeSingle.map fun single =>
    BitVec.ofBool single ++ BitVec.ofBool s.treePresent ++ s.errInfo ++ s.err.bits ++ s.mode.bits

/-- `cmd_ready` (R14): `CMD` takes a word in IDLE and in FAULT, not in BUSY. -/
def State.cmdReady (s : State) : Bool :=
  match s.mode with
  | .idle => true
  | .busy _ => false
  | .fault => true

/-- `freq_ready = (mode = IDLE)` (R14, 20_memory.md R54). -/
def State.freqReady (s : State) : Bool :=
  match s.mode with
  | .idle => true
  | .busy _ => false
  | .fault => false

end Sys2Proof.Machine
end

