-- ==== Sys2Proof/Machine/Builder.lean ====
section
/-! DEFINITION. The Tree Builder family (40_tree_builder.md): the micro-operations PQ_INSERT, PQ_EXTRACT_MIN and MERGE
(ALLOC is `State.alloc`), and the command BUILD. -/

namespace Sys2Proof.Machine

open Sys2Proof Host

/-- Queue order (R103): less weight first; at equal weight, less `seq` first; unsigned. -/
def PqEntry.before (e f : PqEntry) : Bool :=
  decide (e.weight < f.weight) || (decide (e.weight = f.weight) && decide (e.seq < f.seq))

/-- `PQ_INSERT(idx)` (R102): a new entry with the node's weight and the next sequence number. -/
def State.pqInsert (s : State) (i : Idx) : Except Fault State := do
  let nd ← readNode s.arena i
  .ok { s with pq := s.pq ++ [⟨nd.weight, s.seqNext, i⟩], seqNext := s.seqNext + 1 }

/-- The entry of a queue that is first in queue order (R103). -/
def pqFirst : List PqEntry → Option PqEntry
  | [] => none
  | e :: rest =>
    match pqFirst rest with
    | none => some e
    | some f => if f.before e then some f else some e

/-- `PQ_EXTRACT_MIN()` (R103): the index of the first entry, and the state without that entry. -/
def State.pqExtractMin (s : State) : Except Fault (Idx × State) :=
  match pqFirst s.pq with
  | none => .error .queueEmpty
  | some e => .ok (e.idx, { s with pq := s.pq.erase e })

/-- `MERGE()` (R104): the first removed is left, the second right; the weight is their sum. -/
def State.merge (s : State) : Except Fault State := do
  let (a, s1) ← s.pqExtractMin
  let (b, s2) ← s1.pqExtractMin
  let na ← readNode s2.arena a
  let nb ← readNode s2.arena b
  match s2.alloc .sentinel (some a) (some b) (na.weight + nb.weight) with
  | none => .error .arenaOverflow
  | some (n, s3) => s3.pqInsert n

/-- The symbols in ascending order, `0 .. 255` (R106). -/
def allSymbols : List Byte := (List.range Config.nsym).map (BitVec.ofNat 8)

/-- One turn of BUILD's first loop (R105): a leaf and its queue entry for a symbol whose count is not 0. -/
def State.insertLeaf (s : State) (c : Byte) : Except Fault State :=
  if s.freqOf c = 0 then .ok s
  else
    match s.alloc (.symbol c) none none ((s.freqOf c).setWidth 40) with
    | none => .error .arenaOverflow
    | some (n, s1) => s1.pqInsert n

/-- BUILD's first loop over a list of symbols (R105, R106). -/
def insertLeaves : List Byte → State → Except Fault State
  | [], s => .ok s
  | c :: cs, s => do
    let t ← s.insertLeaf c
    insertLeaves cs t

/-- `while pq_len >= 2: MERGE()` (R105). The first argument bounds the turns: each one takes one entry off the queue, so
`pq_len` turns are enough. -/
def mergeLoop : Nat → State → Except Fault State
  | 0, s => .ok s
  | n + 1, s =>
    if 2 ≤ s.pqLen then do
      let t ← s.merge
      mergeLoop n t
    else .ok s

/-- The body of BUILD (R105), in IDLE. -/
def State.buildBody (s : State) : Except Fault State :=
  match s.root with
  | some _ => .ok (s.raise .treePresent 0)
  | none => do
    let s1 ← insertLeaves allSymbols { s with pq := [], seqNext := 0 }
    if s1.pqLen = 0 then .ok s1.done
    else do
      let s2 ← mergeLoop s1.pqLen s1
      let (r, s3) ← s2.pqExtractMin
      .ok { s3 with root := some r }.done

/-- BUILD (R105): frequency table to tree. -/
def execBuild (s : State) : Outcome State Fault Refusal := s.accept State.buildBody

end Sys2Proof.Machine
end

