-- ==== Sys2Proof/Machine/Decoder.lean ====
section
/-! DEFINITION. The Stream Decoder family (43_stream_decoder.md): DECODE. -/

namespace Sys2Proof.Machine

open Sys2Proof Host

/-- DECODE with no tree or a single-leaf tree (R150, R154, R155): a fault if a bit is offered (the bit is not consumed), a
normal end at end-of-stream, otherwise it waits for the answer. -/
def State.decodeProbe (s : State) : State :=
  match s.bitSrc.units with
  | _ :: _ => s.raise (if s.root = none then .noTree else .degenerateTree) 0
  | [] => if s.bitSrc.ended then s.done else { s with mode := .busy .decodeProbe }

/-- The head of DECODE's loop (R150, R151): leaf-ness is tested before asking for input. At a leaf its symbol is emitted and
the walk returns to the root. `none`: the environment is not ready for the symbol, and DECODE waits at the leaf. -/
def State.decodeTop (s : State) : Except Fault (Option State) := do
  let nd ← readNode s.arena s.cur
  match nd.sym with
  | .sentinel => .ok (some s)
  | .symbol c =>
    match s.root with
    | none => .error .decodeRoot
    | some r => do
      let rd ← readNode s.arena r
      if rd.isLeaf then .error .decodeRoot
      else
        if (s.symSink.push [c]).2 = [] then .ok (some { s with symSink := (s.symSink.push [c]).1, cur := r })
        else .ok none

/-- One bit, already consumed (R150): step to the child it selects, or E_BAD_PATH (R153). -/
def State.decodeBit (s : State) (b : Bool) : Except Fault State := do
  let nd ← readNode s.arena s.cur
  match nd.child b with
  | none => .ok (s.raise .badPath ((BitVec.ofBool b).setWidth 9))
  | some n => .ok { s with cur := n }

/-- DECODE at a non-leaf with no bit presented (R150 to R152): at end-of-stream it ends normally at the root and faults
elsewhere; without end-of-stream it waits. -/
def State.decodeEnd (s : State) : State :=
  if s.bitSrc.ended then
    if s.root = some s.cur then s.done else s.raise .truncatedStream 0
  else s

/-- DECODE's loop over the presented bits (R150). -/
def decodeBits : List Bool → State → Except Fault State
  | [], s => do
    match ← s.decodeTop with
    | none => .ok s
    | some t => .ok t.decodeEnd
  | b :: bs, s => do
    match ← s.decodeTop with
    | none => .ok s
    | some t => do
      let u ← { t with bitSrc := { t.bitSrc with units := bs } }.decodeBit b
      if u.mode = .fault then .ok u else decodeBits bs u

/-- DECODE's loop from where it stands. -/
def State.decodeRun (s : State) : Except Fault State := decodeBits s.bitSrc.units s

/-- The body of DECODE (R150), in IDLE: its first two tests, then the loop from the root. -/
def State.decodeBody (s : State) : Except Fault State :=
  match s.root with
  | none => .ok s.decodeProbe
  | some r => do
    let nd ← readNode s.arena r
    if nd.isLeaf then .ok s.decodeProbe
    else State.decodeRun { s with cur := r, mode := .busy .decode }

/-- DECODE (R150): bits to symbols. -/
def execDecode (s : State) : Outcome State Fault Refusal := s.accept State.decodeBody

end Sys2Proof.Machine
end

