-- ==== Sys2Proof/Machine/Encoder.lean ====
section
/-! DEFINITION. The Stream Encoder family (42_stream_encoder.md): ENCODE. `CodeOf` is `CodeTree.codeOf`. -/

namespace Sys2Proof.Machine

open Sys2Proof Host

/-- Write code bits to `BitSink`; bits the environment is not ready for are kept for later (R141, R55). -/
def State.writeCode (s : State) (p : Path) : State :=
  { s with bitSink := (s.bitSink.push p).1, mode := .busy (.encode (s.bitSink.push p).2) }

/-- One symbol, already consumed (R141): the tests of R143 and R142 in their order, then its code. -/
def State.encodeSym (s : State) (c : Byte) : Except Fault State :=
  match s.root with
  | none => .ok (s.raise .noTree (c.setWidth 9))
  | some r => do
    let nd ← readNode s.arena r
    if nd.isLeaf then .ok (s.raise .degenerateTree (c.setWidth 9))
    else do
      let t ← s.tree
      match t.codeOf c with
      | none => .ok (s.raise .unknownSymbol (c.setWidth 9))
      | some p => .ok (s.writeCode p)

/-- ENCODE is at `while SymSrc.has_next()`: no bit of an earlier symbol is left to write. -/
def State.encodeReady (s : State) : Bool :=
  match s.mode with
  | .busy (.encode []) => true
  | _ => false

/-- ENCODE's loop over the presented symbols (R141): each is consumed before it is looked at. With none left it ends at
end-of-stream and otherwise waits. -/
def encodeSyms : List Byte → State → Except Fault State
  | [], s => .ok (if s.encodeReady && s.symSrc.ended then s.done else s)
  | c :: cs, s =>
    if s.encodeReady then do
      let t ← { s with symSrc := { s.symSrc with units := cs } }.encodeSym c
      encodeSyms cs t
    else .ok s

/-- ENCODE from where it stands, `rest` being the bits still to write. -/
def State.encodeRun (s : State) (rest : Path) : Except Fault State :=
  encodeSyms s.symSrc.units (s.writeCode rest)

/-- The body of ENCODE (R141), in IDLE. -/
def State.encodeBody (s : State) : Except Fault State := s.encodeRun []

/-- ENCODE (R141): symbols to bits. -/
def execEncode (s : State) : Outcome State Fault Refusal := s.accept State.encodeBody

end Sys2Proof.Machine
end

