-- ==== Sys2Proof/Machine/System.lean ====
section
/-! DEFINITION. The system commands (44_system_commands.md): NOP, RESET and the reserved opcode 6. -/

namespace Sys2Proof.Machine

open Sys2Proof Host

/-- NOP (R167): `done`. -/
def execNop (s : State) : Outcome State Fault Refusal := s.accept (fun t => .ok t.done)

/-- The reserved word 6 (R169): `raise Fault(E_ILLEGAL_CMD, 6)`. -/
def execReserved6 (s : State) : Outcome State Fault Refusal := s.accept (fun t => .ok (t.raise .illegalCmd 6#9))

/-- RESET (R168): accepted in IDLE and in FAULT; in BUSY the port is not ready (R165). -/
def execReset (s : State) : Outcome State Fault Refusal :=
  match s.mode with
  | .idle => .next s.toReset
  | .busy _ => .next s
  | .fault => .next s.toReset

end Sys2Proof.Machine
end

