-- ==== Sys2Proof/Machine/TableCodec.lean ====
section
/-! DEFINITION. The Code Table Codec family (41_code_table_codec.md): SAVE and LOAD. -/

namespace Sys2Proof.Machine

open Sys2Proof Host

/-! ### SAVE (R122) -/

/-- Write table text to `TblSink`; bytes the environment is not ready for are kept for later (R55). -/
def State.saveWrite (s : State) (text : List Byte) : State :=
  { s with
    tblSink := (s.tblSink.push text).1
    mode := if (s.tblSink.push text).2 = [] then .idle else .busy (.save (s.tblSink.push text).2) }

/-- The body of SAVE (R122), in IDLE: the text of `Leaves(root, [])`. -/
def State.saveBody (s : State) : Except Fault State := do
  let t ← s.tree
  .ok (s.saveWrite (tableText t.table))

/-- SAVE (R122): tree to table text. -/
def execSave (s : State) : Outcome State Fault Refusal := s.accept State.saveBody

/-! ### LOAD (R124 to R126) -/

/-- The start of `WalkPathLine` (R126): the root is created lazily, and the walk starts at it. -/
def State.startPath (s : State) : Except Fault State :=
  match s.root with
  | some r => .ok { s with cur := r, mode := .busy .loadPath }
  | none =>
    match s.alloc .sentinel none none 0 with
    | none => .error .arenaOverflow
    | some (r, t) => .ok { t with root := some r, cur := r, mode := .busy .loadPath }

/-- One byte of `ParseSymbolLine` (R125), its tests in the order written. -/
def State.loadSymByte (s : State) (c : Byte) : Except Fault State :=
  if c = LF then
    if s.ndig = 0 ∨ 255#10 < s.val then .ok (s.raise .tableSyntax (c.setWidth 9)) else s.startPath
  else if isDigit c = false then .ok (s.raise .tableSyntax (c.setWidth 9))
  else if s.ndig = Config.maxSymDigits then .ok (s.raise .tableSyntax (c.setWidth 9))
  else .ok { s with val := addDigit s.val c, ndig := s.ndig + 1, mode := .busy .loadSym }

/-- One path character of `WalkPathLine` (R126): step to the child the bit selects, creating it if the link is `NIL`;
`c` is the byte that carried the bit. -/
def State.loadStep (s : State) (b : Bool) (c : Byte) : Except Fault State := do
  let nd ← readNode s.arena s.cur
  match nd.child b with
  | some n => .ok { s with cur := n }
  | none =>
    match s.alloc .sentinel none none 0 with
    | none => .ok (s.raise .arenaFull (c.setWidth 9))
    | some (n, t) => .ok { t.setNode s.cur (nd.setChild b (some n)) with cur := n }

/-- The last line of `WalkPathLine` (R126): `node[cur].sym <- s`, and LOAD is at a pair boundary again.
The symbol `s` is the value the symbol line left in `val` (log entry 9). -/
def State.placeLeaf (s : State) : Except Fault State := do
  let nd ← readNode s.arena s.cur
  .ok { s.setNode s.cur { nd with sym := .symbol (s.val.setWidth 8) } with mode := .busy .loadPair }

/-- One byte of `WalkPathLine` (R126), its tests in the order written. -/
def State.loadPathByte (s : State) (c : Byte) : Except Fault State :=
  if c = LF then s.placeLeaf
  else if c = digit0 then s.loadStep false c
  else if c = digit1 then s.loadStep true c
  else .ok (s.raise .tableSyntax (c.setWidth 9))

/-- One byte, already consumed, wherever LOAD stands. At a pair boundary it opens a symbol line with `val` and `ndig`
cleared (R124, R125). -/
def State.loadByte (s : State) (c : Byte) : Except Fault State :=
  match s.mode with
  | .busy .loadPair => { s with val := 0, ndig := 0 }.loadSymByte c
  | .busy .loadSym => s.loadSymByte c
  | .busy .loadPath => s.loadPathByte c
  | _ => .ok s

/-- LOAD is running. -/
def State.loading (s : State) : Bool :=
  match s.mode with
  | .busy .loadPair => true
  | .busy .loadSym => true
  | .busy .loadPath => true
  | _ => false

/-- LOAD with no byte presented (R124 to R126, R55): at end-of-stream it ends normally at a pair boundary and faults inside
a pair; without end-of-stream it waits. -/
def State.loadEnd (s : State) : State :=
  if s.tblSrc.ended then
    match s.mode with
    | .busy .loadPair => s.done
    | .busy .loadSym => s.raise .tableSyntax 0x100#9
    | .busy .loadPath => s.raise .tableSyntax 0x100#9
    | _ => s
  else s

/-- LOAD's loop over the presented bytes, each consumed before it is looked at; after a fault nothing more is consumed. -/
def loadBytes : List Byte → State → Except Fault State
  | [], s => .ok s.loadEnd
  | c :: cs, s =>
    if s.loading then do
      let t ← { s with tblSrc := { s.tblSrc with units := cs } }.loadByte c
      loadBytes cs t
    else .ok s

/-- LOAD from where it stands. -/
def State.loadRun (s : State) : Except Fault State := loadBytes s.tblSrc.units s

/-- The body of LOAD (R124), in IDLE. -/
def State.loadBody (s : State) : Except Fault State :=
  match s.root with
  | some _ => .ok (s.raise .treePresent 0)
  | none => { s with mode := .busy .loadPair }.loadRun

/-- LOAD (R124): table text to tree. -/
def execLoad (s : State) : Outcome State Fault Refusal := s.accept State.loadBody

end Sys2Proof.Machine
end

