-- ==== Sys2Proof/Machine/HostPort.lean ====
section
/-! DEFINITION. The host's side of a step (20_memory.md R54, R55, R57; 44_system_commands.md R165; 70_reset_and_hazards.md
R200): which of the host's actions the core takes next, what each does, and how a waiting command goes on. -/

namespace Sys2Proof.Machine

open Sys2Proof Host

/-- The core or the environment takes this action now: `CMD` by `cmd_ready`, `FREQW` by `freq_ready`; the rst pin and the
environment's own presentations always. -/
def State.takes (s : State) (a : HostAct) : Bool :=
  match a with
  | .cmd _ => s.cmdReady
  | .freqw _ _ => s.freqReady
  | .rst => true
  | .tblIn _ _ => true
  | .symIn _ _ => true
  | .bitIn _ _ => true
  | .tblRoom _ => true
  | .symRoom _ => true
  | .bitRoom _ => true

/-- The first action of a script that is taken now, and the script without it. An action on a port that is not ready waits
and is not lost (R54, R165), and does not hold up the other ports. -/
def nextAct (ready : HostAct → Bool) : List HostAct → Option (HostAct × List HostAct)
  | [] => none
  | a :: rest =>
    if ready a then some (a, rest)
    else
      match nextAct ready rest with
      | none => none
      | some (b, rest') => some (b, a :: rest')

/-- The effect of a taken action that is no command. A command word is run by `exec`; here it changes nothing. -/
def State.hostAct (s : State) (a : HostAct) : State :=
  match a with
  | .cmd _ => s
  | .freqw i d => { s with freq := s.freq.write i.toNat d }
  | .rst => s.toReset
  | .tblIn us e => { s with tblSrc := ⟨us, e⟩ }
  | .symIn us e => { s with symSrc := ⟨us, e⟩ }
  | .bitIn us e => { s with bitSrc := ⟨us, e⟩ }
  | .tblRoom r => { s with tblSink := { s.tblSink with room := r } }
  | .symRoom r => { s with symSink := { s.symSink with room := r } }
  | .bitRoom r => { s with bitSink := { s.bitSink with room := r } }

/-- A running command goes on from where it waits; if what it waits for has not come, nothing changes (R55). In IDLE and in
FAULT the core waits for the host (60_exceptions.md R192). -/
def State.resume (s : State) : Except Fault State :=
  match s.mode with
  | .idle => .ok s
  | .fault => .ok s
  | .busy (.save rest) => .ok (s.saveWrite rest)
  | .busy .loadPair => s.loadRun
  | .busy .loadSym => s.loadRun
  | .busy .loadPath => s.loadRun
  | .busy (.encode rest) => s.encodeRun rest
  | .busy .decodeProbe => .ok s.decodeProbe
  | .busy .decode => s.decodeRun

end Sys2Proof.Machine
end

