-- ==== Sys2Proof/Machine/Step.lean ====
section
/-! DEFINITION. One step: the host's next action that is taken now, or else the running command goes on.
HUFFCORE fetches no instructions (10_state.md R12); its next command is the next word the host writes to `CMD`. -/

namespace Sys2Proof.Machine

open Sys2Proof Host

/-- One step of HUFFCORE with its host (20_memory.md R57; 44_system_commands.md R165).
DESIGN CHOICE (log entry 24): an action of the host that is taken now goes before a waiting command; the spec does not say
whether the command first takes the units already presented to it. -/
def step (s : State) : Host.Outcome State Fault Refusal :=
  match nextAct s.takes s.script with
  | some (.cmd op, rest) => exec (decodeOp op) { s with script := rest }
  | some (a, rest) => .next ({ s with script := rest }.hostAct a)
  | none => toOutcome s.resume

/-- The host's next action is to write this word to `CMD` (log entry 3). The table's rows are 3 bits wide, so the word is
the low 3 bits of `w`. -/
def State.withFetchWord (s : State) (_nbits w : Nat) : State :=
  { s with script := .cmd (BitVec.ofNat 3 w) :: s.script }

end Sys2Proof.Machine
end

