-- ==== Sys2Proof/Safety.lean ====
section
/-! DEFINITION. What a safe state is, in the terms statements use: the invariants of 10_state.md R20 and the rules beside
it, and the pure functions of trees, codes and tables that results are stated with. -/

namespace Sys2Proof.Machine

open Sys2Proof Host

/-! ### Invariants -/

/-- The links of a record that are not `NIL`. -/
def Node.links (nd : Node) : List Idx := nd.left.toList ++ nd.right.toList

/-- All links of an arena that are not `NIL`. -/
def childLinks (arena : List Node) : List Idx := arena.flatMap Node.links

/-- Every child was allocated before its parent: the numbering of BUILD (40_tree_builder.md R110). -/
abbrev childrenFirst (arena : List Node) : Prop :=
  ∀ p ∈ arena.zipIdx, ∀ c ∈ p.1.links, c.val < p.2

/-- Every child was allocated after its parent: the numbering of LOAD (41_code_table_codec.md R126). -/
abbrev parentsFirst (arena : List Node) : Prop :=
  ∀ p ∈ arena.zipIdx, ∀ c ∈ p.1.links, p.2 < c.val

/-- R20 items 1 and 2: `root = NIL` exactly when no entry is allocated; root and links are below `node_count`, which is at
most 511; no entry has two parents, the root has none, and no entry is its own ancestor. -/
abbrev State.arenaInv (s : State) : Prop :=
  s.nodeCount ≤ Config.nodeCap ∧
  (s.root = none ↔ s.arena = []) ∧
  (∀ r ∈ s.root.toList, r.val < s.nodeCount) ∧
  (∀ c ∈ childLinks s.arena, c.val < s.nodeCount) ∧
  (childLinks s.arena).Nodup ∧
  (∀ r ∈ s.root.toList, r ∉ childLinks s.arena) ∧
  (childrenFirst s.arena ∨ parentsFirst s.arena)

/-- A fault code is latched exactly in mode FAULT, and `err_info` is 0 without one (R171, R183, R184). -/
abbrev State.errInv (s : State) : Prop :=
  (s.mode = .fault ↔ s.err ≠ .none) ∧ (s.err = .none → s.errInfo = 0)

/-- The root is an allocated entry that is no leaf. -/
def State.innerRoot (s : State) : Bool :=
  match s.root with
  | none => false
  | some r =>
    match s.arena[r.val]? with
    | some nd => !nd.isLeaf
    | none => false

/-- A walk from a link that passes no leaf can stand at entry `k`: the entries of the tree (10_state.md R19), bounded as
`treeAt` is. -/
def inTree : Nat → List Node → Link → Idx → Bool
  | _, _, none, _ => false
  | 0, _, some _, _ => false
  | n + 1, arena, some i, k =>
    decide (i = k) ||
      match readNode arena i with
      | .error _ => false
      | .ok nd =>
        match nd.sym with
        | .symbol _ => false
        | .sentinel => inTree n arena nd.left k || inTree n arena nd.right k

/-- What holds where a command waits: LOAD's numbering so far, the transient registers (R11, R79, R126), and that DECODE
stands in the tree (R150). -/
def State.pointOk (s : State) : Bool :=
  match s.mode with
  | .idle => true
  | .fault => true
  | .busy (.save _) => true
  | .busy .loadPair => decide (parentsFirst s.arena)
  | .busy .loadSym => decide (parentsFirst s.arena ∧ s.val.toNat < 10 ^ s.ndig.toNat)
  | .busy .loadPath => decide (parentsFirst s.arena ∧ s.cur.val < s.nodeCount ∧ s.val.toNat ≤ 255)
  | .busy (.encode _) => true
  | .busy .decodeProbe => !s.innerRoot
  | .busy .decode => s.innerRoot && decide (s.cur.val < s.nodeCount) && inTree s.nodeCount s.arena s.root s.cur

/-- The invariant of HUFFCORE between steps. The queue is empty because BUILD "leaves it empty at its end" (R17) and uses
no stream, so that it never waits. -/
abbrev State.Inv (s : State) : Prop :=
  s.freq.wf ∧ s.arenaInv ∧ s.errInv ∧ s.pointOk = true ∧ s.pq = []

/-! ### Pure functions for statements -/

/-- The concatenated codes of some symbols (30_encoding.md R83): what ENCODE has to write. -/
def CodeTree.codes (t : CodeTree) (cs : List Byte) : Path := cs.flatMap (fun c => (t.codeOf c).getD [])

/-- The subtree a path leads to, each step taken at a node that is no leaf. -/
def CodeTree.descend : CodeTree → Path → Option CodeTree
  | t, [] => some t
  | .node l r, b :: p => if b then r.descend p else l.descend p
  | .empty, _ :: _ => none
  | .leaf _, _ :: _ => none

/-- The value of a decimal numeral, most significant digit first (30_encoding.md R79). -/
def decValue (ds : List Byte) : Nat := ds.foldl (fun v c => v * 10 + (c.toNat - digit0.toNat)) 0

/-- The symbols with a count that is not 0, ascending. -/
def State.present (s : State) : List Byte := allSymbols.filter (fun c => s.freqOf c ≠ 0)

/-- The sum of all counts, exact. -/
def State.total (s : State) : Nat := (allSymbols.map (fun c => (s.freqOf c).toNat)).sum

/-- The leaf record BUILD makes for a symbol (R105). -/
def State.leafFor (s : State) (c : Byte) : Node := ⟨.symbol c, none, none, (s.freqOf c).setWidth 40⟩

/-! #### BUILD in queue order -/

/-- The entries below `j` that are no child of an entry below `j`: the nodes queued when BUILD makes entry `j`. -/
def queuedAt (arena : List Node) (j : Nat) : List Nat :=
  (List.range j).filter (fun i => i ∉ (childLinks (arena.take j)).map Fin.val)

/-- Queue order between two entries (10_state.md R17): less weight first, then less `seq`, which in BUILD is the index
(40_tree_builder.md R110). -/
abbrev entryBefore (arena : List Node) (i k : Nat) : Prop :=
  ∃ ni nk, arena[i]? = some ni ∧ arena[k]? = some nk ∧ (ni.weight < nk.weight ∨ (ni.weight = nk.weight ∧ i < k))

/-! #### Tables as LOAD accepts them, well-formed or not -/

/-- A numeral LOAD accepts (30_encoding.md R79): one to three digits, leading zeros among them, of value up to 255. -/
abbrev isNumeral (ds : List Byte) : Prop :=
  (∀ d ∈ ds, isDigit d = true) ∧ 1 ≤ ds.length ∧ ds.length ≤ 3 ∧ decValue ds ≤ 255

/-- A symbol line and a path line (R77). -/
def lineText (line : List Byte × Path) : List Byte := line.1 ++ [LF] ++ line.2.map pathChar ++ [LF]

/-- The paths LOAD makes a node for: each prefix of each path once, the empty one among them (41_code_table_codec.md R131). -/
def nodePaths (lines : List (List Byte × Path)) : List Path := (lines.flatMap (fun q => q.2.inits)).dedup

/-- What the last pair with a path places there; the sentinel if no pair has it (R126, R128). -/
def placedAt (lines : List (List Byte × Path)) (p : Path) : NodeSym :=
  match lines.reverse.find? (fun q => q.2 == p) with
  | some q => .symbol (BitVec.ofNat 8 (decValue q.1))
  | none => .sentinel

/-- The entry a path leads to from a link, through every node, leaf or not. -/
def walk (arena : List Node) : Link → Path → Link
  | l, [] => l
  | none, _ :: _ => none
  | some i, b :: p =>
    match arena[i.val]? with
    | some nd => walk arena (nd.child b) p
    | none => none

/-! #### Waiting, ports and frames -/

/-- A write of the host that the core has to accept: a word on `CMD` or a write on `FREQW` (20_memory.md R54, R57). -/
def HostAct.isWrite (a : HostAct) : Bool :=
  match a with
  | .cmd _ => true
  | .freqw _ _ => true
  | .rst => false
  | .tblIn _ _ => false
  | .symIn _ _ => false
  | .bitIn _ _ => false
  | .tblRoom _ => false
  | .symRoom _ => false
  | .bitRoom _ => false

/-- The command that waits at a point. -/
def Point.command (p : Point) : Instr :=
  match p with
  | .save _ => .save
  | .loadPair => .load
  | .loadSym => .load
  | .loadPath => .load
  | .encode _ => .encode
  | .decodeProbe => .decode
  | .decode => .decode

/-- The room of an output port once the environment is ready for some more units; `none` is no limit (20_memory.md R55). -/
def addRoom : Option Nat → Option Nat → Option Nat
  | some m, some n => some (m + n)
  | _, _ => none

/-- The port is ready for that many units. -/
abbrev Sink.hasRoom {α : Type} (k : Sink α) (n : Nat) : Prop := ∀ m, k.room = some m → n ≤ m

/-- An output port after some units, all of which it was ready for. -/
abbrev Sink.took {α : Type} (k : Sink α) (us : List α) : Sink α := ⟨k.written ++ us, k.room.map (· - us.length)⟩

/-- What SAVE may change, from its acceptance or from a wait (20_memory.md R60). -/
abbrev saveFrame (s t : State) : Prop :=
  t = { s with mode := t.mode, tblSink := t.tblSink } ∧ ∃ out, t.tblSink.written = s.tblSink.written ++ out

/-- What ENCODE may change: it consumes a beginning of its input and appends to its output. -/
abbrev encodeFrame (s t : State) : Prop :=
  t = { s with mode := t.mode, err := t.err, errInfo := t.errInfo, symSrc := ⟨t.symSrc.units, s.symSrc.ended⟩,
               bitSink := t.bitSink } ∧
  (∃ used, s.symSrc.units = used ++ t.symSrc.units) ∧ ∃ out, t.bitSink.written = s.bitSink.written ++ out

/-- What DECODE may change: it consumes a beginning of its input and appends to its output. -/
abbrev decodeFrame (s t : State) : Prop :=
  t = { s with mode := t.mode, err := t.err, errInfo := t.errInfo, cur := t.cur,
               bitSrc := ⟨t.bitSrc.units, s.bitSrc.ended⟩, symSink := t.symSink } ∧
  (∃ used, s.bitSrc.units = used ++ t.bitSrc.units) ∧ ∃ out, t.symSink.written = s.symSink.written ++ out

/-- What LOAD may change: it consumes a beginning of its input, and gives no node a weight but 0 (R130). -/
abbrev loadFrame (s t : State) : Prop :=
  t = { s with mode := t.mode, err := t.err, errInfo := t.errInfo, root := t.root, arena := t.arena, cur := t.cur,
               val := t.val, ndig := t.ndig, tblSrc := ⟨t.tblSrc.units, s.tblSrc.ended⟩ } ∧
  (∃ used, s.tblSrc.units = used ++ t.tblSrc.units) ∧
  ((∀ nd ∈ s.arena, nd.weight = 0) → ∀ nd ∈ t.arena, nd.weight = 0)

/-- No action of the host is taken now, so that a step is the waiting command's. -/
abbrev State.quiet (s : State) : Prop := nextAct s.takes s.script = none

/-- The environment takes every unit offered on every output port (70_reset_and_hazards.md R209). -/
abbrev State.outputsReady (s : State) : Prop :=
  s.tblSink.room = none ∧ s.symSink.room = none ∧ s.bitSink.room = none

/-- The fault codes a command can raise (60_exceptions.md R182). -/
def faultsOf (i : Instr) : List ErrCode :=
  match i with
  | .nop => []
  | .build => [.treePresent]
  | .save => []
  | .load => [.treePresent, .tableSyntax, .arenaFull]
  | .encode => [.noTree, .degenerateTree, .unknownSymbol]
  | .decode => [.noTree, .degenerateTree, .badPath, .truncatedStream]
  | .reserved6 => [.illegalCmd]
  | .reset => []

end Sys2Proof.Machine
end

