-- ==== Sys2Proof/Laws/PerInstr.lean ====
section
/-! SUPPORT. A statement about every command as a word: its byte decodes to it, and to nothing left over. -/

namespace Sys2Proof.Laws.CommandByte

open Sys2Proof

/-- The command's byte is a command byte, and decodes to the command with no byte left. -/
def Statement (i : Instr) : Prop :=
  (∀ b ∈ encode i, isCommandByte b) ∧ decode (encode i) = .ok (i, []) ∧ decodeOp (encodeOp i) = i

theorem nop : Statement .nop := by unfold Statement; decide
theorem build : Statement .build := by unfold Statement; decide
theorem save : Statement .save := by unfold Statement; decide
theorem load : Statement .load := by unfold Statement; decide
theorem encode : Statement .encode := by unfold Statement; decide
theorem decode : Statement .decode := by unfold Statement; decide
theorem reserved6 : Statement .reserved6 := by unfold Statement; decide
theorem reset : Statement .reset := by unfold Statement; decide

end Sys2Proof.Laws.CommandByte
end

