-- ==== Sys2Proof/Laws/Memory.lean ====
section
/-! SUPPORT. The laws of the space FREQ: reads after writes, and every write keeps the canonical form. -/

namespace Sys2Proof.Machine

open Sys2Proof Host

@[simp] theorem Memory.read_nil (a : Nat) : Memory.read [] a = 0 := rfl

/-- An index below every listed index reads 0. -/
theorem Memory.read_below {m : Memory} {a : Nat} (h : ∀ p ∈ m, a < p.1) : Memory.read m a = 0 := by
  induction m with
  | nil => rfl
  | cons p m ih =>
    obtain ⟨b, w⟩ := p
    have hb : a < b := h (b, w) (List.mem_cons_self ..)
    have hm : Memory.read m a = 0 := ih fun q hq => h q (List.mem_cons_of_mem _ hq)
    simp [Memory.read, hm, Nat.ne_of_lt hb]

/-- Every index a write lists was listed before or is the written one. -/
theorem Memory.mem_write {m : Memory} {a : Nat} {v : Count} {p : Nat × Count} (h : p ∈ Memory.write m a v) :
    p ∈ m ∨ (p = (a, v) ∧ v ≠ 0) := by
  induction m with
  | nil =>
    simp only [Memory.write] at h
    split at h <;> simp_all
  | cons q m ih =>
    obtain ⟨b, w⟩ := q
    simp only [Memory.write] at h
    split at h
    · split at h <;> (simp_all; try tauto)
    · split at h
      · split at h <;> (simp_all; try tauto)
      · rcases List.mem_cons.1 h with h | h
        · exact .inl (h ▸ List.mem_cons_self ..)
        · exact (ih h).imp (List.mem_cons_of_mem _) id

/-- A write keeps the canonical form. -/
theorem Memory.write_wf {m : Memory} {a : Nat} {v : Count} (h : Memory.wf m) (ha : a < Config.nsym) :
    Memory.wf (Memory.write m a v) := by
  refine ⟨?_, fun p hp => ?_⟩
  · obtain ⟨hs, -⟩ := h
    induction m with
    | nil => simp only [Memory.write]; split <;> simp
    | cons q m ih =>
      obtain ⟨b, w⟩ := q
      have hb : ∀ p ∈ m, b < p.1 := (List.pairwise_cons.1 hs).1
      have hm := (List.pairwise_cons.1 hs).2
      simp only [Memory.write]
      split
      · split
        · exact hs
        · refine List.pairwise_cons.2 ⟨fun p hp => ?_, hs⟩
          rcases List.mem_cons.1 hp with rfl | hp
          · assumption
          · exact Nat.lt_trans ‹a < b› (hb p hp)
      · split
        · subst a
          split
          · exact hm
          · exact List.pairwise_cons.2 ⟨hb, hm⟩
        · refine List.pairwise_cons.2 ⟨fun p hp => ?_, ih hm⟩
          rcases Memory.mem_write hp with hp | ⟨rfl, -⟩
          · exact hb p hp
          · show b < a
            omega
  · rcases Memory.mem_write hp with hp | ⟨rfl, hv⟩
    · exact h.2 p hp
    · exact ⟨ha, hv⟩

/-- A read after a write: the written index gives the value written, every other index what it gave before. -/
theorem Memory.read_write {m : Memory} (h : Memory.wf m) (a b : Nat) (v : Count) :
    Memory.read (Memory.write m a v) b = if b = a then v else Memory.read m b := by
  obtain ⟨hs, -⟩ := h
  induction m with
  | nil => simp only [Memory.write]; split <;> simp_all [Memory.read]
  | cons q m ih =>
    obtain ⟨c, w⟩ := q
    have hc : ∀ p ∈ m, c < p.1 := (List.pairwise_cons.1 hs).1
    have hm := ih (List.pairwise_cons.1 hs).2
    have hz : Memory.read m c = 0 := Memory.read_below hc
    have hl : ∀ d, d < c → Memory.read m d = 0 := fun d hd =>
      Memory.read_below fun p hp => Nat.lt_trans hd (hc p hp)
    simp only [Memory.write]
    split
    · rename_i hac
      have hne : a ≠ c := Nat.ne_of_lt hac
      split
      · simp only [Memory.read]
        split_ifs <;> simp_all
      · simp only [Memory.read]
    · split
      · subst a
        split <;> simp only [Memory.read] <;> split_ifs <;> simp_all
      · simp only [Memory.read, hm]
        split_ifs <;> simp_all

/-- The reset memory has the canonical form. -/
theorem Memory.reset_wf : Memory.wf State.reset.freq := by decide

end Sys2Proof.Machine
end

