-- ==== Sys2Proof/Laws/State.lean ====
section
/-! SUPPORT. One lemma per field of State for each update of State that later proofs meet, each true by rfl, so that no
proof unfolds a record update. -/

namespace Sys2Proof.Machine

open Sys2Proof Host

@[simp] theorem State.done_mode (s : State) : s.done.mode = .idle := rfl
@[simp] theorem State.done_err (s : State) : s.done.err = s.err := rfl
@[simp] theorem State.done_errInfo (s : State) : s.done.errInfo = s.errInfo := rfl
@[simp] theorem State.done_root (s : State) : s.done.root = s.root := rfl
@[simp] theorem State.done_arena (s : State) : s.done.arena = s.arena := rfl
@[simp] theorem State.done_freq (s : State) : s.done.freq = s.freq := rfl
@[simp] theorem State.done_pq (s : State) : s.done.pq = s.pq := rfl
@[simp] theorem State.done_seqNext (s : State) : s.done.seqNext = s.seqNext := rfl
@[simp] theorem State.done_cur (s : State) : s.done.cur = s.cur := rfl
@[simp] theorem State.done_val (s : State) : s.done.val = s.val := rfl
@[simp] theorem State.done_ndig (s : State) : s.done.ndig = s.ndig := rfl
@[simp] theorem State.done_bitSrc (s : State) : s.done.bitSrc = s.bitSrc := rfl
@[simp] theorem State.done_symSrc (s : State) : s.done.symSrc = s.symSrc := rfl
@[simp] theorem State.done_tblSrc (s : State) : s.done.tblSrc = s.tblSrc := rfl
@[simp] theorem State.done_bitSink (s : State) : s.done.bitSink = s.bitSink := rfl
@[simp] theorem State.done_symSink (s : State) : s.done.symSink = s.symSink := rfl
@[simp] theorem State.done_tblSink (s : State) : s.done.tblSink = s.tblSink := rfl
@[simp] theorem State.done_script (s : State) : s.done.script = s.script := rfl

@[simp] theorem State.raise_mode (s : State) (code : ErrCode) (info : BitVec 9) : (s.raise code info).mode = .fault := rfl
@[simp] theorem State.raise_err (s : State) (code : ErrCode) (info : BitVec 9) : (s.raise code info).err = code := rfl
@[simp] theorem State.raise_errInfo (s : State) (code : ErrCode) (info : BitVec 9) : (s.raise code info).errInfo = info := rfl
@[simp] theorem State.raise_root (s : State) (code : ErrCode) (info : BitVec 9) : (s.raise code info).root = s.root := rfl
@[simp] theorem State.raise_arena (s : State) (code : ErrCode) (info : BitVec 9) : (s.raise code info).arena = s.arena := rfl
@[simp] theorem State.raise_freq (s : State) (code : ErrCode) (info : BitVec 9) : (s.raise code info).freq = s.freq := rfl
@[simp] theorem State.raise_pq (s : State) (code : ErrCode) (info : BitVec 9) : (s.raise code info).pq = s.pq := rfl
@[simp] theorem State.raise_seqNext (s : State) (code : ErrCode) (info : BitVec 9) : (s.raise code info).seqNext = s.seqNext := rfl
@[simp] theorem State.raise_cur (s : State) (code : ErrCode) (info : BitVec 9) : (s.raise code info).cur = s.cur := rfl
@[simp] theorem State.raise_val (s : State) (code : ErrCode) (info : BitVec 9) : (s.raise code info).val = s.val := rfl
@[simp] theorem State.raise_ndig (s : State) (code : ErrCode) (info : BitVec 9) : (s.raise code info).ndig = s.ndig := rfl
@[simp] theorem State.raise_bitSrc (s : State) (code : ErrCode) (info : BitVec 9) : (s.raise code info).bitSrc = s.bitSrc := rfl
@[simp] theorem State.raise_symSrc (s : State) (code : ErrCode) (info : BitVec 9) : (s.raise code info).symSrc = s.symSrc := rfl
@[simp] theorem State.raise_tblSrc (s : State) (code : ErrCode) (info : BitVec 9) : (s.raise code info).tblSrc = s.tblSrc := rfl
@[simp] theorem State.raise_bitSink (s : State) (code : ErrCode) (info : BitVec 9) : (s.raise code info).bitSink = s.bitSink := rfl
@[simp] theorem State.raise_symSink (s : State) (code : ErrCode) (info : BitVec 9) : (s.raise code info).symSink = s.symSink := rfl
@[simp] theorem State.raise_tblSink (s : State) (code : ErrCode) (info : BitVec 9) : (s.raise code info).tblSink = s.tblSink := rfl
@[simp] theorem State.raise_script (s : State) (code : ErrCode) (info : BitVec 9) : (s.raise code info).script = s.script := rfl

@[simp] theorem State.setNode_mode (s : State) (i : Idx) (nd : Node) : (s.setNode i nd).mode = s.mode := rfl
@[simp] theorem State.setNode_err (s : State) (i : Idx) (nd : Node) : (s.setNode i nd).err = s.err := rfl
@[simp] theorem State.setNode_errInfo (s : State) (i : Idx) (nd : Node) : (s.setNode i nd).errInfo = s.errInfo := rfl
@[simp] theorem State.setNode_root (s : State) (i : Idx) (nd : Node) : (s.setNode i nd).root = s.root := rfl
@[simp] theorem State.setNode_arena (s : State) (i : Idx) (nd : Node) : (s.setNode i nd).arena = s.arena.set i.val nd := rfl
@[simp] theorem State.setNode_freq (s : State) (i : Idx) (nd : Node) : (s.setNode i nd).freq = s.freq := rfl
@[simp] theorem State.setNode_pq (s : State) (i : Idx) (nd : Node) : (s.setNode i nd).pq = s.pq := rfl
@[simp] theorem State.setNode_seqNext (s : State) (i : Idx) (nd : Node) : (s.setNode i nd).seqNext = s.seqNext := rfl
@[simp] theorem State.setNode_cur (s : State) (i : Idx) (nd : Node) : (s.setNode i nd).cur = s.cur := rfl
@[simp] theorem State.setNode_val (s : State) (i : Idx) (nd : Node) : (s.setNode i nd).val = s.val := rfl
@[simp] theorem State.setNode_ndig (s : State) (i : Idx) (nd : Node) : (s.setNode i nd).ndig = s.ndig := rfl
@[simp] theorem State.setNode_bitSrc (s : State) (i : Idx) (nd : Node) : (s.setNode i nd).bitSrc = s.bitSrc := rfl
@[simp] theorem State.setNode_symSrc (s : State) (i : Idx) (nd : Node) : (s.setNode i nd).symSrc = s.symSrc := rfl
@[simp] theorem State.setNode_tblSrc (s : State) (i : Idx) (nd : Node) : (s.setNode i nd).tblSrc = s.tblSrc := rfl
@[simp] theorem State.setNode_bitSink (s : State) (i : Idx) (nd : Node) : (s.setNode i nd).bitSink = s.bitSink := rfl
@[simp] theorem State.setNode_symSink (s : State) (i : Idx) (nd : Node) : (s.setNode i nd).symSink = s.symSink := rfl
@[simp] theorem State.setNode_tblSink (s : State) (i : Idx) (nd : Node) : (s.setNode i nd).tblSink = s.tblSink := rfl
@[simp] theorem State.setNode_script (s : State) (i : Idx) (nd : Node) : (s.setNode i nd).script = s.script := rfl

@[simp] theorem State.toReset_mode (s : State) : s.toReset.mode = .idle := rfl
@[simp] theorem State.toReset_err (s : State) : s.toReset.err = .none := rfl
@[simp] theorem State.toReset_errInfo (s : State) : s.toReset.errInfo = 0 := rfl
@[simp] theorem State.toReset_root (s : State) : s.toReset.root = none := rfl
@[simp] theorem State.toReset_arena (s : State) : s.toReset.arena = [] := rfl
@[simp] theorem State.toReset_freq (s : State) : s.toReset.freq = [] := rfl
@[simp] theorem State.toReset_pq (s : State) : s.toReset.pq = [] := rfl
@[simp] theorem State.toReset_seqNext (s : State) : s.toReset.seqNext = 0 := rfl
@[simp] theorem State.toReset_cur (s : State) : s.toReset.cur = 0 := rfl
@[simp] theorem State.toReset_val (s : State) : s.toReset.val = 0 := rfl
@[simp] theorem State.toReset_ndig (s : State) : s.toReset.ndig = 0 := rfl
@[simp] theorem State.toReset_bitSrc (s : State) : s.toReset.bitSrc = s.bitSrc := rfl
@[simp] theorem State.toReset_symSrc (s : State) : s.toReset.symSrc = s.symSrc := rfl
@[simp] theorem State.toReset_tblSrc (s : State) : s.toReset.tblSrc = s.tblSrc := rfl
@[simp] theorem State.toReset_bitSink (s : State) : s.toReset.bitSink = s.bitSink := rfl
@[simp] theorem State.toReset_symSink (s : State) : s.toReset.symSink = s.symSink := rfl
@[simp] theorem State.toReset_tblSink (s : State) : s.toReset.tblSink = s.tblSink := rfl
@[simp] theorem State.toReset_script (s : State) : s.toReset.script = s.script := rfl

@[simp] theorem State.saveWrite_mode (s : State) (text : List Byte) : (s.saveWrite text).mode = (if (s.tblSink.push text).2 = [] then .idle else .busy (.save (s.tblSink.push text).2)) := rfl
@[simp] theorem State.saveWrite_err (s : State) (text : List Byte) : (s.saveWrite text).err = s.err := rfl
@[simp] theorem State.saveWrite_errInfo (s : State) (text : List Byte) : (s.saveWrite text).errInfo = s.errInfo := rfl
@[simp] theorem State.saveWrite_root (s : State) (text : List Byte) : (s.saveWrite text).root = s.root := rfl
@[simp] theorem State.saveWrite_arena (s : State) (text : List Byte) : (s.saveWrite text).arena = s.arena := rfl
@[simp] theorem State.saveWrite_freq (s : State) (text : List Byte) : (s.saveWrite text).freq = s.freq := rfl
@[simp] theorem State.saveWrite_pq (s : State) (text : List Byte) : (s.saveWrite text).pq = s.pq := rfl
@[simp] theorem State.saveWrite_seqNext (s : State) (text : List Byte) : (s.saveWrite text).seqNext = s.seqNext := rfl
@[simp] theorem State.saveWrite_cur (s : State) (text : List Byte) : (s.saveWrite text).cur = s.cur := rfl
@[simp] theorem State.saveWrite_val (s : State) (text : List Byte) : (s.saveWrite text).val = s.val := rfl
@[simp] theorem State.saveWrite_ndig (s : State) (text : List Byte) : (s.saveWrite text).ndig = s.ndig := rfl
@[simp] theorem State.saveWrite_bitSrc (s : State) (text : List Byte) : (s.saveWrite text).bitSrc = s.bitSrc := rfl
@[simp] theorem State.saveWrite_symSrc (s : State) (text : List Byte) : (s.saveWrite text).symSrc = s.symSrc := rfl
@[simp] theorem State.saveWrite_tblSrc (s : State) (text : List Byte) : (s.saveWrite text).tblSrc = s.tblSrc := rfl
@[simp] theorem State.saveWrite_bitSink (s : State) (text : List Byte) : (s.saveWrite text).bitSink = s.bitSink := rfl
@[simp] theorem State.saveWrite_symSink (s : State) (text : List Byte) : (s.saveWrite text).symSink = s.symSink := rfl
@[simp] theorem State.saveWrite_tblSink (s : State) (text : List Byte) : (s.saveWrite text).tblSink = (s.tblSink.push text).1 := rfl
@[simp] theorem State.saveWrite_script (s : State) (text : List Byte) : (s.saveWrite text).script = s.script := rfl

@[simp] theorem State.writeCode_mode (s : State) (p : Path) : (s.writeCode p).mode = .busy (.encode (s.bitSink.push p).2) := rfl
@[simp] theorem State.writeCode_err (s : State) (p : Path) : (s.writeCode p).err = s.err := rfl
@[simp] theorem State.writeCode_errInfo (s : State) (p : Path) : (s.writeCode p).errInfo = s.errInfo := rfl
@[simp] theorem State.writeCode_root (s : State) (p : Path) : (s.writeCode p).root = s.root := rfl
@[simp] theorem State.writeCode_arena (s : State) (p : Path) : (s.writeCode p).arena = s.arena := rfl
@[simp] theorem State.writeCode_freq (s : State) (p : Path) : (s.writeCode p).freq = s.freq := rfl
@[simp] theorem State.writeCode_pq (s : State) (p : Path) : (s.writeCode p).pq = s.pq := rfl
@[simp] theorem State.writeCode_seqNext (s : State) (p : Path) : (s.writeCode p).seqNext = s.seqNext := rfl
@[simp] theorem State.writeCode_cur (s : State) (p : Path) : (s.writeCode p).cur = s.cur := rfl
@[simp] theorem State.writeCode_val (s : State) (p : Path) : (s.writeCode p).val = s.val := rfl
@[simp] theorem State.writeCode_ndig (s : State) (p : Path) : (s.writeCode p).ndig = s.ndig := rfl
@[simp] theorem State.writeCode_bitSrc (s : State) (p : Path) : (s.writeCode p).bitSrc = s.bitSrc := rfl
@[simp] theorem State.writeCode_symSrc (s : State) (p : Path) : (s.writeCode p).symSrc = s.symSrc := rfl
@[simp] theorem State.writeCode_tblSrc (s : State) (p : Path) : (s.writeCode p).tblSrc = s.tblSrc := rfl
@[simp] theorem State.writeCode_bitSink (s : State) (p : Path) : (s.writeCode p).bitSink = (s.bitSink.push p).1 := rfl
@[simp] theorem State.writeCode_symSink (s : State) (p : Path) : (s.writeCode p).symSink = s.symSink := rfl
@[simp] theorem State.writeCode_tblSink (s : State) (p : Path) : (s.writeCode p).tblSink = s.tblSink := rfl
@[simp] theorem State.writeCode_script (s : State) (p : Path) : (s.writeCode p).script = s.script := rfl

@[simp] theorem State.reset_mode : State.reset.mode = .idle := rfl
@[simp] theorem State.reset_err : State.reset.err = .none := rfl
@[simp] theorem State.reset_errInfo : State.reset.errInfo = 0 := rfl
@[simp] theorem State.reset_root : State.reset.root = none := rfl
@[simp] theorem State.reset_arena : State.reset.arena = [] := rfl
@[simp] theorem State.reset_freq : State.reset.freq = [] := rfl
@[simp] theorem State.reset_pq : State.reset.pq = [] := rfl
@[simp] theorem State.reset_seqNext : State.reset.seqNext = 0 := rfl
@[simp] theorem State.reset_cur : State.reset.cur = 0 := rfl
@[simp] theorem State.reset_val : State.reset.val = 0 := rfl
@[simp] theorem State.reset_ndig : State.reset.ndig = 0 := rfl
@[simp] theorem State.reset_bitSrc : State.reset.bitSrc = ⟨[], true⟩ := rfl
@[simp] theorem State.reset_symSrc : State.reset.symSrc = ⟨[], true⟩ := rfl
@[simp] theorem State.reset_tblSrc : State.reset.tblSrc = ⟨[], true⟩ := rfl
@[simp] theorem State.reset_bitSink : State.reset.bitSink = ⟨[], Option.none⟩ := rfl
@[simp] theorem State.reset_symSink : State.reset.symSink = ⟨[], Option.none⟩ := rfl
@[simp] theorem State.reset_tblSink : State.reset.tblSink = ⟨[], Option.none⟩ := rfl
@[simp] theorem State.reset_script : State.reset.script = [] := rfl

end Sys2Proof.Machine
end

