-- ==== Sys2Proof/Laws/Ops.lean ====
section
/-! SUPPORT. One lemma for each shared operation that says everything it can do: node reads, ALLOC, output ports,
STATUS, acceptance of a command, the host's next action. -/

namespace Sys2Proof.Machine

open Sys2Proof Host

/-! ### Reads and ALLOC -/

/-- A node read answers exactly the entry below `node_count`. -/
theorem readNode_eq_ok {arena : List Node} {i : Idx} {nd : Node} :
    readNode arena i = .ok nd ↔ arena[i.val]? = some nd := by
  unfold readNode
  cases arena[i.val]? <;> simp

/-- An allocated entry can be read. -/
theorem readNode_of_lt {arena : List Node} {i : Idx} (h : i.val < arena.length) :
    readNode arena i = .ok arena[i.val] :=
  readNode_eq_ok.2 (List.getElem?_eq_getElem h)

/-- ALLOC with a free entry: the next index, and the record appended. -/
theorem State.alloc_of_lt {s : State} (h : s.arena.length < Config.nodeCap) (sym : NodeSym) (l r : Link) (w : Weight) :
    s.alloc sym l r w = some (⟨s.arena.length, h⟩, { s with arena := s.arena ++ [⟨sym, l, r, w⟩] }) := by
  simp only [State.alloc, dif_pos h]

/-- ALLOC without a free entry: FULL. -/
theorem State.alloc_full {s : State} (h : ¬ s.arena.length < Config.nodeCap) (sym : NodeSym) (l r : Link) (w : Weight) :
    s.alloc sym l r w = none := by
  simp only [State.alloc, dif_neg h]

/-- Everything ALLOC can do when it answers an index. -/
theorem State.alloc_eq_some {s t : State} {sym : NodeSym} {l r : Link} {w : Weight} {i : Idx}
    (h : s.alloc sym l r w = some (i, t)) :
    i.val = s.arena.length ∧ t = { s with arena := s.arena ++ [⟨sym, l, r, w⟩] } := by
  unfold State.alloc at h
  split at h
  · cases h; exact ⟨rfl, rfl⟩
  · cases h

/-! ### Output ports -/

@[simp] theorem Sink.push_ready {α : Type} (written us : List α) :
    Sink.push ⟨written, none⟩ us = (⟨written ++ us, none⟩, []) := rfl

@[simp] theorem Sink.push_room {α : Type} (written us : List α) (n : Nat) :
    Sink.push ⟨written, some n⟩ us = (⟨written ++ us.take n, some (n - us.length)⟩, us.drop n) := rfl

/-- A port that is always ready takes every unit. -/
theorem Sink.push_of_ready {α : Type} {k : Sink α} (h : k.room = none) (us : List α) :
    k.push us = ({ k with written := k.written ++ us }, []) := by
  obtain ⟨w, r⟩ := k
  cases h
  rfl

/-- Writing nothing changes nothing. -/
@[simp] theorem Sink.push_nil {α : Type} (k : Sink α) : k.push [] = (k, []) := by
  obtain ⟨w, _ | n⟩ := k <;> simp

/-- What a port took and what it did not take are together what was offered. -/
theorem Sink.push_split {α : Type} (k : Sink α) (us : List α) :
    ∃ taken, us = taken ++ (k.push us).2 ∧ (k.push us).1.written = k.written ++ taken := by
  obtain ⟨w, _ | n⟩ := k
  · exact ⟨us, by simp, rfl⟩
  · exact ⟨us.take n, (List.take_append_drop n us).symm, rfl⟩

/-- A port that is ready for all the units takes them. -/
theorem Sink.push_of_hasRoom {α : Type} {k : Sink α} {us : List α} (h : k.hasRoom us.length) : k.push us = (k.took us, []) := by
  obtain ⟨w, _ | n⟩ := k
  · rfl
  · have hn : us.length ≤ n := h n rfl
    simp [List.take_of_length_le hn, List.drop_of_length_le hn]

/-- Offering units, then more room, then what was left over, is offering them with all the room at once. -/
theorem Sink.push_addRoom {α : Type} (k : Sink α) (us : List α) (more : Option Nat) :
    Sink.push { (k.push us).1 with room := addRoom (k.push us).1.room more } (k.push us).2 =
      Sink.push { k with room := addRoom k.room more } us := by
  obtain ⟨w, _ | n⟩ := k
  · simp [addRoom]
  · cases more with
    | none => simp [addRoom]
    | some m =>
      simp only [Sink.push_room, addRoom, Prod.mk.injEq, Sink.mk.injEq, List.append_assoc, Option.some.injEq,
        List.length_drop, List.drop_drop]
      refine ⟨⟨?_, by omega⟩, ?_⟩
      · congr 1
        by_cases h : us.length ≤ n
        · simp [List.take_of_length_le h, List.drop_of_length_le h, List.take_of_length_le (Nat.le_add_right_of_le h)]
        · rw [Nat.sub_eq_zero_of_le (by omega), Nat.zero_add, ← List.take_add]
      · by_cases h : us.length ≤ n
        · rw [List.drop_of_length_le (by omega), List.drop_of_length_le (by omega)]
        · congr 1
          omega

/-! ### STATUS -/

theorem State.treeSingle_of_none {s : State} (h : s.root = none) : s.treeSingle = .ok false := by
  simp only [State.treeSingle, h]

theorem State.treeSingle_of_some {s : State} {r : Idx} {nd : Node} (h : s.root = some r)
    (hnd : s.arena[r.val]? = some nd) : s.treeSingle = .ok nd.isLeaf := by
  simp only [State.treeSingle, h, readNode_eq_ok.2 hnd, Except.map]

/-- Reading STATUS answers in every state whose root, if any, is allocated. -/
theorem State.status_isOk {s : State} (h : ∀ r, s.root = some r → r.val < s.nodeCount) : ∃ w, s.status = .ok w := by
  cases hr : s.root with
  | none => exact ⟨_, by simp only [State.status, State.treeSingle_of_none hr, Except.map]; rfl⟩
  | some r =>
    exact ⟨_, by
      simp only [State.status, State.treeSingle_of_some hr (List.getElem?_eq_getElem (h r hr)), Except.map]; rfl⟩

/-! ### Acceptance and outcomes -/

@[simp] theorem toOutcome_ok (s : State) : toOutcome (.ok s) = .next s := rfl

@[simp] theorem toOutcome_error (f : Fault) : toOutcome (.error f) = .fault f := rfl

theorem toOutcome_eq_next {r : Except Fault State} {t : State} : toOutcome r = .next t ↔ r = .ok t := by
  cases r <;> simp [toOutcome]

/-- In IDLE a command runs. -/
theorem State.accept_idle {s : State} (h : s.mode = .idle) (run : State → Except Fault State) :
    s.accept run = toOutcome (run s) := by
  simp only [State.accept, h]

/-- In FAULT a command is dropped, in BUSY it is not accepted: nothing changes. -/
theorem State.accept_not_idle {s : State} (h : s.mode ≠ .idle) (run : State → Except Fault State) :
    s.accept run = .next s := by
  unfold State.accept
  split <;> simp_all

/-- With no action of the host taken now, a step is the waiting command's. -/
theorem step_of_quiet {s : State} (h : s.quiet) : step s = toOutcome s.resume := by
  simp only [step, h]

/-- Everything an accepted command can do when it answers a next state. -/
theorem State.accept_eq_next {s t : State} {run : State → Except Fault State} (h : s.accept run = .next t) :
    (s.mode = .idle ∧ run s = .ok t) ∨ (s.mode ≠ .idle ∧ t = s) := by
  by_cases hm : s.mode = .idle
  · rw [State.accept_idle hm] at h
    exact .inl ⟨hm, toOutcome_eq_next.1 h⟩
  · rw [State.accept_not_idle hm] at h
    cases h
    exact .inr ⟨hm, rfl⟩

/-! ### The host's next action -/

@[simp] theorem nextAct_nil (ready : HostAct → Bool) : nextAct ready [] = none := rfl

/-- An action that is taken now, at the head of the script, is the next one. -/
theorem nextAct_cons_of_ready {ready : HostAct → Bool} {a : HostAct} (h : ready a = true) (rest : List HostAct) :
    nextAct ready (a :: rest) = some (a, rest) := by
  simp [nextAct, h]

/-- An action that is not taken now waits at its place. -/
theorem nextAct_cons_of_not_ready {ready : HostAct → Bool} {a : HostAct} (h : ready a = false) (rest : List HostAct) :
    nextAct ready (a :: rest) = (nextAct ready rest).map (fun p => (p.1, a :: p.2)) := by
  simp only [nextAct, h, Bool.false_eq_true, if_false]
  cases nextAct ready rest <;> rfl

/-- An action that is taken now, behind entries that wait, is the next one, and they stay in place. -/
theorem nextAct_behind_waiting {ready : HostAct → Bool} {a : HostAct} {pre : List HostAct} (ha : ready a = true)
    (hpre : ∀ b ∈ pre, ready b = false) (post : List HostAct) :
    nextAct ready (pre ++ a :: post) = some (a, pre ++ post) := by
  induction pre with
  | nil => exact nextAct_cons_of_ready ha post
  | cons b pre ih =>
    rw [List.cons_append, nextAct_cons_of_not_ready (hpre b (by simp)), ih fun c hc => hpre c (by simp [hc])]
    rfl

/-- The action taken is one that is ready, and every action before it in the script is not. -/
theorem nextAct_eq_some {ready : HostAct → Bool} {script rest : List HostAct} {a : HostAct}
    (h : nextAct ready script = some (a, rest)) :
    ready a = true ∧ ∃ pre post, script = pre ++ a :: post ∧ rest = pre ++ post ∧ ∀ b ∈ pre, ready b = false := by
  induction script generalizing rest with
  | nil => cases h
  | cons b script ih =>
    by_cases hb : ready b = true
    · rw [nextAct_cons_of_ready hb] at h
      cases h
      exact ⟨hb, [], script, rfl, rfl, by simp⟩
    · have hb' : ready b = false := by simpa using hb
      rw [nextAct_cons_of_not_ready hb'] at h
      obtain ⟨⟨c, rest'⟩, hc, heq⟩ := Option.map_eq_some_iff.1 h
      cases heq
      obtain ⟨ha, pre, post, rfl, rfl, hpre⟩ := ih hc
      exact ⟨ha, b :: pre, post, rfl, rfl, by simpa [hb'] using hpre⟩

end Sys2Proof.Machine
end

