-- ==== Sys2Proof/Laws/Tree.lean ====
section
/-! SUPPORT. The laws of trees as values and of the walk of the arena: the equations of 10_state.md R19 and of
41_code_table_codec.md R121, read off the arena, and the listing of leaves. -/

namespace Sys2Proof.Machine

open Sys2Proof Host

@[simp] theorem treeAt_none (n : Nat) (arena : List Node) : treeAt n arena none = .ok .empty := by
  cases n <;> rfl

/-! ### Walks -/

@[simp] theorem walk_nil (arena : List Node) (l : Link) : walk arena l [] = l := by
  cases l <;> rfl

@[simp] theorem walk_none (arena : List Node) (p : Path) : walk arena none p = none := by
  cases p <;> rfl

/-- One step of a walk at an allocated entry. -/
theorem walk_cons {arena : List Node} {i : Idx} {nd : Node} (h : arena[i.val]? = some nd) (b : Bool) (p : Path) :
    walk arena (some i) (b :: p) = walk arena (nd.child b) p := by
  simp only [walk, h]

/-- A walk along two paths, one after the other. -/
theorem walk_append (arena : List Node) (l : Link) (p q : Path) : walk arena l (p ++ q) = walk arena (walk arena l p) q := by
  induction p generalizing l with
  | nil => simp
  | cons b p ih =>
    cases l with
    | none => simp
    | some i => cases h : arena[i.val]? <;> simp [walk, h, ih]

/-- One path asks for a node for each of its prefixes (R131). -/
theorem nodePaths_singleton (ds : List Byte) (p : Path) : nodePaths [(ds, p)] = p.inits := by
  have h : ∀ q : Path, q.inits.Nodup := by
    intro q
    induction q with
    | nil => simp
    | cons b q ih => simpa [List.nodup_map_iff (List.cons_injective)] using ih
  simpa [nodePaths] using List.dedup_eq_self.2 (h p)

/-- R19: an entry whose `sym` is a symbol is a leaf, whatever its links. -/
theorem treeAt_leaf {n : Nat} {arena : List Node} {i : Idx} {nd : Node} {c : Byte}
    (h : readNode arena i = .ok nd) (hs : nd.sym = .symbol c) : treeAt (n + 1) arena (some i) = .ok (.leaf c) := by
  simp [treeAt, h, hs, bind, Except.bind]

/-- R19: an entry that holds the sentinel is the node of its two links' trees. -/
theorem treeAt_node {n : Nat} {arena : List Node} {i : Idx} {nd : Node} {l r : CodeTree}
    (h : readNode arena i = .ok nd) (hs : nd.sym = .sentinel)
    (hl : treeAt n arena nd.left = .ok l) (hr : treeAt n arena nd.right = .ok r) :
    treeAt (n + 1) arena (some i) = .ok (.node l r) := by
  simp [treeAt, h, hs, hl, hr, bind, Except.bind]

/-- Everything the walk can answer at an entry. -/
theorem treeAt_some_eq_ok {n : Nat} {arena : List Node} {i : Idx} {t : CodeTree}
    (h : treeAt (n + 1) arena (some i) = .ok t) :
    ∃ nd, readNode arena i = .ok nd ∧
      ((∃ c, nd.sym = .symbol c ∧ t = .leaf c) ∨
       (∃ l r, nd.sym = .sentinel ∧ treeAt n arena nd.left = .ok l ∧ treeAt n arena nd.right = .ok r ∧ t = .node l r)) := by
  simp only [treeAt, bind, Except.bind] at h
  split at h
  · cases h
  · rename_i nd hnd
    refine ⟨nd, hnd, ?_⟩
    split at h
    · rename_i c hc
      cases h
      exact .inl ⟨c, hc, rfl⟩
    · rename_i hc
      cases hl : treeAt n arena nd.left with
      | error e => simp [hl] at h
      | ok l =>
        cases hr : treeAt n arena nd.right with
        | error e => simp [hl, hr] at h
        | ok r =>
          simp [hl, hr] at h
          exact .inr ⟨l, r, hc, rfl, rfl, h.symm⟩

/-- A longer bound changes no answer of the walk. -/
theorem treeAt_mono {n m : Nat} {arena : List Node} {k : Link} {t : CodeTree} (hnm : n ≤ m)
    (h : treeAt n arena k = .ok t) : treeAt m arena k = .ok t := by
  induction n generalizing m k t with
  | zero =>
    cases k with
    | none => simpa using h
    | some i => simp [treeAt] at h
  | succ n ih =>
    cases k with
    | none => simpa using h
    | some i =>
      obtain ⟨m, rfl⟩ : ∃ m', m = m' + 1 := ⟨m - 1, by omega⟩
      obtain ⟨nd, hnd, ⟨c, hc, rfl⟩ | ⟨l, r, hc, hl, hr, rfl⟩⟩ := treeAt_some_eq_ok h
      · exact treeAt_leaf hnd hc
      · exact treeAt_node hnd hc (ih (by omega) hl) (ih (by omega) hr)

/-- The path of the start is a common beginning of every listed path. -/
theorem CodeTree.leaves_append (t : CodeTree) (p : Path) : t.leaves p = t.table.map (fun q => (q.1, p ++ q.2)) := by
  suffices h : ∀ p q : Path, t.leaves (p ++ q) = (t.leaves q).map (fun e => (e.1, p ++ e.2)) by
    simpa [CodeTree.table] using h p []
  induction t with
  | empty => intro p q; rfl
  | leaf c => intro p q; rfl
  | node l r hl hr => intro p q; simp [CodeTree.leaves, List.append_assoc, hl, hr]

/-- The table of a node: its left table under 0, then its right table under 1 (R121). -/
theorem CodeTree.table_node (l r : CodeTree) :
    (CodeTree.node l r).table =
      l.table.map (fun q => (q.1, false :: q.2)) ++ r.table.map (fun q => (q.1, true :: q.2)) := by
  have hl := l.leaves_append [false]
  have hr := r.leaves_append [true]
  simp only [List.singleton_append] at hl hr
  show l.leaves [false] ++ r.leaves [true] = _
  rw [hl, hr]

/-- The table lists the symbols in the order of the tree. -/
theorem CodeTree.table_symbols (t : CodeTree) : t.table.map Prod.fst = t.symbols := by
  induction t with
  | empty => rfl
  | leaf c => rfl
  | node l r hl hr => simp [CodeTree.table_node, CodeTree.symbols, ← hl, ← hr, Function.comp_def]

/-! ### The entries of a tree -/

/-- The child that a bit selects at an entry of the tree which is no leaf is an entry of the tree, one level deeper. -/
theorem inTree_child {n : Nat} {arena : List Node} {l : Link} {k c : Idx} {nd : Node} {b : Bool}
    (h : inTree n arena l k = true) (hk : readNode arena k = .ok nd) (hs : nd.sym = .sentinel) (hc : nd.child b = some c) :
    inTree (n + 1) arena l c = true := by
  induction n generalizing l with
  | zero => cases l <;> simp [inTree] at h
  | succ n ih =>
    cases l with
    | none => simp [inTree] at h
    | some i =>
      rw [inTree, Bool.or_eq_true] at h ⊢
      rcases h with h | h
      · cases of_decide_eq_true h
        refine .inr ?_
        simp only [hk, hs, Bool.or_eq_true]
        cases b
        · exact .inl (by rw [show nd.left = some c from hc]; simp [inTree])
        · exact .inr (by rw [show nd.right = some c from hc]; simp [inTree])
      · refine .inr ?_
        split at h
        · simp at h
        · split at h
          · simp at h
          · simp only [Bool.or_eq_true] at h ⊢
            exact h.imp ih ih

/-- In a full tree an entry that is no leaf has both children. -/
theorem inTree_full {n : Nat} {arena : List Node} {l : Link} {k : Idx} {nd : Node} {t : CodeTree}
    (ht : treeAt n arena l = .ok t) (hf : t.full = true) (h : inTree n arena l k = true)
    (hk : readNode arena k = .ok nd) (hs : nd.sym = .sentinel) (b : Bool) : nd.child b ≠ none := by
  induction n generalizing l t with
  | zero => cases l <;> simp [inTree] at h
  | succ n ih =>
    cases l with
    | none => simp [inTree] at h
    | some i =>
      obtain ⟨ni, hi, ⟨c, hc, -⟩ | ⟨x, y, hn, hx, hy, rfl⟩⟩ := treeAt_some_eq_ok ht
      · simp only [inTree, hi, hc, Bool.or_false, decide_eq_true_eq] at h
        subst h
        simp [hi] at hk
        simp [← hk, hc] at hs
      · simp only [CodeTree.full, Bool.and_eq_true] at hf
        simp only [inTree, hi, hn, Bool.or_eq_true, decide_eq_true_eq] at h
        rcases h with h | h | h
        · subst h
          have : ni = nd := by simpa [hi] using hk
          subst this
          intro hb
          cases b
          · rw [show ni.left = none from hb, treeAt_none] at hx
            cases hx
            simp [CodeTree.full] at hf
          · rw [show ni.right = none from hb, treeAt_none] at hy
            cases hy
            simp [CodeTree.full] at hf
        · exact ih hx hf.1 h
        · exact ih hy hf.2 h

end Sys2Proof.Machine
end

