-- ==== Sys2Proof/Certificates/Slice0/Obligations.lean ====
section
/-! DEFINITION. The statements for the provers, one for each obligation of OBLIGATIONS.json. Each docstring names the rule
of spec/ it formalises. -/

open Sys2Proof Sys2Proof.Machine Host

/-! ### Reset and the invariant -/

/-- R22, R201: the architectural registers after reset. -/
def Obligations.ResetLeavesIdleWithoutTree : Prop :=
  State.reset.mode = .idle ∧ State.reset.err = .none ∧ State.reset.errInfo = 0 ∧ State.reset.root = none ∧
  State.reset.nodeCount = 0 ∧ (∀ c : Byte, State.reset.freqOf c = 0) ∧ State.reset.status = .ok 0

/-- R20, R22: the invariant holds right after reset. Its clause that the queue is empty there is the model's choice (log entry
5): R22 gives the queue no value at reset. -/
def Obligations.InvHoldsAtReset : Prop := State.reset.Inv

/-- R20 and beside it R24, R79, R150, R171: from every state that meets the invariant, one step of the machine with its host answers a
next state, and that state meets the invariant. So the model's own faults arise in no run. That the queue is empty after a
reset is the model's choice (log entry 5). -/
def Obligations.StepKeepsInvariant : Prop :=
  ∀ s : State, s.Inv → ∃ t, step s = .next t ∧ t.Inv

/-! ### Command words, acceptance, the host -/

/-- R70, R71: the opcode map, word by word; encoding and decoding are inverse on commands and on words; a byte above 7 is no
command word (the model's choice, log entry 12). -/
def Obligations.CommandWordsDecodeByTheOpcodeMap : Prop :=
  (decodeOp 0b000#3 = .nop ∧ decodeOp 0b001#3 = .build ∧ decodeOp 0b010#3 = .save ∧ decodeOp 0b011#3 = .load ∧
    decodeOp 0b100#3 = .encode ∧ decodeOp 0b101#3 = .decode ∧ decodeOp 0b110#3 = .reserved6 ∧
    decodeOp 0b111#3 = .reset) ∧
  (∀ i : Instr, decode (encode i) = .ok (i, [])) ∧ (∀ op : BitVec 3, encodeOp (decodeOp op) = op) ∧
  ∀ (b : Byte) (rest : List Byte), 8#8 ≤ b → decode (b :: rest) = .error (.notACommandWord b)

/-- R165: with no command running, the word the host writes next is taken, and the step is that command's effect on the
state without the word. -/
def Obligations.StepRunsTheWrittenCommand : Prop :=
  (∀ (s : State) (op : BitVec 3) (rest : List HostAct), (∀ p, s.mode ≠ .busy p) → s.script = .cmd op :: rest →
    step s = exec (decodeOp op) { s with script := rest }) ∧
  ∀ (s : State) (n w : Nat) (i : Instr), (∀ p, s.mode ≠ .busy p) → decodeTableWord n w = some i →
    step (s.withFetchWord n w) = exec i s

/-- R165, R54: in BUSY no word and no `FREQW` write is accepted, whatever else the host presents. A step takes from the
script at most the first entry that is neither (the rst pin or a stream action, past the waiting writes: log entries 2 and
24) and leaves every other entry in its place; only an rst changes the frequency table. Offering a command changes nothing
(log entry 16). -/
def Obligations.BusyAcceptsNoCommand : Prop :=
  ∀ (s : State) (p : Point), s.mode = .busy p →
    (∀ t : State, step s = .next t →
      ((∀ a ∈ s.script, a.isWrite = true) ∧ t.script = s.script ∧ t.freq = s.freq) ∨
      ∃ pre a post, s.script = pre ++ a :: post ∧ t.script = pre ++ post ∧ a.isWrite = false ∧
        (∀ b ∈ pre, b.isWrite = true) ∧ (a ≠ .rst → t.freq = s.freq)) ∧
    ∀ i : Instr, exec i s = .next s

/-- R54: in IDLE a `FREQW` write replaces one entry and nothing else. -/
def Obligations.FreqWriteReplacesOneEntry : Prop :=
  ∀ (s : State) (i : Byte) (d : Count) (rest : List HostAct), s.Inv → s.mode = .idle → s.script = .freqw i d :: rest →
    ∃ t, step s = .next t ∧ t.freqOf i = d ∧ (∀ c : Byte, c ≠ i → t.freqOf c = s.freqOf c) ∧
      t = { s with script := rest, freq := t.freq }

/-- R54, R170: in FAULT a `FREQW` write waits and is not lost, and a `RESET` behind it on the other port is taken. In BUSY
it waits too. The state after the RESET has the transient registers at the model's values (log entry 5) and the ports as they
were (log entry 21). -/
def Obligations.FreqWriteWaitsOutsideIdle : Prop :=
  (∀ (s : State) (i : Byte) (d : Count), s.mode = .fault → s.script = [.freqw i d] → step s = .next s) ∧
  (∀ (s : State) (i : Byte) (d : Count) (rest : List HostAct), s.mode = .fault →
    s.script = .freqw i d :: .cmd 7#3 :: rest →
    step s = .next { s with script := .freqw i d :: rest }.toReset) ∧
  ∀ (s t : State) (p : Point) (i : Byte) (d : Count), s.mode = .busy p → s.script = [.freqw i d] → step s = .next t →
    t.script = s.script ∧ t.freq = s.freq

/-- R170: in FAULT the port takes every word but 7 and drops it; `FREQW` is not ready. -/
def Obligations.FaultModeDropsEveryWordButReset : Prop :=
  ∀ (s : State) (op : BitVec 3) (rest : List HostAct), s.mode = .fault → s.script = .cmd op :: rest → op ≠ 7#3 →
    s.cmdReady = true ∧ s.freqReady = false ∧ step s = .next { s with script := rest } ∧
    ∀ i : Instr, i ≠ .reset → exec i s = .next s

/-- R188: what a step can do in FAULT: everything frozen, or a reset by the word 7 or the pin. The state after a reset has
the transient registers at the model's values (log entry 5) and the ports as they were (log entry 21). -/
def Obligations.FaultIsStickyUntilReset : Prop :=
  ∀ s t : State, s.mode = .fault → step s = .next t →
    (t.mode = .fault ∧ t.err = s.err ∧ t.errInfo = s.errInfo ∧ t.root = s.root ∧ t.arena = s.arena ∧ t.freq = s.freq) ∨
    (t = { s with script := t.script }.toReset ∧
      ∃ pre a post, s.script = pre ++ a :: post ∧ t.script = pre ++ post ∧ (a = .rst ∨ a = .cmd 7#3))

/-- R55: a command that waits, from its acceptance or after a step that resumed it, changes nothing while no action of the
host is taken. -/
def Obligations.WaitChangesNoState : Prop :=
  (∀ (i : Instr) (s t : State) (p : Point), s.mode = .idle → exec i s = .next t → t.mode = .busy p → t.quiet →
    step t = .next t) ∧
  ∀ (s t : State) (p q : Point), s.mode = .busy p → s.quiet → step s = .next t → t.mode = .busy q → step t = .next t

/-- R55, R56: how much of its input is presented at once makes no difference to LOAD. R209: with neither a byte nor
end-of-stream presented after whole pairs, none among them, LOAD waits at a pair boundary. -/
def Obligations.LoadOfASplitStream : Prop :=
  (∀ (s t : State) (a b : List Byte) (e : Bool) (p : Point), s.mode = .idle → s.script = [] →
    exec .load { s with tblSrc := ⟨a, false⟩ } = .next t → t.mode = .busy p →
    t.tblSrc = ⟨[], false⟩ ∧ step { t with tblSrc := ⟨b, e⟩ } = exec .load { s with tblSrc := ⟨a ++ b, e⟩ }) ∧
  ∀ (s : State) (lines : List (List Byte × Path)), s.Inv → s.mode = .idle → s.root = none →
    (∀ q ∈ lines, isNumeral q.1) → (nodePaths lines).length ≤ 511 → s.tblSrc = ⟨lines.flatMap lineText, false⟩ →
    ∃ t, exec .load s = .next t ∧
      t = { s with mode := .busy .loadPair, root := t.root, arena := t.arena, cur := t.cur, val := t.val, ndig := t.ndig,
                   tblSrc := ⟨[], false⟩ }

/-- R55, R56: ENCODE gives the same result however its symbols are presented and however its bits are taken. First, after
any wait, more symbols and more room give what ENCODE of all of them with all the room gives at once; with a sink that is
always ready a wait has consumed everything. Second, a sink with too little room takes exactly that many bits, and
ENCODE waits with the rest. Third, with neither a symbol nor end-of-stream presented any more, ENCODE waits (R209); with
none presented from the start, on any tree. -/
def Obligations.EncodeOfASplitStream : Prop :=
  (∀ (s t : State) (a b : List Byte) (e₀ e : Bool) (more : Option Nat) (p : Point), s.mode = .idle → s.script = [] →
    exec .encode { s with symSrc := ⟨a, e₀⟩ } = .next t → t.mode = .busy p →
    (s.bitSink.room = none → t.symSrc = ⟨[], false⟩) ∧
    step { t with symSrc := ⟨t.symSrc.units ++ b, e⟩, bitSink := { t.bitSink with room := addRoom t.bitSink.room more } } =
      exec .encode { s with symSrc := ⟨a ++ b, e⟩, bitSink := { s.bitSink with room := addRoom s.bitSink.room more } }) ∧
  (∀ (s : State) (l r : CodeTree) (cs : List Byte) (e : Bool) (n : Nat), s.mode = .idle → s.tree = .ok (.node l r) →
    (∀ c ∈ cs, c ∈ (CodeTree.node l r).symbols) → s.symSrc = ⟨cs, e⟩ → s.bitSink.room = some n →
    n < ((CodeTree.node l r).codes cs).length →
    ∃ rest left, exec .encode s = .next { s with
        mode := .busy (.encode rest), symSrc := ⟨left, e⟩
        bitSink := ⟨s.bitSink.written ++ ((CodeTree.node l r).codes cs).take n, some 0⟩ } ∧
      rest ≠ [] ∧ (∃ used, cs = used ++ left) ∧
      ((CodeTree.node l r).codes cs).drop n = rest ++ (CodeTree.node l r).codes left) ∧
  (∀ (s : State) (l r : CodeTree) (cs : List Byte), s.mode = .idle → s.tree = .ok (.node l r) →
    (∀ c ∈ cs, c ∈ (CodeTree.node l r).symbols) → s.symSrc = ⟨cs, false⟩ →
    s.bitSink.hasRoom ((CodeTree.node l r).codes cs).length →
    exec .encode s = .next { s with
      mode := .busy (.encode []), symSrc := ⟨[], false⟩, bitSink := s.bitSink.took ((CodeTree.node l r).codes cs) }) ∧
  ∀ s : State, s.mode = .idle → s.symSrc = ⟨[], false⟩ → exec .encode s = .next { s with mode := .busy (.encode []) }

/-- R55, R56: DECODE gives the same result however its bits are presented and however its symbols are taken. First, after
any wait, more bits and more room give what DECODE of all of them with all the room gives at once; with a sink that is always
ready a wait has consumed everything. Second, a sink with too little room takes exactly that many symbols, and DECODE waits
at the leaf of the next one. Third, with neither a bit nor end-of-stream presented after whole codes and a walk to an inner
node, DECODE waits there (R209); with none presented from the start it waits without a tree and at a single leaf too. -/
def Obligations.DecodeOfASplitStream : Prop :=
  (∀ (s t : State) (a b : List Bool) (e₀ e : Bool) (more : Option Nat) (p : Point), s.mode = .idle → s.script = [] →
    exec .decode { s with bitSrc := ⟨a, e₀⟩ } = .next t → t.mode = .busy p →
    (s.symSink.room = none → t.bitSrc = ⟨[], false⟩) ∧
    step { t with bitSrc := ⟨t.bitSrc.units ++ b, e⟩, symSink := { t.symSink with room := addRoom t.symSink.room more } } =
      exec .decode { s with bitSrc := ⟨a ++ b, e⟩, symSink := { s.symSink with room := addRoom s.symSink.room more } }) ∧
  (∀ (s : State) (l r : CodeTree) (pre post : List Byte) (c : Byte) (e : Bool), s.mode = .idle →
    s.tree = .ok (.node l r) → (∀ d ∈ pre ++ c :: post, d ∈ (CodeTree.node l r).symbols) →
    s.bitSrc = ⟨(CodeTree.node l r).codes (pre ++ c :: post), e⟩ → s.symSink.room = some pre.length →
    ∃ cur nd, exec .decode s = .next { s with
        mode := .busy .decode, cur := cur, bitSrc := ⟨(CodeTree.node l r).codes post, e⟩
        symSink := ⟨s.symSink.written ++ pre, some 0⟩ } ∧
      s.arena[cur.val]? = some nd ∧ nd.sym = .symbol c) ∧
  (∀ (s : State) (l r l' r' : CodeTree) (cs : List Byte) (q : Path), s.mode = .idle → s.tree = .ok (.node l r) →
    (∀ c ∈ cs, c ∈ (CodeTree.node l r).symbols) → (CodeTree.node l r).descend q = some (.node l' r') →
    s.bitSrc = ⟨(CodeTree.node l r).codes cs ++ q, false⟩ → s.symSink.hasRoom cs.length →
    ∃ cur, walk s.arena s.root q = some cur ∧
      exec .decode s = .next { s with
        mode := .busy .decode, cur := cur, bitSrc := ⟨[], false⟩, symSink := s.symSink.took cs }) ∧
  ∀ (s : State) (d : Byte), s.mode = .idle → s.bitSrc = ⟨[], false⟩ → s.root = none ∨ s.tree = .ok (.leaf d) →
    exec .decode s = .next { s with mode := .busy .decodeProbe }

/-! ### System commands, reset, status -/

/-- R167: NOP changes nothing and ends in IDLE; in FAULT it is dropped. -/
def Obligations.NopChangesNothing : Prop :=
  (∀ s : State, s.mode = .idle → exec .nop s = .next s) ∧ ∀ s : State, s.mode = .fault → exec .nop s = .next s

/-- R168: RESET in IDLE and in FAULT. That every port and the script stay as they were is the model's inference from R60
(no port in its row) and R200 (log entry 21). -/
def Obligations.ResetClearsEveryRegister : Prop :=
  ∀ s : State, s.mode = .idle ∨ s.mode = .fault →
    ∃ t, exec .reset s = .next t ∧ t.root = none ∧ t.nodeCount = 0 ∧ (∀ c : Byte, t.freqOf c = 0) ∧ t.err = .none ∧
      t.errInfo = 0 ∧ t.mode = .idle ∧ t.treePresent = false ∧ t.treeSingle = .ok false ∧
      t.bitSrc = s.bitSrc ∧ t.symSrc = s.symSrc ∧ t.tblSrc = s.tblSrc ∧
      t.bitSink = s.bitSink ∧ t.symSink = s.symSink ∧ t.tblSink = s.tblSink ∧ t.script = s.script

/-- R200: the rst pin, in any mode, behind any writes of the host that wait: every register at its reset value (the
transient ones at the model's, log entry 5), a running command abandoned, every unit transferred so far still transferred
and the ports as they were (log entry 21). That it passes waiting writes is log entry 2; that a waiting command takes no
further unit first is the model's choice (log entry 24). -/
def Obligations.RstPinResetsAtAnyTime : Prop :=
  ∀ (s : State) (pre post : List HostAct), s.script = pre ++ .rst :: post → (∀ a ∈ pre, s.takes a = false) →
    step s = .next { State.reset with
      bitSrc := s.bitSrc, symSrc := s.symSrc, tblSrc := s.tblSrc
      bitSink := s.bitSink, symSink := s.symSink, tblSink := s.tblSink
      script := pre ++ post }

/-- R169: the reserved word. -/
def Obligations.ReservedWordFaults : Prop :=
  (∀ s : State, s.mode = .idle →
    exec .reserved6 s = .next { s with err := .illegalCmd, errInfo := 6, mode := .fault }) ∧
  ∀ s : State, s.mode = .fault → exec .reserved6 s = .next s

/-- R81, R13: the fields of STATUS, and the values they never take; the numbers of R12 and R181. R23: STATUS can be read unless the root is an entry that
is not allocated; then reading it is a fault of the model. -/
def Obligations.StatusWordFields : Prop :=
  (∀ (s : State) (w : BitVec 17), s.status = .ok w →
    w.extractLsb' 0 2 = s.mode.bits ∧ w.extractLsb' 2 4 = s.err.bits ∧
    w.extractLsb' 6 9 = s.errInfo ∧ w.getLsbD 15 = s.root.isSome ∧
    (s.mode = .idle → s.mode.bits = 0) ∧ (∀ p, s.mode = .busy p → s.mode.bits = 1) ∧ (s.mode = .fault → s.mode.bits = 2) ∧
    s.mode.bits ≠ 3 ∧ s.err.bits ≤ 9 ∧
    (s.err = .none → s.err.bits = 0) ∧ (s.err = .illegalCmd → s.err.bits = 1) ∧ (s.err = .treePresent → s.err.bits = 2) ∧
    (s.err = .noTree → s.err.bits = 3) ∧ (s.err = .degenerateTree → s.err.bits = 4) ∧
    (s.err = .unknownSymbol → s.err.bits = 5) ∧ (s.err = .truncatedStream → s.err.bits = 6) ∧
    (s.err = .badPath → s.err.bits = 7) ∧ (s.err = .tableSyntax → s.err.bits = 8) ∧
    (s.err = .arenaFull → s.err.bits = 9) ∧
    (w.getLsbD 16 = true ↔ ∃ r nd, s.root = some r ∧ s.arena[r.val]? = some nd ∧ nd.isLeaf = true)) ∧
  (∀ s : State, (∀ r, s.root = some r → r.val < s.nodeCount) → ∃ w, s.status = .ok w) ∧
  ∀ (s : State) (r : Idx), s.root = some r → s.nodeCount ≤ r.val → s.status = .error .unallocatedNode

/-- R182: the fault codes each command can raise, on its acceptance or after a wait; with a full tree DECODE raises no
E_BAD_PATH, on its acceptance or after a wait; LOAD of the table of a well-formed tree raises no fault, E_ARENA_FULL among them. -/
def Obligations.FaultCodesByCommand : Prop :=
  (∀ (i : Instr) (s t : State), s.mode = .idle → exec i s = .next t → t.mode = .fault → t.err ∈ faultsOf i) ∧
  (∀ (s t : State) (p : Point), s.mode = .busy p → s.quiet → step s = .next t → t.mode = .fault →
    t.err ∈ faultsOf p.command) ∧
  (∀ (s t : State) (tr : CodeTree), s.mode = .idle → s.tree = .ok tr → tr.full = true → exec .decode s = .next t →
    t.mode = .fault → t.err ≠ .badPath) ∧
  (∀ (s t : State) (p : Point) (tr : CodeTree), s.Inv → s.mode = .busy p → p.command = .decode → s.quiet →
    s.tree = .ok tr → tr.full = true → step s = .next t → t.mode = .fault → t.err ≠ .badPath) ∧
  ∀ (s t : State) (tr : CodeTree) (pairs : List (Byte × Path)), s.Inv → s.mode = .idle → s.root = none → tr.wf →
    pairs.Perm tr.table → s.tblSrc = ⟨tableText pairs, true⟩ → exec .load s = .next t → t.mode ≠ .fault

/-- R166: one tree per codec instance: BUILD and LOAD test `root` first, a tree is never changed by the other commands, and
without a tree (an earlier BUILD or LOAD that made none included) E_TREE_PRESENT is not raised. -/
def Obligations.OneTreePerInstance : Prop :=
  (∀ (s : State) (r : Idx), s.mode = .idle → s.root = some r →
    exec .build s = .next { s with err := .treePresent, errInfo := 0, mode := .fault } ∧
    exec .load s = .next { s with err := .treePresent, errInfo := 0, mode := .fault }) ∧
  (∀ (i : Instr) (s t : State), i = .save ∨ i = .encode ∨ i = .decode → exec i s = .next t →
    t.root = s.root ∧ t.arena = s.arena) ∧
  ∀ (i : Instr) (s t : State), i = .build ∨ i = .load → s.root = none → s.err = .none → exec i s = .next t →
    t.err ≠ .treePresent

/-- R20 item 4: outside a running LOAD, a step leaves an existing tree as it is, or the action it took was the rst pin or
the word 7 and the next state is the reset state, with the transient registers at the model's values (log entry 5) and the
ports as they were (log entry 21). -/
def Obligations.TreeIsImmutableUntilReset : Prop :=
  ∀ (s t : State) (r : Idx), s.root = some r → s.loading = false → step s = .next t →
    (t.root = s.root ∧ t.arena = s.arena) ∨
    (t = { s with script := t.script }.toReset ∧
      ∃ pre a post, s.script = pre ++ a :: post ∧ t.script = pre ++ post ∧ (a = .rst ∨ a = .cmd 7#3))

/-- R10, R22: a command never reads what stood in the transient registers when it was accepted: two runs that differ in
those alone stop alike, or end alike in every other field, the position inside a waiting command among them. -/
def Obligations.TransientRegistersAreNeverRead : Prop :=
  ∀ (i : Instr) (s : State) (pq : List PqEntry) (sn : BitVec 9) (cur : Idx) (val : BitVec 10) (nd : BitVec 2),
    s.mode = .idle →
    (∃ f, exec i s = .fault f ∧ exec i { s with pq := pq, seqNext := sn, cur := cur, val := val, ndig := nd } = .fault f) ∨
    ∃ t u, exec i s = .next t ∧ exec i { s with pq := pq, seqNext := sn, cur := cur, val := val, ndig := nd } = .next u ∧
      u = { t with pq := u.pq, seqNext := u.seqNext, cur := u.cur, val := u.val, ndig := u.ndig }

/-! ### Layouts -/

/-- R74: the 67-bit node record. -/
def Obligations.NodeRecordLayout : Prop :=
  ∀ nd : Node,
    nd.pack.extractLsb' 27 40 = nd.weight ∧ nd.pack.extractLsb' 18 9 = linkBits nd.right ∧
    nd.pack.extractLsb' 9 9 = linkBits nd.left ∧ nd.pack.extractLsb' 0 9 = nd.sym.bits ∧
    (linkBits none).toNat = 511 ∧ (∀ i : Idx, (linkBits (some i)).toNat = i.val) ∧
    (NodeSym.sentinel.bits).toNat = 256 ∧ ∀ c : Byte, (NodeSym.symbol c).bits.toNat = c.toNat

/-- R75: the 58-bit queue entry, and its order as a number. -/
def Obligations.PackedQueueEntryOrder : Prop :=
  (∀ e : PqEntry, e.pack.extractLsb' 18 40 = e.weight ∧ e.pack.extractLsb' 9 9 = e.seq ∧
    (e.pack.extractLsb' 0 9).toNat = e.idx.val) ∧
  ∀ e f : PqEntry, e.seq ≠ f.seq → (e.before f = true ↔ e.pack < f.pack)

/-- R78: `Dec` is a decimal numeral of the symbol, shortest, most significant digit first. -/
def Obligations.DecIsTheShortestNumeral : Prop :=
  ∀ c : Byte, decValue (dec c) = c.toNat ∧ (∀ d ∈ dec c, isDigit d = true) ∧
    (dec c).length = (if c.toNat < 10 then 1 else if c.toNat < 100 then 2 else 3)

/-! ### Micro-operations -/

/-- R101: ALLOC. -/
def Obligations.AllocHandsOutIndicesInOrder : Prop :=
  ∀ (s : State) (sym : NodeSym) (l r : Link) (w : Weight),
    (s.nodeCount < 511 → ∃ i t, s.alloc sym l r w = some (i, t) ∧ i.val = s.nodeCount ∧
      t.nodeCount = s.nodeCount + 1 ∧ t.arena[i.val]? = some ⟨sym, l, r, w⟩ ∧
      (∀ j < s.nodeCount, t.arena[j]? = s.arena[j]?) ∧ t = { s with arena := t.arena }) ∧
    (s.nodeCount = 511 → s.alloc sym l r w = none)

/-- R102: PQ_INSERT, and that the new entry stands behind every entry of its weight. -/
def Obligations.PqInsertQueuesBehindEqualWeights : Prop :=
  ∀ (s : State) (i : Idx) (nd : Node), s.arena[i.val]? = some nd →
    s.pqInsert i = .ok { s with pq := s.pq ++ [⟨nd.weight, s.seqNext, i⟩], seqNext := s.seqNext + 1 } ∧
    ((∀ e ∈ s.pq, e.seq < s.seqNext) → ∀ e ∈ s.pq, e.weight ≤ nd.weight →
      e.before ⟨nd.weight, s.seqNext, i⟩ = true)

/-- R103: PQ_EXTRACT_MIN takes the one entry that stands before every other, and removes it. -/
def Obligations.PqExtractMinTakesTheFirst : Prop :=
  ∀ s : State, s.pq ≠ [] → (s.pq.map PqEntry.seq).Nodup →
    ∃ e ∈ s.pq, s.pqExtractMin = .ok (e.idx, { s with pq := s.pq.erase e }) ∧
      (∀ f ∈ s.pq, f ≠ e → e.before f = true ∧ f.before e = false) ∧ (s.pq.erase e).length + 1 = s.pqLen

/-- R104: MERGE joins the two first entries, first removed left. -/
def Obligations.MergeJoinsTheTwoFirst : Prop :=
  ∀ s : State, 2 ≤ s.pqLen → s.nodeCount < 511 → (s.pq.map PqEntry.seq).Nodup → (s.pq.map PqEntry.idx).Nodup →
    (∀ e ∈ s.pq, ∃ nd, s.arena[e.idx.val]? = some nd ∧ nd.weight = e.weight) →
    ∃ e f t, e ∈ s.pq ∧ f ∈ s.pq.erase e ∧ (∀ g ∈ s.pq, g ≠ e → e.before g = true) ∧
      (∀ g ∈ s.pq.erase e, g ≠ f → f.before g = true) ∧ e.idx ≠ f.idx ∧ e.weight ≤ f.weight ∧
      s.merge = .ok t ∧
      t.arena = s.arena ++ [⟨.sentinel, some e.idx, some f.idx, e.weight + f.weight⟩] ∧
      (∃ n : Idx, n.val = s.nodeCount ∧ t.pq = (s.pq.erase e).erase f ++ [⟨e.weight + f.weight, s.seqNext, n⟩]) ∧
      t = { s with arena := t.arena, pq := t.pq, seqNext := s.seqNext + 1 }

/-! ### BUILD -/

/-- R109: BUILD on an all-zero table. -/
def Obligations.BuildOfZeroTableMakesNoTree : Prop :=
  ∀ s : State, s.Inv → s.mode = .idle → s.root = none → (∀ c : Byte, s.freqOf c = 0) →
    ∃ t, exec .build s = .next t ∧ t = { s with pq := [], seqNext := 0 } ∧ t.nodeCount = 0 ∧ t.err = .none ∧
      t.treePresent = false

/-- R108: BUILD with one symbol present. -/
def Obligations.BuildOfOneSymbolMakesABareLeaf : Prop :=
  ∀ (s : State) (c : Byte), s.Inv → s.mode = .idle → s.root = none → s.freqOf c ≠ 0 →
    (∀ d : Byte, d ≠ c → s.freqOf d = 0) →
    ∃ t, exec .build s = .next t ∧ t = { s with arena := [s.leafFor c], root := some 0, pq := [], seqNext := 1 } ∧
      t.treeSingle = .ok true

/-- R105, R106, R107, R110, R112: BUILD with at least one symbol present: layout, shape, root weight, frame; and that the
entries after the leaves are made in queue order, each joining the two queued nodes that are first, the first removed
left (R103, R104). -/
def Obligations.BuildMakesAFullTreeOfThePresentSymbols : Prop :=
  ∀ s : State, s.Inv → s.mode = .idle → s.root = none → s.present ≠ [] →
    ∃ t tr r nd, exec .build s = .next t ∧
      t.nodeCount = 2 * s.present.length - 1 ∧ t.root = some r ∧ r.val = 2 * s.present.length - 2 ∧
      t.arena.take s.present.length = s.present.map s.leafFor ∧
      (∀ (j : Nat) (n : Node), s.present.length ≤ j → t.arena[j]? = some n →
        ∃ a b na nb, n = ⟨.sentinel, some a, some b, na.weight + nb.weight⟩ ∧
          t.arena[a.val]? = some na ∧ t.arena[b.val]? = some nb ∧
          a.val ∈ queuedAt t.arena j ∧ b.val ∈ queuedAt t.arena j ∧ entryBefore t.arena a.val b.val ∧
          ∀ i ∈ queuedAt t.arena j, i ≠ a.val → i ≠ b.val → entryBefore t.arena b.val i) ∧
      t.tree = .ok tr ∧ tr.wf ∧ (∀ c : Byte, c ∈ tr.symbols ↔ s.freqOf c ≠ 0) ∧
      bareLeaves t.nodeCount t.arena t.root = true ∧
      t.arena[r.val]? = some nd ∧ nd.weight.toNat = s.total ∧
      t.seqNext.toNat = 2 * s.present.length - 1 ∧
      t = { s with arena := t.arena, root := t.root, pq := [], seqNext := t.seqNext }

/-- R24, R104, R111: weights in BUILD are exact sums and no addition wraps. -/
def Obligations.BuildWeightsAreExactSums : Prop :=
  ∀ s t : State, s.Inv → s.mode = .idle → s.root = none → exec .build s = .next t →
    ∀ nd ∈ t.arena, nd.weight.toNat ≤ 2 ^ 40 - 256 ∧
      (∀ c, nd.sym = .symbol c → nd.weight.toNat = (s.freqOf c).toNat) ∧
      (nd.sym = .sentinel → ∃ l r nl nr, nd.left = some l ∧ nd.right = some r ∧ t.arena[l.val]? = some nl ∧
        t.arena[r.val]? = some nr ∧ nd.weight.toNat = nl.weight.toNat + nr.weight.toNat ∧
        nl.weight.toNat ≤ nr.weight.toNat)

/-- R112, determinism: the tree BUILD makes is a function of the frequency table alone. -/
def Obligations.BuildIsAFunctionOfTheTable : Prop :=
  ∀ s s' : State, s.Inv → s'.Inv → s.mode = .idle → s'.mode = .idle → s.root = none → s'.root = none →
    (∀ c : Byte, s.freqOf c = s'.freqOf c) →
    ∃ t t', exec .build s = .next t ∧ exec .build s' = .next t' ∧ t.arena = t'.arena ∧ t.root = t'.root

/-- R112, optimality: no full tree over the same symbols has a smaller sum of weight times depth. -/
def Obligations.BuildIsOptimal : Prop :=
  ∀ (s t : State) (tr other : CodeTree), s.Inv → s.mode = .idle → s.root = none → exec .build s = .next t →
    t.tree = .ok tr → other.full = true → other.symbols.Perm tr.symbols →
    tr.cost (fun c => (s.freqOf c).toNat) 0 ≤ other.cost (fun c => (s.freqOf c).toNat) 0

/-! ### SAVE and LOAD -/

/-- R122: SAVE writes the table of the tree (nothing without a tree) and changes no state. -/
def Obligations.SaveWritesTheTable : Prop :=
  ∀ s : State, s.Inv → s.mode = .idle → s.tblSink.room = none →
    ∃ tr, s.tree = .ok tr ∧
      exec .save s = .next { s with tblSink := { s.tblSink with written := s.tblSink.written ++ tableText tr.table } }

/-- R55: SAVE to a sink that takes only `n` bytes writes those and waits with the rest. From a wait, a sink that is ready for
all the rest takes it and SAVE ends; one that is ready for `n` bytes fewer takes those, and SAVE waits with what is left.
And more room after a wait gives what SAVE with all the room gives at once. -/
def Obligations.SaveWaitsForItsSink : Prop :=
  (∀ (s : State) (tr : CodeTree) (n : Nat), s.mode = .idle → s.tree = .ok tr → s.tblSink.room = some n →
    ((tableText tr.table).length ≤ n → exec .save s = .next { s with tblSink := s.tblSink.took (tableText tr.table) }) ∧
    (n < (tableText tr.table).length → exec .save s = .next { s with
      mode := .busy (.save ((tableText tr.table).drop n))
      tblSink := ⟨s.tblSink.written ++ (tableText tr.table).take n, some 0⟩ })) ∧
  (∀ (s : State) (rest : List Byte), s.mode = .busy (.save rest) → s.quiet →
    (s.tblSink.hasRoom rest.length → step s = .next { s with mode := .idle, tblSink := s.tblSink.took rest }) ∧
    ∀ n, s.tblSink.room = some n → n < rest.length →
      step s = .next { s with
        mode := .busy (.save (rest.drop n)), tblSink := ⟨s.tblSink.written ++ rest.take n, some 0⟩ }) ∧
  ∀ (s t : State) (more : Option Nat) (p : Point), s.mode = .idle → s.script = [] → exec .save s = .next t →
    t.mode = .busy p →
    step { t with tblSink := { t.tblSink with room := addRoom t.tblSink.room more } } =
      exec .save { s with tblSink := { s.tblSink with room := addRoom s.tblSink.room more } }

/-- R127: LOAD of an empty text. -/
def Obligations.LoadOfEmptyTextMakesNoTree : Prop :=
  ∀ s : State, s.mode = .idle → s.root = none → s.tblSrc = ⟨[], true⟩ → exec .load s = .next s

/-- R129, R131, R132: LOAD of the text of a well-formed tree's table, the pairs in any order. -/
def Obligations.LoadRebuildsTheTree : Prop :=
  ∀ (s : State) (tr : CodeTree) (pairs : List (Byte × Path)), s.Inv → s.mode = .idle → s.root = none → tr.wf →
    pairs.Perm tr.table → s.tblSrc = ⟨tableText pairs, true⟩ →
    ∃ t, exec .load s = .next t ∧ t.tree = .ok tr ∧ bareLeaves t.nodeCount t.arena t.root = true ∧
      t.nodeCount = tr.size ∧ (∀ nd ∈ t.arena, nd.weight = 0) ∧
      t = { s with root := t.root, arena := t.arena, cur := t.cur, val := t.val, ndig := t.ndig, tblSrc := ⟨[], true⟩ }

/-- R129: what one instance saves, a fresh one loads as the same tree, and saves again as the same text. -/
def Obligations.SaveThenLoadKeepsTheTree : Prop :=
  ∀ (s r : State) (tr : CodeTree), s.Inv → s.mode = .idle → s.tblSink = ⟨[], none⟩ → s.tree = .ok tr →
    tr.wf ∨ tr = .empty → r.Inv → r.mode = .idle → r.root = none → r.tblSink = ⟨[], none⟩ →
    ∃ s1 r1 r2, exec .save s = .next s1 ∧ exec .load { r with tblSrc := ⟨s1.tblSink.written, true⟩ } = .next r1 ∧
      r1.tree = .ok tr ∧ r1.mode = .idle ∧ r1.err = .none ∧
      exec .save r1 = .next r2 ∧ r2.tblSink.written = s1.tblSink.written

/-- R21, R129: the tree as a value decides everything SAVE, ENCODE and DECODE show. -/
def Obligations.TreeDecidesWhatIsObserved : Prop :=
  ∀ (i : Instr) (s s' : State), i = .save ∨ i = .encode ∨ i = .decode → s.Inv → s'.Inv → s.mode = .idle →
    s'.mode = .idle → s.tree = s'.tree → s.bitSrc = s'.bitSrc → s.symSrc = s'.symSrc → s.tblSrc = s'.tblSrc →
    s.bitSink = s'.bitSink → s.symSink = s'.symSink → s.tblSink = s'.tblSink →
    ∃ t t', exec i s = .next t ∧ exec i s' = .next t' ∧ t.status = t'.status ∧ t.mode = t'.mode ∧
      t.bitSrc = t'.bitSrc ∧ t.symSrc = t'.symSrc ∧ t.tblSrc = t'.tblSrc ∧
      t.bitSink = t'.bitSink ∧ t.symSink = t'.symSink ∧ t.tblSink = t'.tblSink

/-- R126, R128, R131: LOAD of any text of the grammar, well-formed or not, leading zeros among its numerals. If its paths
have at most 511 distinct prefixes LOAD ends normally with one node for each of them, reached by that path, holding the
symbol of the last pair with that path or else the sentinel. If they have more, the first path character that needs a 512th
node raises E_ARENA_FULL. -/
def Obligations.LoadAcceptsMalformedTables : Prop :=
  (∀ (s : State) (lines : List (List Byte × Path)), s.Inv → s.mode = .idle → s.root = none →
    (∀ q ∈ lines, isNumeral q.1) → (nodePaths lines).length ≤ 511 → s.tblSrc = ⟨lines.flatMap lineText, true⟩ →
    ∃ t, exec .load s = .next t ∧ t.nodeCount = (nodePaths lines).length ∧
      (∀ p : Path, (walk t.arena t.root p).isSome = true ↔ p ∈ nodePaths lines) ∧
      (∀ (p : Path) (i : Idx), walk t.arena t.root p = some i →
        ∃ nd, t.arena[i.val]? = some nd ∧ nd.sym = placedAt lines p ∧ nd.weight = 0) ∧
      t = { s with root := t.root, arena := t.arena, cur := t.cur, val := t.val, ndig := t.ndig, tblSrc := ⟨[], true⟩ }) ∧
  ∀ (s : State) (lines : List (List Byte × Path)) (ds : List Byte) (p : Path) (b : Bool) (rest : List Byte) (e : Bool),
    s.Inv → s.mode = .idle → s.root = none → (∀ q ∈ lines, isNumeral q.1) → isNumeral ds →
    (nodePaths (lines ++ [(ds, p)])).length = 511 → p ++ [b] ∉ nodePaths (lines ++ [(ds, p)]) →
    s.tblSrc = ⟨lines.flatMap lineText ++ ds ++ [LF] ++ p.map pathChar ++ pathChar b :: rest, e⟩ →
    ∃ t, exec .load s = .next t ∧ t.nodeCount = 511 ∧
      t = { s with mode := .fault, err := .arenaFull, errInfo := (pathChar b).setWidth 9, root := t.root, arena := t.arena,
                   cur := t.cur, val := t.val, ndig := t.ndig, tblSrc := ⟨rest, e⟩ }

/-- R79, R125, R126: a symbol line of one to three digits with a value up to 255 leaves its value, and LOAD stands at the
root, which it creates if there is none. -/
def Obligations.SymbolLineIsRead : Prop :=
  ∀ (s : State) (ds : List Byte), s.Inv → s.mode = .busy .loadPair → s.script = [] → (∀ d ∈ ds, isDigit d = true) →
    1 ≤ ds.length → ds.length ≤ 3 → decValue ds ≤ 255 → s.tblSrc = ⟨ds ++ [LF], false⟩ →
    ∃ t, step s = .next t ∧ t.val.toNat = decValue ds ∧ t.root = some t.cur ∧
      (∀ r, s.root = some r → t.root = some r ∧ t.arena = s.arena) ∧
      (s.root = none → t.cur = 0 ∧ t.arena = [⟨.sentinel, none, none, 0⟩]) ∧
      t = { s with mode := .busy .loadPath, root := t.root, arena := t.arena, cur := t.cur, val := t.val, ndig := t.ndig,
                   tblSrc := ⟨[], false⟩ }

/-- R79, R125, R185: the faults of a symbol line, after up to three digits: a byte that is no digit, a fourth digit, a line
feed after no digit or after a value above 255, and the end of the input inside the line. -/
def Obligations.SymbolLineFaults : Prop :=
  ∀ (s : State) (ds : List Byte), s.mode = .busy .loadPair → s.script = [] → (∀ d ∈ ds, isDigit d = true) →
    ds.length ≤ 3 →
    (∀ (c : Byte) (rest : List Byte) (e : Bool), s.tblSrc = ⟨ds ++ c :: rest, e⟩ →
      (c ≠ LF ∧ isDigit c = false) ∨ (isDigit c = true ∧ ds.length = 3) ∨ (c = LF ∧ (ds = [] ∨ 255 < decValue ds)) →
      ∃ t, step s = .next t ∧
        t = { s with mode := .fault, err := .tableSyntax, errInfo := c.setWidth 9, val := t.val, ndig := t.ndig,
                     tblSrc := ⟨rest, e⟩ }) ∧
    (ds ≠ [] → s.tblSrc = ⟨ds, true⟩ →
      ∃ t, step s = .next t ∧
        t = { s with mode := .fault, err := .tableSyntax, errInfo := 0x100, val := t.val, ndig := t.ndig,
                     tblSrc := ⟨[], true⟩ })

/-- R80, R126, R131: the bytes of a path line. A path character steps to the child it selects, whatever `sym` the node
holds, or makes it a bare sentinel of weight 0; the line feed writes `sym` alone and LOAD is at a pair boundary again. The
faults: a byte that is no path character and no line feed, the end of the input, and a character that needs a 512th node. -/
def Obligations.PathLineFaults : Prop :=
  ∀ s : State, s.mode = .busy .loadPath → s.script = [] →
    (∀ (b : Bool) (nd : Node) (n : Idx), s.tblSrc = ⟨[pathChar b], false⟩ → s.arena[s.cur.val]? = some nd →
      nd.child b = some n → step s = .next { s with cur := n, tblSrc := ⟨[], false⟩ }) ∧
    (∀ (b : Bool) (nd : Node), s.tblSrc = ⟨[pathChar b], false⟩ → s.arena[s.cur.val]? = some nd → nd.child b = none →
      s.nodeCount < 511 →
      ∃ n : Idx, n.val = s.nodeCount ∧ step s = .next { s with
        cur := n, arena := s.arena.set s.cur.val (nd.setChild b (some n)) ++ [⟨.sentinel, none, none, 0⟩]
        tblSrc := ⟨[], false⟩ }) ∧
    (∀ (nd : Node) (c : Byte), s.tblSrc = ⟨[LF], false⟩ → s.arena[s.cur.val]? = some nd → s.val.toNat = c.toNat →
      step s = .next { s with
        mode := .busy .loadPair, arena := s.arena.set s.cur.val { nd with sym := .symbol c }, tblSrc := ⟨[], false⟩ }) ∧
    (∀ (c : Byte) (rest : List Byte) (e : Bool), s.tblSrc = ⟨c :: rest, e⟩ → c ≠ LF → c ≠ digit0 → c ≠ digit1 →
      step s = .next { s with mode := .fault, err := .tableSyntax, errInfo := c.setWidth 9, tblSrc := ⟨rest, e⟩ }) ∧
    (s.tblSrc = ⟨[], true⟩ →
      step s = .next { s with mode := .fault, err := .tableSyntax, errInfo := 0x100 }) ∧
    (∀ (b : Bool) (nd : Node) (rest : List Byte) (e : Bool), s.tblSrc = ⟨pathChar b :: rest, e⟩ → s.nodeCount = 511 →
      s.arena[s.cur.val]? = some nd → nd.child b = none →
      step s = .next { s with mode := .fault, err := .arenaFull, errInfo := (pathChar b).setWidth 9,
                              tblSrc := ⟨rest, e⟩ })

/-! ### ENCODE -/

/-- R141: ENCODE of symbols that all have a leaf, to a sink that is ready for all their bits. -/
def Obligations.EncodeWritesTheCodes : Prop :=
  ∀ (s : State) (l r : CodeTree) (cs : List Byte), s.mode = .idle → s.tree = .ok (.node l r) →
    (∀ c ∈ cs, c ∈ (CodeTree.node l r).symbols) → s.symSrc = ⟨cs, true⟩ →
    s.bitSink.hasRoom ((CodeTree.node l r).codes cs).length →
    exec .encode s = .next { s with symSrc := ⟨[], true⟩, bitSink := s.bitSink.took ((CodeTree.node l r).codes cs) }

/-- R142: a symbol without a leaf. -/
def Obligations.EncodeOfUnknownSymbolFaults : Prop :=
  ∀ (s : State) (l r : CodeTree) (cs rest : List Byte) (c : Byte) (e : Bool), s.mode = .idle → s.tree = .ok (.node l r) →
    (∀ d ∈ cs, d ∈ (CodeTree.node l r).symbols) → c ∉ (CodeTree.node l r).symbols → s.symSrc = ⟨cs ++ c :: rest, e⟩ →
    s.bitSink.hasRoom ((CodeTree.node l r).codes cs).length →
    exec .encode s = .next { s with
      symSrc := ⟨rest, e⟩, bitSink := s.bitSink.took ((CodeTree.node l r).codes cs)
      err := .unknownSymbol, errInfo := c.setWidth 9, mode := .fault }

/-- R143: ENCODE with no tree and with a single-leaf tree: the first symbol is consumed and faults; an empty input ends
normally on any tree (R141). -/
def Obligations.EncodeWithoutCodesFaults : Prop :=
  (∀ (s : State) (c : Byte) (rest : List Byte) (e : Bool), s.mode = .idle → s.symSrc = ⟨c :: rest, e⟩ →
    (s.root = none → exec .encode s = .next { s with
      symSrc := ⟨rest, e⟩, err := .noTree, errInfo := c.setWidth 9, mode := .fault }) ∧
    (∀ d : Byte, s.tree = .ok (.leaf d) → exec .encode s = .next { s with
      symSrc := ⟨rest, e⟩, err := .degenerateTree, errInfo := c.setWidth 9, mode := .fault })) ∧
  ∀ s : State, s.mode = .idle → s.symSrc = ⟨[], true⟩ → exec .encode s = .next s

/-- R112, R144: the length of the output is the sum over the symbols of count times depth. -/
def Obligations.EncodedLengthIsTheCost : Prop :=
  ∀ (tr : CodeTree) (cs : List Byte), tr.symbols.Nodup → (∀ c ∈ cs, c ∈ tr.symbols) →
    (tr.codes cs).length = tr.cost (fun c => cs.count c) 0

/-- R20 item 5, R83: no code is a beginning of another leaf's code. -/
def Obligations.CodesArePrefixFree : Prop :=
  ∀ (tr : CodeTree) (c d : Byte) (p q : Path), (c, p) ∈ tr.table → (d, q) ∈ tr.table → p <+: q → c = d ∧ p = q

/-- R76: the length of a code. -/
def Obligations.CodeLengthsAreBounded : Prop :=
  (∀ (tr : CodeTree) (c : Byte) (p : Path), tr.wf → 2 ≤ tr.symbols.length → (c, p) ∈ tr.table →
    1 ≤ p.length ∧ p.length ≤ 255) ∧
  ∀ c : Byte, (CodeTree.leaf c).table = [(c, [])]

/-! ### DECODE -/

/-- R150, R156: DECODE of the codes of any symbols that have a leaf emits those symbols, to a sink that is ready for them. -/
def Obligations.DecodeInvertsEncode : Prop :=
  ∀ (s : State) (l r : CodeTree) (cs : List Byte), s.mode = .idle → s.tree = .ok (.node l r) →
    (∀ c ∈ cs, c ∈ (CodeTree.node l r).symbols) → s.bitSrc = ⟨(CodeTree.node l r).codes cs, true⟩ →
    s.symSink.hasRoom cs.length →
    ∃ rt, s.root = some rt ∧
      exec .decode s = .next { s with cur := rt, bitSrc := ⟨[], true⟩, symSink := s.symSink.took cs }

/-- R152: bits that end inside a code. -/
def Obligations.DecodeOfTruncatedStreamFaults : Prop :=
  ∀ (s : State) (l r : CodeTree) (cs : List Byte) (c : Byte) (p q : Path), s.Inv → s.mode = .idle →
    s.tree = .ok (.node l r) → (∀ d ∈ cs, d ∈ (CodeTree.node l r).symbols) → (c, p) ∈ (CodeTree.node l r).table →
    q <+: p → q ≠ [] → q ≠ p → s.bitSrc = ⟨(CodeTree.node l r).codes cs ++ q, true⟩ → s.symSink.hasRoom cs.length →
    ∃ t, exec .decode s = .next t ∧ t = { s with
      cur := t.cur, bitSrc := ⟨[], true⟩, symSink := s.symSink.took cs
      err := .truncatedStream, errInfo := 0, mode := .fault }

/-- R153: a bit that selects a missing child; the bit has been consumed. -/
def Obligations.DecodeOfMissingChildFaults : Prop :=
  ∀ (s : State) (l r l' r' : CodeTree) (cs : List Byte) (q rest : Path) (b e : Bool), s.mode = .idle →
    s.tree = .ok (.node l r) → (∀ d ∈ cs, d ∈ (CodeTree.node l r).symbols) →
    (CodeTree.node l r).descend q = some (.node l' r') → (if b then r' else l') = .empty →
    s.bitSrc = ⟨(CodeTree.node l r).codes cs ++ q ++ b :: rest, e⟩ → s.symSink.hasRoom cs.length →
    ∃ t, exec .decode s = .next t ∧ t = { s with
      cur := t.cur, bitSrc := ⟨rest, e⟩, symSink := s.symSink.took cs
      err := .badPath, errInfo := (if b then 1 else 0), mode := .fault }

/-- R154, R155: DECODE with no tree and with a single-leaf tree: an offered bit faults and is not consumed; no bit, a normal
end. -/
def Obligations.DecodeWithoutCodes : Prop :=
  (∀ (s : State) (b : Bool) (bs : List Bool) (e : Bool), s.mode = .idle → s.bitSrc = ⟨b :: bs, e⟩ →
    (s.root = none → exec .decode s = .next { s with err := .noTree, errInfo := 0, mode := .fault }) ∧
    (∀ d : Byte, s.tree = .ok (.leaf d) →
      exec .decode s = .next { s with err := .degenerateTree, errInfo := 0, mode := .fault })) ∧
  ∀ (s : State) (d : Byte), s.mode = .idle → s.bitSrc = ⟨[], true⟩ → s.root = none ∨ s.tree = .ok (.leaf d) →
    exec .decode s = .next s

/-- R157, R158: what DECODE emits stands at leaves of the tree, and is at most as many symbols as bits consumed. -/
def Obligations.DecodeEmitsLeafSymbols : Prop :=
  ∀ (s t : State) (tr : CodeTree), s.mode = .idle → s.tree = .ok tr → exec .decode s = .next t →
    ∃ used out, s.bitSrc.units = used ++ t.bitSrc.units ∧ t.symSink.written = s.symSink.written ++ out ∧
      (∀ c ∈ out, c ∈ tr.symbols) ∧ out.length ≤ used.length

/-! ### Frames and the whole flow -/

/-- R60: what the stream commands may change, on their acceptance and in a step that resumes one from its wait; each
consumes a beginning of its input and appends to its output. R57: a stream action of the host, in any mode, changes its own
port alone; that it replaces what the port presents (log entry 19) and goes before a waiting command (log entry 24) is the
model's choice. -/
def Obligations.StreamCommandFrames : Prop :=
  (∀ s t : State,
    (exec .save s = .next t → saveFrame s t) ∧ (exec .encode s = .next t → encodeFrame s t) ∧
    (exec .decode s = .next t → decodeFrame s t)) ∧
  (∀ (s t : State) (p : Point), s.mode = .busy p → s.quiet → step s = .next t →
    (p.command = .save → saveFrame s t) ∧ (p.command = .encode → encodeFrame s t) ∧
    (p.command = .decode → decodeFrame s t)) ∧
  ∀ (s : State) (rest : List HostAct),
    (∀ us e, s.script = .tblIn us e :: rest → step s = .next { s with script := rest, tblSrc := ⟨us, e⟩ }) ∧
    (∀ us e, s.script = .symIn us e :: rest → step s = .next { s with script := rest, symSrc := ⟨us, e⟩ }) ∧
    (∀ us e, s.script = .bitIn us e :: rest → step s = .next { s with script := rest, bitSrc := ⟨us, e⟩ }) ∧
    (∀ m, s.script = .tblRoom m :: rest → step s = .next { s with script := rest, tblSink := ⟨s.tblSink.written, m⟩ }) ∧
    (∀ m, s.script = .symRoom m :: rest → step s = .next { s with script := rest, symSink := ⟨s.symSink.written, m⟩ }) ∧
    (∀ m, s.script = .bitRoom m :: rest → step s = .next { s with script := rest, bitSink := ⟨s.bitSink.written, m⟩ })

/-- R60, R130: what BUILD and LOAD may change, LOAD on its acceptance and in a step that resumes it from its wait; LOAD
makes every node with weight 0. -/
def Obligations.TreeCommandFrames : Prop :=
  (∀ s t : State,
    (exec .build s = .next t →
      t = { s with mode := t.mode, err := t.err, errInfo := t.errInfo, root := t.root, arena := t.arena, pq := t.pq,
                   seqNext := t.seqNext }) ∧
    (exec .load s = .next t → loadFrame s t)) ∧
  ∀ (s t : State) (p : Point), s.mode = .busy p → p.command = .load → s.quiet → step s = .next t → loadFrame s t

/-- R156, R202: compress on one instance, decompress on another: the symbols come back, whenever the counts are those of the
symbols and at least two distinct symbols occur. -/
def Obligations.CompressThenDecompress : Prop :=
  ∀ (s r : State) (cs : List Byte), s.Inv → r.Inv → s.mode = .idle → r.mode = .idle → s.root = none → r.root = none →
    s.outputsReady → r.outputsReady → s.tblSink.written = [] → s.bitSink.written = [] → s.symSrc = ⟨cs, true⟩ →
    (∀ c : Byte, (s.freqOf c).toNat = cs.count c) → (∃ a ∈ cs, ∃ b ∈ cs, a ≠ b) →
    ∃ s1 s2 s3 r1 r2, exec .build s = .next s1 ∧ exec .save s1 = .next s2 ∧ exec .encode s2 = .next s3 ∧
      exec .load { r with tblSrc := ⟨s2.tblSink.written, true⟩ } = .next r1 ∧
      exec .decode { r1 with bitSrc := ⟨s3.bitSink.written, true⟩ } = .next r2 ∧
      r2.mode = .idle ∧ r2.err = .none ∧ r2.bitSrc = ⟨[], true⟩ ∧ r2.symSink.written = r.symSink.written ++ cs
end

