-- ==== Sys2Proof/Laws/Loops.lean ====
section
/-! SUPPORT. The loops of LOAD, ENCODE and DECODE taken one unit at a time, so that proofs by induction over a stream never
unfold them, and what each single-unit operation leaves alone. -/

namespace Sys2Proof.Machine

open Sys2Proof Host

/-! ### Constants and binds -/

@[simp] theorem digit0_ne_LF : digit0 ≠ LF := by decide
@[simp] theorem digit1_ne_LF : digit1 ≠ LF := by decide
@[simp] theorem digit1_ne_digit0 : digit1 ≠ digit0 := by decide

/-- A digit is no line feed. -/
theorem isDigit_ne_LF {c : Byte} (h : isDigit c = true) : c ≠ LF := by
  rintro rfl
  exact absurd h (by decide)

@[simp] theorem ok_bind {α β : Type} (a : α) (f : α → Except Fault β) : ((Except.ok a : Except Fault α) >>= f) = f a := rfl
@[simp] theorem error_bind {α β : Type} (e : Fault) (f : α → Except Fault β) :
    ((Except.error e : Except Fault α) >>= f) = .error e := rfl

/-- A sequence of two operations that answers: both answer. -/
theorem bind_eq_ok {α β : Type} {x : Except Fault α} {f : α → Except Fault β} {b : β} :
    (x >>= f) = .ok b ↔ ∃ a, x = .ok a ∧ f a = .ok b := by
  cases x <;> simp

/-! ### LOAD -/

@[simp] theorem loadBytes_nil (s : State) : loadBytes [] s = .ok s.loadEnd := rfl

theorem loadBytes_cons {s : State} (h : s.loading = true) (c : Byte) (cs : List Byte) :
    loadBytes (c :: cs) s =
      ({ s with tblSrc := { s.tblSrc with units := cs } }.loadByte c >>= fun t => loadBytes cs t) := by
  simp only [loadBytes, h, if_true]

/-- After its end LOAD consumes nothing more. -/
theorem loadBytes_stopped {s : State} (h : s.loading = false) (cs : List Byte) : loadBytes cs s = .ok s := by
  cases cs with
  | nil =>
    simp only [loadBytes, State.loadEnd]
    unfold State.loading at h
    split <;> [split at h <;> simp_all; rfl]
  | cons c cs => simp only [loadBytes, h, Bool.false_eq_true, if_false]

/-- What a byte of a symbol line leaves alone. -/
theorem State.loadSymByte_frame {s t : State} {c : Byte} (h : s.loadSymByte c = .ok t) :
    t = { s with mode := t.mode, err := t.err, errInfo := t.errInfo, root := t.root, arena := t.arena, cur := t.cur,
                 val := t.val, ndig := t.ndig } := by
  unfold State.loadSymByte State.startPath at h
  split at h
  · split at h
    · cases h; rfl
    · split at h
      · cases h; rfl
      · split at h
        · cases h
        · rename_i r u hu
          cases h
          rw [(State.alloc_eq_some hu).2]
  · split at h
    · cases h; rfl
    · split at h <;> cases h <;> rfl

/-- What a byte of a path line leaves alone. -/
theorem State.loadPathByte_frame {s t : State} {c : Byte} (h : s.loadPathByte c = .ok t) :
    t = { s with mode := t.mode, err := t.err, errInfo := t.errInfo, arena := t.arena, cur := t.cur } := by
  have hstep : ∀ b, s.loadStep b c = .ok t →
      t = { s with mode := t.mode, err := t.err, errInfo := t.errInfo, arena := t.arena, cur := t.cur } := by
    intro b hb
    obtain ⟨nd, -, hb⟩ := bind_eq_ok.1 hb
    split at hb
    · cases hb; rfl
    · split at hb
      · cases hb; rfl
      · rename_i n u hu
        cases hb
        rw [(State.alloc_eq_some hu).2]
        rfl
  unfold State.loadPathByte at h
  split at h
  · obtain ⟨nd, -, h⟩ := bind_eq_ok.1 h
    cases h
    rfl
  · split at h
    · exact hstep _ h
    · split at h
      · exact hstep _ h
      · cases h; rfl

/-- What a byte leaves alone wherever LOAD stands: the frequency table, the queue, and every port. -/
theorem State.loadByte_frame {s t : State} {c : Byte} (h : s.loadByte c = .ok t) :
    t = { s with mode := t.mode, err := t.err, errInfo := t.errInfo, root := t.root, arena := t.arena, cur := t.cur,
                 val := t.val, ndig := t.ndig } := by
  unfold State.loadByte at h
  split at h
  · rw [State.loadSymByte_frame h]
  · exact State.loadSymByte_frame h
  · rw [State.loadPathByte_frame h]
  · cases h; rfl

/-! ### ENCODE -/

theorem encodeSyms_cons {s : State} (h : s.encodeReady = true) (c : Byte) (cs : List Byte) :
    encodeSyms (c :: cs) s =
      ({ s with symSrc := { s.symSrc with units := cs } }.encodeSym c >>= fun t => encodeSyms cs t) := by
  simp only [encodeSyms, h, if_true]

/-- ENCODE that waits for its sink, or has faulted, consumes nothing more. -/
theorem encodeSyms_stopped {s : State} (h : s.encodeReady = false) (cs : List Byte) : encodeSyms cs s = .ok s := by
  cases cs <;> simp [encodeSyms, h]

/-- What a symbol leaves alone. -/
theorem State.encodeSym_frame {s t : State} {c : Byte} (h : s.encodeSym c = .ok t) :
    t = { s with mode := t.mode, err := t.err, errInfo := t.errInfo, bitSink := t.bitSink } := by
  unfold State.encodeSym at h
  split at h
  · cases h; rfl
  · obtain ⟨nd, -, h⟩ := bind_eq_ok.1 h
    split at h
    · cases h; rfl
    · obtain ⟨tr, -, h⟩ := bind_eq_ok.1 h
      split at h <;> cases h <;> rfl

/-! ### DECODE -/

theorem decodeBits_nil (s : State) :
    decodeBits [] s = (s.decodeTop >>= fun o => match o with | none => .ok s | some t => .ok t.decodeEnd) := rfl

theorem decodeBits_cons (s : State) (b : Bool) (bs : List Bool) :
    decodeBits (b :: bs) s = (s.decodeTop >>= fun o => match o with
      | none => .ok s
      | some t => { t with bitSrc := { t.bitSrc with units := bs } }.decodeBit b >>= fun u =>
          if u.mode = .fault then .ok u else decodeBits bs u) := rfl

/-- Everything the head of the loop can do: go on at a node that is no leaf, emit a leaf's symbol and go on at the root, or
wait at a leaf. -/
theorem State.decodeTop_eq_ok {s : State} {o : Option State} (h : s.decodeTop = .ok o) :
    ∃ nd, readNode s.arena s.cur = .ok nd ∧
      ((nd.sym = .sentinel ∧ o = some s) ∨
       ∃ c r rd, nd.sym = .symbol c ∧ s.root = some r ∧ readNode s.arena r = .ok rd ∧ rd.isLeaf = false ∧
         (((s.symSink.push [c]).2 = [] ∧ o = some { s with symSink := (s.symSink.push [c]).1, cur := r }) ∨
          ((s.symSink.push [c]).2 ≠ [] ∧ o = none))) := by
  obtain ⟨nd, hnd, h⟩ := bind_eq_ok.1 h
  refine ⟨nd, hnd, ?_⟩
  split at h
  · cases h
    exact .inl ⟨‹_›, rfl⟩
  · rename_i c hc
    split at h
    · cases h
    · rename_i r hr
      obtain ⟨rd, hrd, h⟩ := bind_eq_ok.1 h
      split at h
      · cases h
      · rename_i hl
        refine .inr ⟨c, r, rd, hc, hr, hrd, by simpa using hl, ?_⟩
        split at h <;> cases h
        · exact .inl ⟨‹_›, rfl⟩
        · exact .inr ⟨‹_›, rfl⟩

/-- Everything a bit can do: step to the child it selects, or fault at a missing one. -/
theorem State.decodeBit_eq_ok {s t : State} {b : Bool} (h : s.decodeBit b = .ok t) :
    ∃ nd, readNode s.arena s.cur = .ok nd ∧
      ((nd.child b = none ∧ t = s.raise .badPath ((BitVec.ofBool b).setWidth 9)) ∨
       ∃ n, nd.child b = some n ∧ t = { s with cur := n }) := by
  obtain ⟨nd, hnd, h⟩ := bind_eq_ok.1 h
  refine ⟨nd, hnd, ?_⟩
  split at h <;> cases h
  · exact .inl ⟨‹_›, rfl⟩
  · exact .inr ⟨_, ‹_›, rfl⟩

end Sys2Proof.Machine
end

