-- ==== Sys2Proof/Tests/Slice0.lean ====
section
/-! SUPPORT. The model's own tests. Expected results are the spec's: opcode words from 30_encoding.md R71, vectors V1 to V10
and P1 to P4 of 95_test_vectors.md, examples of the rules. Then a witness for the hypotheses of each obligation. -/

-- One theorem at a time: elaborated side by side, the kernel evaluations below ask for more threads than the check allows.
set_option Elab.async false

namespace Sys2Proof.Tests

open Sys2Proof Sys2Proof.Machine Host

/-! ### Helpers -/

def isNext (o : Outcome State Fault Refusal) : Bool :=
  match o with
  | .next _ => true
  | .fault _ => false
  | .refused _ => false

def nextD (o : Outcome State Fault Refusal) : State :=
  match o with
  | .next t => t
  | .fault _ => State.reset
  | .refused _ => State.reset

theorem eq_next {o : Outcome State Fault Refusal} (h : isNext o = true) : o = .next (nextD o) := by
  cases o <;> simp_all [isNext, nextD]

/-- The state after a command, from `s`. -/
def after (i : Instr) (s : State) : State := nextD (exec i s)

def leafNode (c : Byte) (w : Weight) : Node := ⟨.symbol c, none, none, w⟩
def innerNode (l r : Link) (w : Weight) : Node := ⟨.sentinel, l, r, w⟩

/-- V1 after BUILD: `0: (65,-,-,5)`, `1: (66,-,-,2)`, `2: (*,1,0,7)`, `root = 2`. -/
def v1 : State :=
  { State.reset with
    root := some 2
    arena := [leafNode 65 5, leafNode 66 2, innerNode (some 1) (some 0) 7]
    freq := [(65, 5), (66, 2)] }

/-- V6 after BUILD: the single leaf 120. -/
def v6 : State := { State.reset with root := some 0, arena := [leafNode 120 7], freq := [(120, 7)] }

/-- V9, first row after LOAD: a missing sibling. -/
def v9 : State := { State.reset with root := some 0, arena := [innerNode (some 1) none 0, leafNode 65 0] }

/-- A fresh instance with table text on `TblSrc`. -/
def fresh (text : List Byte) (ended : Bool) : State := { State.reset with tblSrc := ⟨text, ended⟩ }

/-- P4 after LOAD: `Node(Leaf 66, Node(Leaf 65, Leaf 67))`, bits `0101`. -/
def p4 : State :=
  { State.reset with
    root := some 0
    arena := [innerNode (some 1) (some 2) 0, leafNode 66 0, innerNode (some 3) (some 4) 0, leafNode 65 0, leafNode 67 0]
    bitSrc := ⟨[false, true, false, true], true⟩ }

/-- DECODE waiting inside a code of P4, after the bit 1, at end-of-stream. -/
def inCode : State := { p4 with mode := .busy .decode, cur := 2, bitSrc := ⟨[], true⟩ }

/-- A latched fault, with the tree of V1. -/
def faulted : State := { v1 with mode := .fault, err := .unknownSymbol, errInfo := 67 }

/-- LOAD waiting at a pair boundary, inside a symbol line never started. -/
def atPair (text : List Byte) (ended : Bool) : State := { fresh text ended with mode := .busy .loadPair }

/-- LOAD waiting in a path line at the root. -/
def atPath (text : List Byte) (ended : Bool) : State :=
  { fresh text ended with mode := .busy .loadPath, root := some 0, arena := [innerNode none none 0], val := 65 }

/-- LOAD in a path line with all 511 entries allocated. -/
def fullArena (text : List Byte) : State :=
  { atPath text true with arena := List.replicate 511 (innerNode none none 0) }

/-! ### Decoding: each word of R71 written out bit by bit -/

theorem test_decode_nop : decode [0b00000000#8] = .ok (.nop, []) := by decide
theorem test_decode_build : decode [0b00000001#8] = .ok (.build, []) := by decide
theorem test_decode_save : decode [0b00000010#8] = .ok (.save, []) := by decide
theorem test_decode_load : decode [0b00000011#8] = .ok (.load, []) := by decide
theorem test_decode_encode : decode [0b00000100#8] = .ok (.encode, []) := by decide
theorem test_decode_decode : decode [0b00000101#8] = .ok (.decode, []) := by decide
theorem test_decode_reserved6 : decode [0b00000110#8] = .ok (.reserved6, []) := by decide
theorem test_decode_reset : decode [0b00000111#8] = .ok (.reset, []) := by decide
theorem test_decode_refuses_bit3 : decode [0b00001000#8] = .error (.notACommandWord 8#8) := by decide
theorem test_decode_refuses_nothing : decode [] = .error .noByte := by decide
theorem test_table_word : decodeTableWord 8 5 = some .decode := by decide

/-- `Instr.wf` refuses nothing (no command has an operand), and a byte that is no command word is refused. -/
theorem test_wf_smoke : (∀ b ∈ encode .reset, isCommandByte b) ∧ ¬ isCommandByte 8#8 := by decide

/-! ### Well-formed trees and states: each check refuses a term that violates it -/

theorem test_tree_wf : (CodeTree.node (.leaf 66) (.leaf 65)).wf ∧ (CodeTree.leaf 120).wf := by decide
theorem test_tree_wf_refuses_empty : ¬ CodeTree.empty.wf := by decide
theorem test_tree_wf_refuses_missing_child : ¬ (CodeTree.node (.leaf 65) .empty).wf := by decide
theorem test_tree_wf_refuses_same_symbol : ¬ (CodeTree.node (.leaf 65) (.leaf 65)).wf := by decide
theorem test_bare_leaves_refuses : bareLeaves 2 [⟨.symbol 65, some 1, none, 0⟩, leafNode 66 0] (some 0) = false := by decide +kernel
theorem test_memory_wf_refuses : ¬ Memory.wf [(66, 1), (65, 1)] ∧ ¬ Memory.wf [(65, 0)] ∧ ¬ Memory.wf [(256, 1)] := by decide
theorem test_inv : v1.Inv ∧ v9.Inv ∧ (atPath [] false).Inv ∧ inCode.Inv :=
  ⟨by decide +kernel, by decide +kernel, by decide +kernel, by decide +kernel⟩
theorem test_inv_refuses : ¬ State.Inv { v1 with root := some 0, arena := [innerNode (some 0) none 0] } ∧
    ¬ State.Inv { v1 with root := none } ∧ ¬ State.Inv { v1 with err := .noTree } ∧
    ¬ State.Inv { v1 with pq := [⟨1, 0, 0⟩] } ∧
    ¬ State.Inv { v1 with mode := .busy .decode, cur := 3, arena := v1.arena ++ [innerNode none none 0] } :=
  ⟨by decide +kernel, by decide +kernel, by decide +kernel, by decide +kernel, by decide +kernel⟩

/-! ### Layouts (R74, R75, R78, R81) -/

theorem test_node_pack : (innerNode (some 1) none 7).pack.toNat = 7 * 2 ^ 27 + 511 * 2 ^ 18 + 1 * 2 ^ 9 + 256 := by decide +kernel
theorem test_entry_pack : (PqEntry.pack ⟨5, 3, 2⟩).toNat = 5 * 2 ^ 18 + 3 * 2 ^ 9 + 2 := by decide +kernel
theorem test_dec : dec 0 = [0x30] ∧ dec 10 = [0x31, 0x30] ∧ dec 65 = [0x36, 0x35] ∧ dec 100 = [0x31, 0x30, 0x30] ∧
    dec 255 = [0x32, 0x35, 0x35] := by decide +kernel
/-- V1: `0x08000`; V6: `0x18000`; V1 item 7: `0x090D6`. -/
theorem test_status : v1.status = .ok 0x08000#17 ∧ v6.status = .ok 0x18000#17 ∧ faulted.status = .ok 0x090D6#17 := by decide +kernel

/-- R23, U13: `tree_single` of a root that is not allocated is never read as zero. -/
theorem test_status_unallocated : State.status { v1 with root := some 3 } = .error .unallocatedNode := by decide +kernel

/-! ### Micro-operations (V4) -/

/-- V4 item 4. -/
theorem test_extract : (pqFirst [⟨5, 0, 0⟩, ⟨2, 1, 1⟩]).map PqEntry.idx = some 1 ∧
    (pqFirst [⟨2, 3, 3⟩, ⟨2, 2, 2⟩]).map PqEntry.idx = some 2 := by decide +kernel
/-- V4 item 5. -/
theorem test_extract_weight_first : (pqFirst [⟨1, 9, 9⟩, ⟨2, 0, 0⟩]).map PqEntry.idx = some 9 := by decide +kernel

/-- The queue of V4 item 6 over six leaves. -/
def v4 : State :=
  { State.reset with
    arena := [leafNode 97 5, leafNode 98 9, leafNode 99 12, leafNode 100 13, leafNode 101 16, leafNode 102 45]
    pq := [⟨5, 0, 0⟩, ⟨9, 1, 1⟩, ⟨12, 2, 2⟩], seqNext := 6 }

/-- V4 item 6. -/
theorem test_merge : v4.merge.toOption.map (fun t => (t.pq, t.arena[6]?, t.seqNext)) =
    some ([⟨12, 2, 2⟩, ⟨14, 6, 6⟩], some (innerNode (some 0) (some 1) 14), 7) := by decide +kernel

/-! ### Commands, one step each -/

/-- V1: BUILD. -/
theorem test_build_v1 : after .build { State.reset with freq := [(65, 5), (66, 2)] } =
    { v1 with seqNext := 3 } := by decide +kernel
/-- V3 row 4: a leaf comes before an internal node of equal weight. -/
theorem test_build_tie : (after .build { State.reset with freq := [(97, 2), (98, 1), (99, 1)] }).arena.drop 3 =
    [innerNode (some 1) (some 2) 2, innerNode (some 0) (some 3) 4] := by decide +kernel
/-- V1 item 1: the ten bytes. -/
theorem test_save_v1 : (after .save v1).tblSink.written =
    [0x36, 0x36, 0x0A, 0x30, 0x0A, 0x36, 0x35, 0x0A, 0x31, 0x0A] := by decide +kernel
/-- V6 item 1: `120\n\n`. -/
theorem test_save_v6 : (after .save v6).tblSink.written = [0x31, 0x32, 0x30, 0x0A, 0x0A] := by decide +kernel
/-- V1 item 9: the source's own text, pairs in the other order. -/
theorem test_load_v1 : (after .load (fresh [0x36, 0x35, 0x0A, 0x31, 0x0A, 0x36, 0x36, 0x0A, 0x30, 0x0A] true)).arena =
    [innerNode (some 2) (some 1) 0, leafNode 65 0, leafNode 66 0] := by decide +kernel
/-- V8: `2560\n0\n` faults at the fourth digit, four bytes consumed; `65\n` leaves STATUS `0x0C022`. -/
theorem test_load_v8 :
    (after .load (fresh [0x32, 0x35, 0x36, 0x30, 0x0A, 0x30, 0x0A] true)).status = .ok 0x00C22#17 ∧
    (after .load (fresh [0x32, 0x35, 0x36, 0x30, 0x0A, 0x30, 0x0A] true)).tblSrc.units = [0x0A, 0x30, 0x0A] ∧
    (after .load (fresh [0x36, 0x35, 0x0A] true)).status = .ok 0x0C022#17 := by decide +kernel
/-- V1 item 2: ENCODE [65,66,66,65] = `1001`. -/
theorem test_encode_v1 : (after .encode { v1 with symSrc := ⟨[65, 66, 66, 65], true⟩ }).bitSink.written =
    [true, false, false, true] := by decide +kernel
/-- V6 item 4: the same fault for a symbol that is not the tree's. -/
theorem test_encode_v6 : (after .encode { v6 with symSrc := ⟨[121], true⟩ }).status =
    (State.status { v6 with mode := .fault, err := .degenerateTree, errInfo := 121 }) := by decide +kernel
/-- V1 item 3: DECODE `0110`. -/
theorem test_decode_v1 : (after .decode { v1 with bitSrc := ⟨[false, true, true, false], true⟩ }).symSink.written =
    [66, 65, 65, 66] := by decide
/-- V9 row 1: DECODE `01` emits 65, consumes both bits, `0x0805E`. -/
theorem test_decode_v9 :
    (after .decode { v9 with bitSrc := ⟨[false, true], true⟩ }).symSink.written = [65] ∧
    (after .decode { v9 with bitSrc := ⟨[false, true], true⟩ }).bitSrc.units = [] ∧
    (after .decode { v9 with bitSrc := ⟨[false, true], true⟩ }).status = .ok 0x0805E#17 := by decide
/-- V10 items 1 and 3. -/
theorem test_nop : after .nop v1 = v1 ∧ after .nop faulted = faulted := by decide +kernel
/-- V10 item 2: `0x00186`. -/
theorem test_reserved6 : (after .reserved6 State.reset).status = .ok 0x00186#17 ∧ after .reserved6 faulted = faulted := by decide +kernel
/-- V10 item 4. -/
theorem test_reset : after .reset v1 = State.reset ∧ after .reset faulted = State.reset := by decide +kernel

/-- The host's words reach `exec` through `step`: from reset, RESERVED6 is the first command. -/
theorem test_first_step : nextD (step (State.reset.withFetchWord 8 6)) = after .reserved6 State.reset := by decide +kernel

/-! ### Witnesses: states and operands that meet the hypotheses of each obligation -/

theorem witness_StepKeepsInvariant : ∃ s : State, s.Inv ∧ s.mode = .busy .loadPath := ⟨atPath [] false, by decide +kernel, rfl⟩

theorem witness_CommandWordsDecodeByTheOpcodeMap : ∃ b : Byte, 8#8 ≤ b := ⟨8, by decide⟩

theorem witness_StepRunsTheWrittenCommand :
    (∃ (s : State) (op : BitVec 3) (rest : List HostAct), (∀ p, s.mode ≠ .busy p) ∧ s.script = .cmd op :: rest) ∧
    ∃ (s : State) (n w : Nat) (i : Instr), (∀ p, s.mode ≠ .busy p) ∧ decodeTableWord n w = some i :=
  ⟨⟨{ v1 with script := [.cmd 7] }, 7, [], nofun, rfl⟩, ⟨faulted, 8, 7, .reset, nofun, by decide +kernel⟩⟩

/-- A word that waits behind nothing, and a word and a `FREQW` write that wait while the host presents the stream. -/
theorem witness_BusyAcceptsNoCommand :
    (∃ (s t : State) (p : Point), s.mode = .busy p ∧ s.script = [.cmd 7] ∧ step s = .next t) ∧
    ∃ (s t : State) (p : Point), s.mode = .busy p ∧ s.script = [.cmd 7, .freqw 1 1, .tblIn [LF] true, .rst] ∧
      step s = .next t ∧ t.script = [.cmd 7, .freqw 1 1, .rst] :=
  ⟨⟨{ atPair [] false with script := [.cmd 7] }, _, .loadPair, rfl, rfl, eq_next (by decide +kernel)⟩,
   ⟨{ atPair [] false with script := [.cmd 7, .freqw 1 1, .tblIn [LF] true, .rst] }, _, .loadPair, rfl, rfl,
    eq_next (by decide +kernel), by decide +kernel⟩⟩

theorem witness_FreqWriteReplacesOneEntry :
    ∃ (s : State) (i : Byte) (d : Count) (rest : List HostAct), s.Inv ∧ s.mode = .idle ∧ s.script = .freqw i d :: rest :=
  ⟨{ v1 with script := [.freqw 255 0] }, 255, 0, [], by decide +kernel, rfl, rfl⟩

theorem witness_FreqWriteWaitsOutsideIdle :
    (∃ (s : State) (i : Byte) (d : Count), s.mode = .fault ∧ s.script = [.freqw i d]) ∧
    (∃ (s : State) (i : Byte) (d : Count) (rest : List HostAct), s.mode = .fault ∧
      s.script = .freqw i d :: .cmd 7#3 :: rest) ∧
    ∃ (s t : State) (p : Point) (i : Byte) (d : Count), s.mode = .busy p ∧ s.script = [.freqw i d] ∧ step s = .next t :=
  ⟨⟨{ faulted with script := [.freqw 1 1] }, 1, 1, rfl, rfl⟩,
   ⟨{ faulted with script := [.freqw 1 1, .cmd 7] }, 1, 1, [], rfl, rfl⟩,
   ⟨{ atPair [] false with script := [.freqw 1 1] }, _, .loadPair, 1, 1, rfl, rfl, eq_next (by decide +kernel)⟩⟩

theorem witness_FaultModeDropsEveryWordButReset :
    ∃ (s : State) (op : BitVec 3) (rest : List HostAct), s.mode = .fault ∧ s.script = .cmd op :: rest ∧ op ≠ 7#3 :=
  ⟨{ faulted with script := [.cmd 6] }, 6, [], rfl, rfl, by decide +kernel⟩

theorem witness_FaultIsStickyUntilReset :
    (∃ s t : State, s.mode = .fault ∧ step s = .next t ∧ t.mode = .fault) ∧
    ∃ s t : State, s.mode = .fault ∧ step s = .next t ∧ t.mode = .idle :=
  ⟨⟨{ faulted with script := [.cmd 1] }, _, rfl, eq_next (by decide +kernel), by decide +kernel⟩,
   ⟨{ faulted with script := [.rst] }, _, rfl, eq_next (by decide +kernel), by decide +kernel⟩⟩

/-- A wait with a word and a `FREQW` write pending, from acceptance and after a resumed step. -/
theorem witness_WaitChangesNoState :
    (∃ (i : Instr) (s t : State) (p : Point), s.mode = .idle ∧ exec i s = .next t ∧ t.mode = .busy p ∧ t.quiet ∧
      t.script = [.cmd 1, .freqw 1 1]) ∧
    ∃ (s t : State) (p q : Point), s.mode = .busy p ∧ s.quiet ∧ s.script = [.cmd 1, .freqw 1 1] ∧ step s = .next t ∧
      t.mode = .busy q ∧ s ≠ t :=
  ⟨⟨.save, { v1 with tblSink := ⟨[], some 3⟩, script := [.cmd 1, .freqw 1 1] }, _,
    .save [0x30, 0x0A, 0x36, 0x35, 0x0A, 0x31, 0x0A], rfl, eq_next (by decide +kernel), by decide +kernel, by decide +kernel,
    by decide +kernel⟩,
   ⟨{ atPair [0x36] false with script := [.cmd 1, .freqw 1 1] }, _, .loadPair, .loadSym, rfl, rfl, rfl,
    eq_next (by decide +kernel), by decide +kernel, by decide +kernel⟩⟩

theorem witness_LoadOfASplitStream :
    (∃ (s t : State) (a : List Byte) (p : Point), s.mode = .idle ∧ s.script = [] ∧
      exec .load { s with tblSrc := ⟨a, false⟩ } = .next t ∧ t.mode = .busy p) ∧
    ∃ (s : State) (lines : List (List Byte × Path)), s.Inv ∧ s.mode = .idle ∧ s.root = none ∧
      (∀ q ∈ lines, isNumeral q.1) ∧ (nodePaths lines).length ≤ 511 ∧ s.tblSrc = ⟨lines.flatMap lineText, false⟩ ∧
      lines ≠ [] :=
  ⟨⟨State.reset, _, [0x36], .loadSym, rfl, rfl, eq_next (by decide +kernel), by decide +kernel⟩,
   ⟨fresh _ false, [([0x36, 0x35], [false])], by decide +kernel, rfl, rfl, by decide +kernel, by decide +kernel, rfl,
    by decide⟩⟩

/-- A wait for a symbol, a wait for the sink before end-of-stream is seen, and a sink that takes one bit of two. -/
theorem witness_EncodeOfASplitStream :
    (∃ (s t : State) (a : List Byte) (p : Point), s.mode = .idle ∧ s.script = [] ∧ s.bitSink.room = none ∧
      exec .encode { s with symSrc := ⟨a, false⟩ } = .next t ∧ t.mode = .busy p) ∧
    (∃ (s t : State) (a : List Byte) (p : Point), s.mode = .idle ∧ s.script = [] ∧ s.bitSink.room = some 0 ∧
      exec .encode { s with symSrc := ⟨a, true⟩ } = .next t ∧ t.mode = .busy p) ∧
    ∃ (s : State) (l r : CodeTree) (cs : List Byte) (n : Nat), s.mode = .idle ∧ s.tree = .ok (.node l r) ∧
      (∀ c ∈ cs, c ∈ (CodeTree.node l r).symbols) ∧ s.symSrc = ⟨cs, true⟩ ∧ s.bitSink.room = some n ∧
      n < ((CodeTree.node l r).codes cs).length :=
  ⟨⟨v1, _, [65], .encode [], rfl, rfl, rfl, eq_next (by decide +kernel), by decide +kernel⟩,
   ⟨{ v1 with bitSink := ⟨[], some 0⟩ }, _, [65], .encode [true], rfl, rfl, rfl, eq_next (by decide +kernel), by decide +kernel⟩,
   ⟨{ v1 with symSrc := ⟨[65, 66], true⟩, bitSink := ⟨[], some 1⟩ }, .leaf 66, .leaf 65, [65, 66], 1, rfl,
    by decide +kernel, by decide +kernel, rfl, rfl, by decide +kernel⟩⟩

/-- Symbols, and none, with no end-of-stream after them. -/
theorem witness_EncodeOfASplitStream_noEnd :
    (∃ (s : State) (l r : CodeTree) (cs : List Byte), s.mode = .idle ∧ s.tree = .ok (.node l r) ∧
      (∀ c ∈ cs, c ∈ (CodeTree.node l r).symbols) ∧ s.symSrc = ⟨cs, false⟩ ∧
      s.bitSink.hasRoom ((CodeTree.node l r).codes cs).length ∧ cs ≠ []) ∧
    ∃ s : State, s.mode = .idle ∧ s.symSrc = ⟨[], false⟩ ∧ s.root = none :=
  ⟨⟨{ v1 with symSrc := ⟨[65, 66], false⟩ }, .leaf 66, .leaf 65, [65, 66], rfl, by decide +kernel, by decide +kernel, rfl,
    nofun, by decide⟩,
   ⟨{ State.reset with symSrc := ⟨[], false⟩ }, rfl, rfl, rfl⟩⟩

/-- A wait for a bit, a wait for the sink, and a sink that takes one symbol of two. -/
theorem witness_DecodeOfASplitStream :
    (∃ (s t : State) (a : List Bool) (p : Point), s.mode = .idle ∧ s.script = [] ∧ s.symSink.room = none ∧
      exec .decode { s with bitSrc := ⟨a, false⟩ } = .next t ∧ t.mode = .busy p) ∧
    (∃ (s t : State) (a : List Bool) (p : Point), s.mode = .idle ∧ s.script = [] ∧ s.symSink.room = some 0 ∧
      exec .decode { s with bitSrc := ⟨a, true⟩ } = .next t ∧ t.mode = .busy p) ∧
    ∃ (s : State) (l r : CodeTree) (pre post : List Byte) (c : Byte), s.mode = .idle ∧ s.tree = .ok (.node l r) ∧
      (∀ d ∈ pre ++ c :: post, d ∈ (CodeTree.node l r).symbols) ∧
      s.bitSrc = ⟨(CodeTree.node l r).codes (pre ++ c :: post), true⟩ ∧ s.symSink.room = some pre.length :=
  ⟨⟨v1, _, [true], .decode, rfl, rfl, rfl, eq_next (by decide +kernel), by decide +kernel⟩,
   ⟨{ v1 with symSink := ⟨[], some 0⟩ }, _, [true], .decode, rfl, rfl, rfl, eq_next (by decide +kernel), by decide +kernel⟩,
   ⟨{ v1 with bitSrc := ⟨[true, false], true⟩, symSink := ⟨[], some 1⟩ }, .leaf 66, .leaf 65, [65], [], 66, rfl,
    by decide +kernel, by decide +kernel, rfl, rfl⟩⟩

/-- A code and a bit of the next, with no end-of-stream after them; and no bit, without a tree and at a single leaf. -/
theorem witness_DecodeOfASplitStream_noEnd :
    (∃ (s : State) (l r l' r' : CodeTree) (cs : List Byte) (q : Path), s.mode = .idle ∧ s.tree = .ok (.node l r) ∧
      (∀ c ∈ cs, c ∈ (CodeTree.node l r).symbols) ∧ (CodeTree.node l r).descend q = some (.node l' r') ∧
      s.bitSrc = ⟨(CodeTree.node l r).codes cs ++ q, false⟩ ∧ s.symSink.hasRoom cs.length ∧ cs ≠ [] ∧ q ≠ []) ∧
    (∃ s : State, s.mode = .idle ∧ s.bitSrc = ⟨[], false⟩ ∧ s.root = none) ∧
    ∃ (s : State) (d : Byte), s.mode = .idle ∧ s.bitSrc = ⟨[], false⟩ ∧ s.tree = .ok (.leaf d) :=
  ⟨⟨{ p4 with bitSrc := ⟨[false, true], false⟩ }, .leaf 66, .node (.leaf 65) (.leaf 67), .leaf 65, .leaf 67, [66], [true],
    rfl, by decide +kernel, by decide +kernel, by decide +kernel, by decide +kernel, nofun, by decide, by decide⟩,
   ⟨{ State.reset with bitSrc := ⟨[], false⟩ }, rfl, rfl, rfl⟩,
   ⟨{ v6 with bitSrc := ⟨[], false⟩ }, 120, rfl, rfl, by decide +kernel⟩⟩

/-- An idle state and a state in FAULT: NOP, RESET, the reserved word, and every command in IDLE. -/
theorem witness_modes : v1.mode = .idle ∧ faulted.mode = .fault ∧ (atPair [] false).mode = .busy .loadPair := by decide +kernel

/-- The pin alone; behind a word and a `FREQW` write that wait in BUSY; behind a `FREQW` write that waits in FAULT. -/
theorem witness_RstPinResetsAtAnyTime :
    (∃ (s : State) (post : List HostAct), s.script = [] ++ .rst :: post ∧ s.mode = .idle) ∧
    (∃ (s : State) (pre post : List HostAct), s.script = pre ++ .rst :: post ∧ (∀ a ∈ pre, s.takes a = false) ∧
      s.mode = .busy .loadPair ∧ pre.length = 2) ∧
    ∃ (s : State) (pre post : List HostAct), s.script = pre ++ .rst :: post ∧ (∀ a ∈ pre, s.takes a = false) ∧
      s.mode = .fault ∧ pre.length = 1 :=
  ⟨⟨{ v1 with script := [.rst] }, [], rfl, rfl⟩,
   ⟨{ atPair [] false with script := [.cmd 2, .freqw 1 1, .rst] }, [.cmd 2, .freqw 1 1], [], rfl, by decide +kernel, rfl, rfl⟩,
   ⟨{ faulted with script := [.freqw 1 1, .rst, .cmd 1] }, [.freqw 1 1], [.cmd 1], rfl, by decide +kernel, rfl, rfl⟩⟩

theorem witness_FaultCodesByCommand :
    (∃ (i : Instr) (s t : State), s.mode = .idle ∧ exec i s = .next t ∧ t.mode = .fault) ∧
    (∃ (s t : State) (p : Point), s.mode = .busy p ∧ s.quiet ∧ step s = .next t ∧ t.mode = .fault) ∧
    (∃ (s t : State) (tr : CodeTree), s.mode = .idle ∧ s.tree = .ok tr ∧ tr.full = true ∧ exec .decode s = .next t ∧
      t.mode = .fault) ∧
    (∃ (s t : State) (p : Point) (tr : CodeTree), s.Inv ∧ s.mode = .busy p ∧ p.command = .decode ∧ s.quiet ∧
      s.tree = .ok tr ∧ tr.full = true ∧ step s = .next t ∧ t.mode = .fault) ∧
    ∃ (s t : State) (tr : CodeTree) (pairs : List (Byte × Path)), s.Inv ∧ s.mode = .idle ∧ s.root = none ∧ tr.wf ∧
      pairs.Perm tr.table ∧ s.tblSrc = ⟨tableText pairs, true⟩ ∧ exec .load s = .next t :=
  ⟨⟨.reserved6, v1, _, rfl, eq_next (by decide +kernel), by decide +kernel⟩,
   ⟨atPath [] true, _, .loadPath, rfl, rfl, eq_next (by decide +kernel), by decide +kernel⟩,
   ⟨{ v6 with bitSrc := ⟨[false], true⟩ }, _, .leaf 120, rfl, by decide +kernel, by decide +kernel,
    eq_next (by decide +kernel), by decide +kernel⟩,
   ⟨inCode, _, .decode, .node (.leaf 66) (.node (.leaf 65) (.leaf 67)), by decide +kernel, rfl, rfl, rfl,
    by decide +kernel, by decide +kernel, eq_next (by decide +kernel), by decide +kernel⟩,
   ⟨fresh (tableText [(120, [])]) true, _, .leaf 120, [(120, [])], by decide +kernel, rfl, rfl, by decide,
    by decide +kernel, rfl, eq_next (by decide +kernel)⟩⟩

theorem witness_OneTreePerInstance :
    (∃ (s : State) (r : Idx), s.mode = .idle ∧ s.root = some r) ∧ (∃ s t : State, exec .save s = .next t) ∧
    ∃ s t : State, s.root = none ∧ s.err = .none ∧ exec .load s = .next t :=
  ⟨⟨v1, 2, rfl, rfl⟩, ⟨v1, _, eq_next (by decide +kernel)⟩, ⟨State.reset, _, rfl, rfl, eq_next (by decide +kernel)⟩⟩

theorem witness_TreeIsImmutableUntilReset :
    ∃ (s t : State) (r : Idx), s.root = some r ∧ s.loading = false ∧ step s = .next t :=
  ⟨{ v1 with script := [.cmd 1] }, _, 2, rfl, rfl, eq_next (by decide +kernel)⟩

/-- A reset by the pin is the other case of the same statement. -/
theorem witness_TreeIsImmutableUntilReset_rst :
    ∃ (s t : State) (r : Idx), s.root = some r ∧ s.loading = false ∧ step s = .next t ∧ t.root = none :=
  ⟨{ v1 with script := [.rst] }, _, 2, rfl, rfl, eq_next (by decide +kernel), by decide +kernel⟩

/-- A state whose STATUS can be read, and one whose root is not allocated. -/
theorem witness_StatusWordFields :
    (∃ (s : State) (w : BitVec 17), s.status = .ok w ∧ ∀ r, s.root = some r → r.val < s.nodeCount) ∧
    ∃ (s : State) (r : Idx), s.root = some r ∧ s.nodeCount ≤ r.val :=
  ⟨⟨v6, _, test_status.2.1, fun r h => by cases h; decide +kernel⟩, ⟨{ v1 with root := some 3 }, 3, rfl, by decide +kernel⟩⟩

theorem witness_PackedQueueEntryOrder : ∃ e f : PqEntry, e.seq ≠ f.seq := ⟨⟨5, 0, 0⟩, ⟨5, 1, 1⟩, by decide⟩

theorem witness_AllocHandsOutIndicesInOrder : v1.nodeCount < 511 ∧ (fullArena []).nodeCount = 511 := by decide +kernel

theorem witness_PqInsertQueuesBehindEqualWeights :
    ∃ (s : State) (i : Idx) (nd : Node), s.arena[i.val]? = some nd ∧ (∀ e ∈ s.pq, e.seq < s.seqNext) ∧
      ∃ e ∈ s.pq, e.weight ≤ nd.weight :=
  ⟨v4, 2, leafNode 99 12, by decide +kernel, by decide +kernel, ⟨12, 2, 2⟩, by decide +kernel, by decide +kernel⟩

theorem witness_PqExtractMinTakesTheFirst : ∃ s : State, s.pq ≠ [] ∧ (s.pq.map PqEntry.seq).Nodup :=
  ⟨v4, by decide +kernel, by decide +kernel⟩

theorem witness_MergeJoinsTheTwoFirst :
    ∃ s : State, 2 ≤ s.pqLen ∧ s.nodeCount < 511 ∧ (s.pq.map PqEntry.seq).Nodup ∧ (s.pq.map PqEntry.idx).Nodup ∧
      ∀ e ∈ s.pq, ∃ nd, s.arena[e.idx.val]? = some nd ∧ nd.weight = e.weight := by
  refine ⟨v4, by decide +kernel, by decide +kernel, by decide +kernel, by decide +kernel, fun e he => ?_⟩
  have h : e = ⟨5, 0, 0⟩ ∨ e = ⟨9, 1, 1⟩ ∨ e = ⟨12, 2, 2⟩ := by simpa [v4] using he
  rcases h with rfl | rfl | rfl
  · exact ⟨leafNode 97 5, by decide +kernel, rfl⟩
  · exact ⟨leafNode 98 9, by decide +kernel, rfl⟩
  · exact ⟨leafNode 99 12, by decide +kernel, rfl⟩

/-- The reset state meets the hypotheses of BUILD on an all-zero table and of LOAD on empty text. -/
theorem witness_BuildOfZeroTableMakesNoTree :
    ∃ s : State, s.Inv ∧ s.mode = .idle ∧ s.root = none ∧ (∀ c : Byte, s.freqOf c = 0) ∧ s.tblSrc = ⟨[], true⟩ :=
  ⟨State.reset, by decide +kernel, rfl, rfl, fun _ => rfl, rfl⟩

theorem witness_BuildOfOneSymbolMakesABareLeaf :
    ∃ (s : State) (c : Byte), s.Inv ∧ s.mode = .idle ∧ s.root = none ∧ s.freqOf c ≠ 0 ∧ ∀ d : Byte, d ≠ c → s.freqOf d = 0 :=
  ⟨{ State.reset with freq := [(120, 7)] }, 120, by decide +kernel, rfl, rfl, by decide +kernel, by decide +kernel⟩

/-- The frequency table of V1, before BUILD. -/
def v1Table : State := { State.reset with freq := [(65, 5), (66, 2)] }

theorem witness_BuildMakesAFullTreeOfThePresentSymbols :
    ∃ s : State, s.Inv ∧ s.mode = .idle ∧ s.root = none ∧ s.present ≠ [] :=
  ⟨v1Table, by decide +kernel, rfl, rfl, by decide +kernel⟩

theorem witness_BuildWeightsAreExactSums :
    ∃ s t : State, s.Inv ∧ s.mode = .idle ∧ s.root = none ∧ exec .build s = .next t :=
  ⟨v1Table, _, by decide +kernel, rfl, rfl, eq_next (by decide +kernel)⟩

theorem witness_BuildIsAFunctionOfTheTable :
    ∃ s s' : State, s.Inv ∧ s'.Inv ∧ s.mode = .idle ∧ s'.mode = .idle ∧ s.root = none ∧ s'.root = none ∧
      (∀ c : Byte, s.freqOf c = s'.freqOf c) ∧ s ≠ s' :=
  ⟨v1Table, { v1Table with cur := 9 }, by decide +kernel, by decide +kernel, rfl, rfl, rfl, rfl, fun _ => rfl, by decide +kernel⟩

theorem witness_BuildIsOptimal :
    ∃ (s t : State) (tr other : CodeTree), s.Inv ∧ s.mode = .idle ∧ s.root = none ∧ exec .build s = .next t ∧
      t.tree = .ok tr ∧ other.full = true ∧ other.symbols.Perm tr.symbols :=
  ⟨v1Table, { v1 with seqNext := 3 }, .node (.leaf 66) (.leaf 65), .node (.leaf 65) (.leaf 66), by decide +kernel, rfl, rfl,
   (eq_next (by decide +kernel)).trans (congrArg Outcome.next test_build_v1), by decide +kernel, by decide +kernel, by decide +kernel⟩

theorem witness_SaveWritesTheTable : ∃ s : State, s.Inv ∧ s.mode = .idle ∧ s.tblSink.room = none ∧ s.root ≠ none :=
  ⟨v1, by decide +kernel, rfl, rfl, by decide +kernel⟩

/-- Ten bytes to a sink for nine and for ten; then two bytes left and a sink for one, and for two. -/
theorem witness_SaveWaitsForItsSink :
    (∃ (s : State) (tr : CodeTree) (n : Nat), s.mode = .idle ∧ s.tree = .ok tr ∧ s.tblSink.room = some n ∧
      n + 1 = (tableText tr.table).length) ∧
    (∃ (s : State) (tr : CodeTree) (n : Nat), s.mode = .idle ∧ s.tree = .ok tr ∧ s.tblSink.room = some n ∧
      n = (tableText tr.table).length) ∧
    (∃ (s : State) (rest : List Byte) (n : Nat), s.mode = .busy (.save rest) ∧ s.quiet ∧ s.tblSink.room = some n ∧
      n + 1 = rest.length) ∧
    (∃ (s : State) (rest : List Byte), s.mode = .busy (.save rest) ∧ s.quiet ∧ s.tblSink.hasRoom rest.length ∧
      s.tblSink.room = some 2) ∧
    ∃ (s t : State) (p : Point), s.mode = .idle ∧ s.script = [] ∧ exec .save s = .next t ∧ t.mode = .busy p :=
  ⟨⟨{ v1 with tblSink := ⟨[], some 9⟩ }, .node (.leaf 66) (.leaf 65), 9, rfl, by decide +kernel, rfl, by decide +kernel⟩,
   ⟨{ v1 with tblSink := ⟨[], some 10⟩ }, .node (.leaf 66) (.leaf 65), 10, rfl, by decide +kernel, rfl, by decide +kernel⟩,
   ⟨{ v1 with mode := .busy (.save [0x31, LF]), tblSink := ⟨[], some 1⟩ }, [0x31, LF], 1, rfl, rfl, rfl, rfl⟩,
   ⟨{ v1 with mode := .busy (.save [0x31, LF]), tblSink := ⟨[], some 2⟩ }, [0x31, LF], rfl, rfl,
    fun m h => by cases h; decide, rfl⟩,
   ⟨{ v1 with tblSink := ⟨[], some 9⟩ }, _, .save [LF], rfl, rfl, eq_next (by decide +kernel), by decide +kernel⟩⟩

theorem witness_LoadOfEmptyTextMakesNoTree : ∃ s : State, s.mode = .idle ∧ s.root = none ∧ s.tblSrc = ⟨[], true⟩ :=
  ⟨State.reset, rfl, rfl, rfl⟩

theorem witness_LoadRebuildsTheTree :
    ∃ (s : State) (tr : CodeTree) (pairs : List (Byte × Path)), s.Inv ∧ s.mode = .idle ∧ s.root = none ∧ tr.wf ∧
      pairs.Perm tr.table ∧ pairs ≠ tr.table ∧ s.tblSrc = ⟨tableText pairs, true⟩ :=
  ⟨fresh (tableText [(65, [true]), (66, [false])]) true, .node (.leaf 66) (.leaf 65), [(65, [true]), (66, [false])],
   by decide +kernel, rfl, rfl, by decide +kernel, by decide +kernel, by decide +kernel, rfl⟩

theorem witness_SaveThenLoadKeepsTheTree :
    ∃ (s r : State) (tr : CodeTree), s.Inv ∧ s.mode = .idle ∧ s.tblSink = ⟨[], none⟩ ∧ s.tree = .ok tr ∧ tr.wf ∧
      r.Inv ∧ r.mode = .idle ∧ r.root = none ∧ r.tblSink = ⟨[], none⟩ :=
  ⟨v1, State.reset, .node (.leaf 66) (.leaf 65), by decide +kernel, rfl, rfl, by decide +kernel, by decide +kernel, by decide +kernel, rfl, rfl, rfl⟩

/-- The empty tree meets the other case of the same hypothesis. -/
theorem witness_SaveThenLoadKeepsNoTree : State.reset.tree = .ok .empty := by decide +kernel

/-- The numeral 065, and the path of 510 steps: its prefixes are 511 paths. -/
def longPath : Path := List.replicate 510 false

theorem longPath_nodes : (nodePaths [([0x30, 0x36, 0x35], longPath)]).length = 511 := by
  rw [nodePaths_singleton, List.length_inits, longPath, List.length_replicate]

theorem longPath_next : longPath ++ [false] ∉ nodePaths [([0x30, 0x36, 0x35], longPath)] := by
  rw [nodePaths_singleton, List.mem_inits]
  intro h
  have := h.length_le
  rw [List.length_append, List.length_singleton] at this
  omega

/-- The second row of R128, a path through a leaf; a table of exactly 511 nodes; and one character more. -/
theorem witness_LoadAcceptsMalformedTables :
    (∃ (s : State) (lines : List (List Byte × Path)), s.Inv ∧ s.mode = .idle ∧ s.root = none ∧
      (∀ q ∈ lines, isNumeral q.1) ∧ (nodePaths lines).length ≤ 511 ∧ s.tblSrc = ⟨lines.flatMap lineText, true⟩ ∧
      lines.length = 2) ∧
    (∃ (s : State) (lines : List (List Byte × Path)), s.Inv ∧ s.mode = .idle ∧ s.root = none ∧
      (∀ q ∈ lines, isNumeral q.1) ∧ (nodePaths lines).length = 511 ∧ s.tblSrc = ⟨lines.flatMap lineText, true⟩) ∧
    ∃ (s : State) (ds : List Byte) (p : Path) (b : Bool), s.Inv ∧ s.mode = .idle ∧ s.root = none ∧ isNumeral ds ∧
      (nodePaths ([] ++ [(ds, p)])).length = 511 ∧ p ++ [b] ∉ nodePaths ([] ++ [(ds, p)]) ∧
      s.tblSrc = ⟨[].flatMap lineText ++ ds ++ [LF] ++ p.map pathChar ++ pathChar b :: [], true⟩ :=
  ⟨⟨fresh _ true, [([0x36, 0x35], [false]), ([0x36, 0x36], [false, true])],
    by decide +kernel, rfl, rfl, by decide +kernel, by decide +kernel, rfl, rfl⟩,
   ⟨fresh _ true, [([0x30, 0x36, 0x35], longPath)], by decide +kernel, rfl, rfl, by simp; decide +kernel, longPath_nodes, rfl⟩,
   ⟨fresh _ true, [0x30, 0x36, 0x35], longPath, false, by decide +kernel, rfl, rfl, by decide +kernel, longPath_nodes,
    longPath_next, rfl⟩⟩

theorem witness_SymbolLineIsRead :
    (∃ (s : State) (ds : List Byte), s.Inv ∧ s.mode = .busy .loadPair ∧ s.script = [] ∧ (∀ d ∈ ds, isDigit d = true) ∧
      1 ≤ ds.length ∧ ds.length ≤ 3 ∧ decValue ds ≤ 255 ∧ s.tblSrc = ⟨ds ++ [LF], false⟩ ∧ s.root = none) ∧
    ∃ s : State, s.Inv ∧ s.mode = .busy .loadPair ∧ s.root = some 0 ∧ s.tblSrc = ⟨[0x30, LF], false⟩ :=
  ⟨⟨atPair [0x32, 0x35, 0x35, LF] false, [0x32, 0x35, 0x35], by decide +kernel, rfl, rfl, by decide +kernel, by decide +kernel, by decide +kernel, by decide +kernel,
    rfl, rfl⟩,
   ⟨{ atPath [0x30, LF] false with mode := .busy .loadPair }, by decide +kernel, rfl, rfl, rfl⟩⟩

/-- One text for each fault of a symbol line: a space, a fourth digit, an empty line, 256, and an end inside the line. -/
theorem witness_SymbolLineFaults :
    (isDigit 0x20 = false ∧ (0x20 : Byte) ≠ LF) ∧ (isDigit 0x30 = true ∧ [0x32, 0x35, (0x36 : Byte)].length = 3) ∧
    255 < decValue [0x32, 0x35, 0x36] ∧ (∀ d ∈ [0x32, 0x35, (0x36 : Byte)], isDigit d = true) ∧
    (atPair [0x36, 0x35] true).tblSrc = ⟨[0x36, 0x35], true⟩ ∧ (atPair [LF] true).tblSrc = ⟨[] ++ LF :: [], true⟩ := by decide +kernel

theorem witness_PathLineFaults :
    (∃ (s : State) (c : Byte) (rest : List Byte) (e : Bool), s.mode = .busy .loadPath ∧ s.script = [] ∧
      s.tblSrc = ⟨c :: rest, e⟩ ∧ c ≠ LF ∧ c ≠ digit0 ∧ c ≠ digit1) ∧
    (∃ s : State, s.mode = .busy .loadPath ∧ s.script = [] ∧ s.tblSrc = ⟨[], true⟩) ∧
    ∃ (s : State) (b : Bool) (nd : Node) (rest : List Byte) (e : Bool), s.mode = .busy .loadPath ∧ s.script = [] ∧
      s.tblSrc = ⟨pathChar b :: rest, e⟩ ∧ s.nodeCount = 511 ∧ s.arena[s.cur.val]? = some nd ∧ nd.child b = none :=
  ⟨⟨atPath [0x32] true, 0x32, [], true, rfl, rfl, rfl, by decide +kernel, by decide +kernel, by decide +kernel⟩,
   ⟨atPath [] true, rfl, rfl, rfl⟩,
   ⟨fullArena [0x31], true, innerNode none none 0, [], true, rfl, rfl, rfl, by decide +kernel, by decide +kernel, rfl⟩⟩

/-- The accepted bytes of a path line: to a child of a node that is a leaf, to a new node, the 511th among them, and LF. -/
theorem witness_PathLineFaults_accepted :
    (∃ (s : State) (b : Bool) (nd : Node) (n : Idx), s.mode = .busy .loadPath ∧ s.script = [] ∧
      s.tblSrc = ⟨[pathChar b], false⟩ ∧ s.arena[s.cur.val]? = some nd ∧ nd.child b = some n ∧ nd.sym = .symbol 65) ∧
    (∃ (s : State) (b : Bool) (nd : Node), s.mode = .busy .loadPath ∧ s.script = [] ∧
      s.tblSrc = ⟨[pathChar b], false⟩ ∧ s.arena[s.cur.val]? = some nd ∧ nd.child b = none ∧ s.nodeCount = 510) ∧
    ∃ (s : State) (nd : Node) (c : Byte), s.mode = .busy .loadPath ∧ s.script = [] ∧ s.tblSrc = ⟨[LF], false⟩ ∧
      s.arena[s.cur.val]? = some nd ∧ s.val.toNat = c.toNat :=
  ⟨⟨{ atPath [0x31] false with arena := [⟨.symbol 65, none, some 1, 0⟩, leafNode 66 0] }, true, _, 1, rfl, rfl, rfl, rfl, rfl, rfl⟩,
   ⟨{ atPath [0x30] false with arena := List.replicate 510 (innerNode none none 0) }, false, innerNode none none 0, rfl, rfl,
    rfl, by decide +kernel, rfl, by decide +kernel⟩,
   ⟨atPath [LF] false, _, 65, rfl, rfl, rfl, rfl, by decide +kernel⟩⟩

theorem witness_EncodeWritesTheCodes :
    ∃ (s : State) (l r : CodeTree) (cs : List Byte), s.mode = .idle ∧ s.tree = .ok (.node l r) ∧
      (∀ c ∈ cs, c ∈ (CodeTree.node l r).symbols) ∧ s.symSrc = ⟨cs, true⟩ ∧
      s.bitSink.hasRoom ((CodeTree.node l r).codes cs).length ∧ s.bitSink.room = some cs.length :=
  ⟨{ v1 with symSrc := ⟨[65, 66], true⟩, bitSink := ⟨[], some 2⟩ }, .leaf 66, .leaf 65, [65, 66], rfl, by decide +kernel,
   by decide +kernel, rfl, fun m h => by cases h; decide +kernel, rfl⟩

theorem witness_EncodeOfUnknownSymbolFaults :
    ∃ (s : State) (l r : CodeTree) (cs rest : List Byte) (c : Byte) (e : Bool), s.mode = .idle ∧
      s.tree = .ok (.node l r) ∧ (∀ d ∈ cs, d ∈ (CodeTree.node l r).symbols) ∧ c ∉ (CodeTree.node l r).symbols ∧
      s.symSrc = ⟨cs ++ c :: rest, e⟩ ∧ s.bitSink.hasRoom ((CodeTree.node l r).codes cs).length :=
  ⟨{ v1 with symSrc := ⟨[65, 67, 66], true⟩ }, .leaf 66, .leaf 65, [65], [66], 67, true, rfl, by decide +kernel, by decide +kernel, by decide +kernel,
   rfl, nofun⟩

theorem witness_EncodeWithoutCodesFaults :
    (∃ (s : State) (c : Byte) (rest : List Byte) (e : Bool), s.mode = .idle ∧ s.symSrc = ⟨c :: rest, e⟩ ∧ s.root = none) ∧
    (∃ (s : State) (c d : Byte) (rest : List Byte) (e : Bool), s.mode = .idle ∧ s.symSrc = ⟨c :: rest, e⟩ ∧
      s.tree = .ok (.leaf d)) ∧
    ∃ s : State, s.mode = .idle ∧ s.symSrc = ⟨[], true⟩ :=
  ⟨⟨{ State.reset with symSrc := ⟨[65], true⟩ }, 65, [], true, rfl, rfl, rfl⟩,
   ⟨{ v6 with symSrc := ⟨[120], true⟩ }, 120, 120, [], true, rfl, rfl, by decide +kernel⟩, ⟨v1, rfl, rfl⟩⟩

theorem witness_EncodedLengthIsTheCost :
    ∃ (tr : CodeTree) (cs : List Byte), tr.symbols.Nodup ∧ (∀ c ∈ cs, c ∈ tr.symbols) ∧ cs ≠ [] :=
  ⟨.node (.leaf 66) (.leaf 65), [65, 65], by decide +kernel, by decide +kernel, by decide +kernel⟩

theorem witness_CodesArePrefixFree :
    ∃ (tr : CodeTree) (c d : Byte) (p q : Path), (c, p) ∈ tr.table ∧ (d, q) ∈ tr.table ∧ p <+: q :=
  ⟨.node (.leaf 66) (.leaf 65), 66, 66, [false], [false], by decide +kernel, by decide +kernel, by decide +kernel⟩

theorem witness_CodeLengthsAreBounded :
    ∃ (tr : CodeTree) (c : Byte) (p : Path), tr.wf ∧ 2 ≤ tr.symbols.length ∧ (c, p) ∈ tr.table :=
  ⟨.node (.leaf 66) (.leaf 65), 66, [false], by decide +kernel, by decide +kernel, by decide +kernel⟩

theorem witness_DecodeInvertsEncode :
    ∃ (s : State) (l r : CodeTree) (cs : List Byte), s.mode = .idle ∧ s.tree = .ok (.node l r) ∧
      (∀ c ∈ cs, c ∈ (CodeTree.node l r).symbols) ∧ s.bitSrc = ⟨(CodeTree.node l r).codes cs, true⟩ ∧
      s.symSink.hasRoom cs.length ∧ cs ≠ [] :=
  ⟨{ v1 with bitSrc := ⟨[true, false], true⟩ }, .leaf 66, .leaf 65, [65, 66], rfl, by decide +kernel, by decide +kernel, by decide +kernel, nofun,
   by decide +kernel⟩

theorem witness_DecodeOfTruncatedStreamFaults :
    ∃ (s : State) (l r : CodeTree) (cs : List Byte) (c : Byte) (p q : Path), s.Inv ∧ s.mode = .idle ∧
      s.tree = .ok (.node l r) ∧ (∀ d ∈ cs, d ∈ (CodeTree.node l r).symbols) ∧ (c, p) ∈ (CodeTree.node l r).table ∧
      q <+: p ∧ q ≠ [] ∧ q ≠ p ∧ s.bitSrc = ⟨(CodeTree.node l r).codes cs ++ q, true⟩ ∧ s.symSink.hasRoom cs.length :=
  ⟨p4, .leaf 66, .node (.leaf 65) (.leaf 67), [66, 65], 65, [true, false], [true], by decide +kernel, rfl, by decide +kernel, by decide +kernel,
   by decide +kernel, by decide +kernel, by decide +kernel, by decide +kernel, by decide +kernel, nofun⟩

theorem witness_DecodeOfMissingChildFaults :
    ∃ (s : State) (l r l' r' : CodeTree) (cs : List Byte) (q rest : Path) (b e : Bool), s.mode = .idle ∧
      s.tree = .ok (.node l r) ∧ (∀ d ∈ cs, d ∈ (CodeTree.node l r).symbols) ∧
      (CodeTree.node l r).descend q = some (.node l' r') ∧ (if b then r' else l') = .empty ∧
      s.bitSrc = ⟨(CodeTree.node l r).codes cs ++ q ++ b :: rest, e⟩ ∧ s.symSink.hasRoom cs.length :=
  ⟨{ v9 with bitSrc := ⟨[false, true], true⟩ }, .leaf 65, .empty, .leaf 65, .empty, [65], [], [], true, true, rfl, by decide +kernel,
   by decide +kernel, by decide +kernel, by decide +kernel, by decide +kernel, nofun⟩

theorem witness_DecodeWithoutCodes :
    (∃ (s : State) (b : Bool) (bs : List Bool) (e : Bool), s.mode = .idle ∧ s.bitSrc = ⟨b :: bs, e⟩ ∧ s.root = none) ∧
    (∃ (s : State) (b : Bool) (bs : List Bool) (e : Bool) (d : Byte), s.mode = .idle ∧ s.bitSrc = ⟨b :: bs, e⟩ ∧
      s.tree = .ok (.leaf d)) ∧
    (∃ s : State, s.mode = .idle ∧ s.bitSrc = ⟨[], true⟩ ∧ s.root = none) ∧
    ∃ (s : State) (d : Byte), s.mode = .idle ∧ s.bitSrc = ⟨[], true⟩ ∧ s.tree = .ok (.leaf d) :=
  ⟨⟨{ State.reset with bitSrc := ⟨[true], true⟩ }, true, [], true, rfl, rfl, rfl⟩,
   ⟨{ v6 with bitSrc := ⟨[false], true⟩ }, false, [], true, 120, rfl, rfl, by decide +kernel⟩,
   ⟨State.reset, rfl, rfl, rfl⟩, ⟨v6, 120, rfl, rfl, by decide +kernel⟩⟩

theorem witness_DecodeEmitsLeafSymbols :
    ∃ (s t : State) (tr : CodeTree), s.mode = .idle ∧ s.tree = .ok tr ∧ exec .decode s = .next t :=
  ⟨p4, _, .node (.leaf 66) (.node (.leaf 65) (.leaf 67)), rfl, by decide +kernel, eq_next (by decide +kernel)⟩

theorem witness_StreamCommandFrames :
    (∃ s t : State, exec .save s = .next t) ∧ (∃ s t : State, exec .encode s = .next t) ∧
    (∃ s t : State, exec .decode s = .next t) ∧
    ∀ i ∈ [Instr.save, .encode, .decode], ∃ (s t : State) (p : Point), s.mode = .busy p ∧ s.quiet ∧ step s = .next t ∧
      p.command = i ∧ t.mode = .idle := by
  refine ⟨⟨v1, _, eq_next (by decide +kernel)⟩, ⟨{ v1 with symSrc := ⟨[65], true⟩ }, _, eq_next (by decide +kernel)⟩,
    ⟨p4, _, eq_next (by decide +kernel)⟩, fun i hi => ?_⟩
  simp only [List.mem_cons, List.not_mem_nil, or_false] at hi
  rcases hi with rfl | rfl | rfl
  · exact ⟨{ v1 with mode := .busy (.save [LF]) }, _, _, rfl, rfl, eq_next (by decide +kernel), rfl, by decide +kernel⟩
  · exact ⟨{ v1 with mode := .busy (.encode [true]) }, _, _, rfl, rfl, eq_next (by decide +kernel), rfl, by decide +kernel⟩
  · exact ⟨{ v1 with mode := .busy .decode, cur := 1 }, _, _, rfl, rfl, eq_next (by decide +kernel), rfl, by decide +kernel⟩

/-- A stream action of the host next, in BUSY and in FAULT. -/
theorem witness_StreamCommandFrames_host :
    (∃ (s : State) (us : List Byte) (e : Bool), s.mode = .busy .loadPair ∧ s.script = .tblIn us e :: []) ∧
    ∃ (s : State) (m : Option Nat), s.mode = .fault ∧ s.script = .bitRoom m :: [] :=
  ⟨⟨{ atPair [] false with script := [.tblIn [LF] true] }, [LF], true, rfl, rfl⟩,
   ⟨{ faulted with script := [.bitRoom (some 3)] }, some 3, rfl, rfl⟩⟩

theorem witness_TreeCommandFrames :
    (∃ s t : State, exec .build s = .next t) ∧ (∃ s t : State, exec .load s = .next t ∧ s.arena = []) ∧
    ∃ (s t : State) (p : Point), s.mode = .busy p ∧ p.command = .load ∧ s.quiet ∧ step s = .next t ∧ t.mode = .fault :=
  ⟨⟨v1Table, _, eq_next (by decide +kernel)⟩,
   ⟨fresh [0x36, 0x35, 0x0A, 0x30, 0x0A] true, _, eq_next (by decide +kernel), rfl⟩,
   ⟨atPath [] true, _, .loadPath, rfl, rfl, rfl, eq_next (by decide +kernel), by decide +kernel⟩⟩

theorem witness_CompressThenDecompress :
    ∃ (s r : State) (cs : List Byte), s.Inv ∧ r.Inv ∧ s.mode = .idle ∧ r.mode = .idle ∧ s.root = none ∧ r.root = none ∧
      s.outputsReady ∧ r.outputsReady ∧ s.tblSink.written = [] ∧ s.bitSink.written = [] ∧ s.symSrc = ⟨cs, true⟩ ∧
      (∀ c : Byte, (s.freqOf c).toNat = cs.count c) ∧ ∃ a ∈ cs, ∃ b ∈ cs, a ≠ b :=
  ⟨{ State.reset with freq := [(65, 2), (66, 1)], symSrc := ⟨[65, 66, 65], true⟩ }, State.reset, [65, 66, 65],
   by decide +kernel, by decide +kernel, rfl, rfl, rfl, rfl, by decide +kernel, by decide +kernel, rfl, rfl, rfl, by decide +kernel, by decide +kernel⟩

end Sys2Proof.Tests
end

section
/-! PROOFS. What an accepted command runs, and the three things a step can be. -/

namespace Sys2Proof.Machine

open Sys2Proof Host

/-- What a command runs when IDLE accepts it; `exec_of_idle` ties it to `exec`. -/
def body (i : Instr) (s : State) : Except Fault State :=
  match i with
  | .nop => .ok s.done
  | .build => s.buildBody
  | .save => s.saveBody
  | .load => s.loadBody
  | .encode => s.encodeBody
  | .decode => s.decodeBody
  | .reserved6 => .ok (s.raise .illegalCmd 6#9)
  | .reset => .ok s.toReset

/-- Every command but RESET is subject to acceptance (R165). -/
theorem exec_eq_accept {i : Instr} (h : i ≠ .reset) (s : State) : exec i s = s.accept (body i) := by
  cases i
  case reset => exact absurd rfl h
  all_goals rfl

/-- In IDLE every command runs its body. -/
theorem exec_of_idle {s : State} (h : s.mode = .idle) (i : Instr) : exec i s = toOutcome (body i s) := by
  by_cases hi : i = .reset
  · subst hi
    simp only [exec, execReset, h]
    rfl
  · rw [exec_eq_accept hi, State.accept_idle h]

/-- Outside IDLE a command changes nothing, unless it is RESET. -/
theorem exec_of_not_idle {s : State} (h : s.mode ≠ .idle) {i : Instr} (hi : i ≠ .reset) : exec i s = .next s := by
  rw [exec_eq_accept hi, State.accept_not_idle h]

/-- RESET clears the registers, or in BUSY is not accepted. -/
theorem exec_reset_cases (s : State) : exec .reset s = .next s.toReset ∨ exec .reset s = .next s := by
  simp only [exec, execReset]
  cases s.mode <;> simp

/-- A step runs a command word, or takes another action of the host, or lets a waiting command go on. -/
theorem step_cases (s : State) :
    (∃ op rest, nextAct s.takes s.script = some (.cmd op, rest) ∧
      step s = exec (decodeOp op) { s with script := rest }) ∨
    (∃ a rest, nextAct s.takes s.script = some (a, rest) ∧ step s = .next ({ s with script := rest }.hostAct a)) ∨
    (s.quiet ∧ step s = toOutcome s.resume) := by
  cases hn : nextAct s.takes s.script with
  | none => exact .inr (.inr ⟨hn, step_of_quiet hn⟩)
  | some p =>
    obtain ⟨a, rest⟩ := p
    cases a
    case cmd op => exact .inl ⟨op, rest, rfl, by simp only [step, hn]⟩
    all_goals exact .inr (.inl ⟨_, rest, rfl, by simp only [step, hn]⟩)

end Sys2Proof.Machine
end

section
/-! PROOFS. O1, O51 and O22: the reset state, codes none of which begins another, and what the commands that run on a
finished tree leave alone. -/

namespace Sys2Proof.Machine

open Sys2Proof Host

/-- Settles O1: each value is read off the reset state, STATUS among them. -/
theorem resetLeavesIdleWithoutTree : Obligations.ResetLeavesIdleWithoutTree :=
  ⟨rfl, rfl, rfl, rfl, rfl, fun _ => rfl, rfl⟩

/-- Membership in the table of a node, by the first step of the path. -/
theorem CodeTree.mem_table_node {l r : CodeTree} {c : Byte} {p : Path} :
    (c, p) ∈ (CodeTree.node l r).table ↔ ∃ b q, p = b :: q ∧ (c, q) ∈ (if b then r else l).table := by
  rw [CodeTree.table_node, List.mem_append, List.mem_map, List.mem_map]
  constructor
  · rintro (⟨⟨d, q⟩, hq, heq⟩ | ⟨⟨d, q⟩, hq, heq⟩) <;> cases heq
    · exact ⟨false, q, rfl, hq⟩
    · exact ⟨true, q, rfl, hq⟩
  · rintro ⟨b, q, rfl, hq⟩
    cases b
    · exact .inl ⟨(c, q), hq, rfl⟩
    · exact .inr ⟨(c, q), hq, rfl⟩

/-- Settles O51, by induction on the tree: two paths of a node of which one is a beginning of the other start in the same
child. -/
theorem codesArePrefixFree : Obligations.CodesArePrefixFree := by
  intro tr c d
  induction tr with
  | empty => intro p q hp; cases hp
  | leaf e =>
    intro p q hp hq _
    cases List.mem_singleton.1 hp
    cases List.mem_singleton.1 hq
    exact ⟨rfl, rfl⟩
  | node l r hl hr =>
    intro p q hp hq hpq
    obtain ⟨b, p', rfl, hp'⟩ := CodeTree.mem_table_node.1 hp
    obtain ⟨b', q', rfl, hq'⟩ := CodeTree.mem_table_node.1 hq
    obtain ⟨rfl, hpq'⟩ := List.cons_prefix_cons.1 hpq
    have hcd : c = d ∧ p' = q' := by
      cases b
      · exact hl p' q' hp' hq' hpq'
      · exact hr p' q' hp' hq' hpq'
    exact ⟨hcd.1, congrArg _ hcd.2⟩

/-! ### Frames of ENCODE and DECODE -/

/-- What ENCODE's loop leaves alone (R60). -/
theorem encodeSyms_frame {cs : List Byte} {s t : State} (h : encodeSyms cs s = .ok t) :
    t = { s with mode := t.mode, err := t.err, errInfo := t.errInfo, symSrc := ⟨t.symSrc.units, s.symSrc.ended⟩,
                 bitSink := t.bitSink } := by
  induction cs generalizing s with
  | nil =>
    simp only [encodeSyms] at h
    split at h <;> cases h <;> rfl
  | cons c cs ih =>
    by_cases hr : s.encodeReady = true
    · rw [encodeSyms_cons hr] at h
      obtain ⟨u, hu, h⟩ := bind_eq_ok.1 h
      rw [ih h, State.encodeSym_frame hu]
    · rw [encodeSyms_stopped (by simpa using hr)] at h
      cases h
      rfl

/-- What DECODE's loop leaves alone (R60). -/
theorem decodeBits_frame {bs : List Bool} {s t : State} (h : decodeBits bs s = .ok t) :
    t = { s with mode := t.mode, err := t.err, errInfo := t.errInfo, cur := t.cur,
                 bitSrc := ⟨t.bitSrc.units, s.bitSrc.ended⟩, symSink := t.symSink } := by
  have htop : ∀ s u : State, s.decodeTop = .ok (some u) → u = { s with cur := u.cur, symSink := u.symSink } := by
    intro s u hu
    obtain ⟨nd, -, ⟨-, hu⟩ | ⟨c, r, rd, -, -, -, -, ⟨-, hu⟩ | ⟨-, hu⟩⟩⟩ := State.decodeTop_eq_ok hu <;> cases hu <;> rfl
  induction bs generalizing s with
  | nil =>
    rw [decodeBits_nil] at h
    obtain ⟨o, ho, h⟩ := bind_eq_ok.1 h
    cases o with
    | none => cases h; rfl
    | some u =>
      have hend : u.decodeEnd =
          { u with mode := u.decodeEnd.mode, err := u.decodeEnd.err, errInfo := u.decodeEnd.errInfo } := by
        unfold State.decodeEnd
        split <;> [split <;> rfl; rfl]
      cases h
      rw [hend, htop s u ho]
  | cons b bs ih =>
    rw [decodeBits_cons] at h
    obtain ⟨o, ho, h⟩ := bind_eq_ok.1 h
    cases o with
    | none => cases h; rfl
    | some u =>
      obtain ⟨v, hv, h⟩ := bind_eq_ok.1 h
      have hbit : v = { u with mode := v.mode, err := v.err, errInfo := v.errInfo, cur := v.cur,
                               bitSrc := ⟨bs, u.bitSrc.ended⟩ } := by
        obtain ⟨nd, -, ⟨-, rfl⟩ | ⟨n, -, rfl⟩⟩ := State.decodeBit_eq_ok hv <;> rfl
      have hloop : t = { v with mode := t.mode, err := t.err, errInfo := t.errInfo, cur := t.cur,
                                bitSrc := ⟨t.bitSrc.units, v.bitSrc.ended⟩, symSink := t.symSink } := by
        split at h
        · cases h; rfl
        · exact ih h
      rw [hloop, hbit, htop s u ho]

/-- DECODE's first tests leave everything but the fault registers and the mode alone. -/
theorem State.decodeProbe_frame (s : State) :
    s.decodeProbe = { s with mode := s.decodeProbe.mode, err := s.decodeProbe.err, errInfo := s.decodeProbe.errInfo } := by
  unfold State.decodeProbe
  split <;> [rfl; split <;> rfl]

/-! ### O22 -/

/-- A state has the root and the arena of another. -/
abbrev SameTree (s t : State) : Prop := t.root = s.root ∧ t.arena = s.arena

theorem encodeRun_sameTree {s t : State} {rest : Path} (h : s.encodeRun rest = .ok t) : SameTree s t := by
  rw [encodeSyms_frame h]
  exact ⟨rfl, rfl⟩

theorem decodeRun_sameTree {s t : State} (h : s.decodeRun = .ok t) : SameTree s t := by
  rw [decodeBits_frame h]
  exact ⟨rfl, rfl⟩

theorem decodeProbe_sameTree (s : State) : SameTree s s.decodeProbe := by
  rw [State.decodeProbe_frame]
  exact ⟨rfl, rfl⟩

/-- With a tree, a command other than RESET leaves it as it is: BUILD and LOAD test `root` first (R166). -/
theorem body_sameTree {i : Instr} {s t : State} {r : Idx} (hi : i ≠ .reset) (hr : s.root = some r)
    (h : body i s = .ok t) : SameTree s t := by
  cases i
  case nop => cases h; exact ⟨rfl, rfl⟩
  case build => simp only [body, State.buildBody, hr] at h; cases h; exact ⟨rfl, rfl⟩
  case save =>
    obtain ⟨tr, -, h⟩ := bind_eq_ok.1 h
    cases h
    exact ⟨rfl, rfl⟩
  case load => simp only [body, State.loadBody, hr] at h; cases h; exact ⟨rfl, rfl⟩
  case encode => exact encodeRun_sameTree h
  case decode =>
    change s.decodeBody = .ok t at h
    unfold State.decodeBody at h
    split at h
    · cases h; exact decodeProbe_sameTree s
    · obtain ⟨nd, -, h⟩ := bind_eq_ok.1 h
      split at h
      · cases h; exact decodeProbe_sameTree s
      · exact (decodeRun_sameTree h :)
  case reserved6 => cases h; exact ⟨rfl, rfl⟩
  case reset => exact absurd rfl hi

/-- A waiting command other than LOAD leaves the tree as it is. -/
theorem resume_sameTree {s t : State} (hl : s.loading = false) (h : s.resume = .ok t) : SameTree s t := by
  unfold State.loading at hl
  unfold State.resume at h
  split at h
  case h_1 => cases h; exact ⟨rfl, rfl⟩
  case h_2 => cases h; exact ⟨rfl, rfl⟩
  case h_3 => cases h; exact ⟨rfl, rfl⟩
  case h_7 => exact encodeRun_sameTree h
  case h_8 => cases h; exact decodeProbe_sameTree s
  case h_9 => exact decodeRun_sameTree h
  all_goals simp [*] at hl

/-- The word of RESET (R71). -/
theorem decodeOp_eq_reset : ∀ op : BitVec 3, decodeOp op = .reset → op = 7#3 := by decide

/-- Settles O22, by what a step can be: only a reset replaces the tree. -/
theorem treeIsImmutableUntilReset : Obligations.TreeIsImmutableUntilReset := by
  intro s t r hr hl h
  have hreset : ∀ a rest, nextAct s.takes s.script = some (a, rest) → (a = .rst ∨ a = .cmd 7#3) →
      t = { s with script := rest }.toReset →
      t = { s with script := t.script }.toReset ∧
        ∃ pre a post, s.script = pre ++ a :: post ∧ t.script = pre ++ post ∧ (a = .rst ∨ a = .cmd 7#3) := by
    rintro a rest hn ha rfl
    obtain ⟨-, pre, post, hs, hrest, -⟩ := nextAct_eq_some hn
    exact ⟨rfl, pre, a, post, hs, hrest, ha⟩
  obtain ⟨op, rest, hn, hs⟩ | ⟨a, rest, hn, hs⟩ | ⟨-, hs⟩ := step_cases s <;> rw [hs] at h
  · by_cases hi : decodeOp op = .reset
    · have hop : op = 7#3 := decodeOp_eq_reset op hi
      rw [hi] at h
      obtain hx | hx := exec_reset_cases { s with script := rest } <;> rw [hx] at h <;> cases h
      · exact .inr (hreset _ rest hn (.inr (congrArg _ hop)) rfl)
      · exact .inl ⟨rfl, rfl⟩
    · rw [exec_eq_accept hi] at h
      obtain ⟨-, h⟩ | ⟨-, rfl⟩ := State.accept_eq_next h
      · exact .inl (body_sameTree (s := { s with script := rest }) hi hr h)
      · exact .inl ⟨rfl, rfl⟩
  · cases h
    cases a
    case rst => exact .inr (hreset _ rest hn (.inl rfl) rfl)
    all_goals exact .inl ⟨rfl, rfl⟩
  · exact .inl (resume_sameTree hl (toOutcome_eq_next.1 h))

end Sys2Proof.Machine
end

section
/-! PROOFS. The arena's links: how each write of the arena changes them, what the invariant of 10_state.md R20 says entry by
entry, and that an arena that meets it denotes a tree. -/

namespace Sys2Proof.Machine

open Sys2Proof Host

/-! ### Links -/

theorem Node.mem_links {nd : Node} {c : Idx} : c ∈ nd.links ↔ ∃ b, nd.child b = some c := by
  simp [Node.links, Node.child, Bool.exists_bool]

theorem Node.child_mem_links {nd : Node} {b : Bool} {c : Idx} (h : nd.child b = some c) : c ∈ nd.links :=
  Node.mem_links.2 ⟨b, h⟩

/-- A link written where there was none is one link more. -/
theorem Node.setChild_links {nd : Node} {b : Bool} (h : nd.child b = none) (n : Idx) :
    (nd.setChild b (some n)).links.Perm (n :: nd.links) := by
  cases b
  · have hl : nd.left = none := h
    simp [Node.links, Node.setChild, hl]
  · have hr : nd.right = none := h
    simp [Node.links, Node.setChild, hr, List.perm_append_singleton]

@[simp] theorem childLinks_nil : childLinks [] = [] := rfl

@[simp] theorem childLinks_append (a b : List Node) : childLinks (a ++ b) = childLinks a ++ childLinks b := by
  simp [childLinks]

@[simp] theorem childLinks_singleton (nd : Node) : childLinks [nd] = nd.links := by
  simp [childLinks]

theorem mem_childLinks {arena : List Node} {c : Idx} :
    c ∈ childLinks arena ↔ ∃ (i : Nat) (nd : Node), arena[i]? = some nd ∧ c ∈ nd.links := by
  rw [childLinks, List.mem_flatMap]
  constructor
  · rintro ⟨nd, hnd, hc⟩
    obtain ⟨i, hi⟩ := List.mem_iff_getElem?.1 hnd
    exact ⟨i, nd, hi, hc⟩
  · rintro ⟨i, nd, hi, hc⟩
    exact ⟨nd, List.mem_of_getElem? hi, hc⟩

/-- A record with one link more in place of another is one link more in the arena. -/
theorem childLinks_set {arena : List Node} {i : Nat} {nd nd' : Node} {n : Idx} (hi : arena[i]? = some nd)
    (h : nd'.links.Perm (n :: nd.links)) : (childLinks (arena.set i nd')).Perm (n :: childLinks arena) := by
  induction arena generalizing i with
  | nil => simp at hi
  | cons x xs ih =>
    cases i with
    | zero =>
      cases hi
      exact h.append_right (childLinks xs)
    | succ i => exact ((ih hi).append_left x.links).trans List.perm_middle

/-! ### The two numberings -/

theorem childrenFirst_iff {arena : List Node} :
    childrenFirst arena ↔ ∀ (i : Nat) (nd : Node), arena[i]? = some nd → ∀ c ∈ nd.links, c.val < i := by
  simp only [childrenFirst, Prod.forall, List.mem_zipIdx_iff_getElem?]
  exact ⟨fun h i nd => h nd i, fun h nd i => h i nd⟩

theorem parentsFirst_iff {arena : List Node} :
    parentsFirst arena ↔ ∀ (i : Nat) (nd : Node), arena[i]? = some nd → ∀ c ∈ nd.links, i < c.val := by
  simp only [parentsFirst, Prod.forall, List.mem_zipIdx_iff_getElem?]
  exact ⟨fun h i nd => h nd i, fun h nd i => h i nd⟩

/-- The entries of an arena with one more record. -/
theorem getElem?_append_singleton_eq_some {arena : List Node} {nd x : Node} {i : Nat} :
    (arena ++ [nd])[i]? = some x ↔ arena[i]? = some x ∨ (i = arena.length ∧ nd = x) := by
  rcases Nat.lt_trichotomy i arena.length with hi | rfl | hi
  · simp [List.getElem?_append_left hi, Nat.ne_of_lt hi]
  · simp
  · simp [List.getElem?_eq_none (Nat.le_of_lt hi), List.getElem?_append_right (Nat.le_of_lt hi),
      List.getElem?_eq_none (show [nd].length ≤ i - arena.length by simp; omega), Nat.ne_of_gt hi]

/-- A new last record whose links are below it keeps BUILD's numbering. -/
theorem childrenFirst_append {arena : List Node} {nd : Node} (h : childrenFirst arena)
    (hnd : ∀ c ∈ nd.links, c.val < arena.length) : childrenFirst (arena ++ [nd]) := by
  refine childrenFirst_iff.2 fun i x hx c hc => ?_
  obtain hx | ⟨hi, rfl⟩ := getElem?_append_singleton_eq_some.1 hx
  · exact childrenFirst_iff.1 h i x hx c hc
  · exact hi ▸ hnd c hc

/-! ### The clauses of R20 -/

/-- R20 items 1 and 2 without the root: the arena fits, its links are allocated, and no entry has two parents. -/
structure Linked (arena : List Node) : Prop where
  cap : arena.length ≤ Config.nodeCap
  bound : ∀ c ∈ childLinks arena, c.val < arena.length
  nodup : (childLinks arena).Nodup

/-- The invariant of the arena, with what it says of the root apart. -/
theorem arenaInv_iff {s : State} : s.arenaInv ↔
    Linked s.arena ∧ (s.root = none ↔ s.arena = []) ∧
    (∀ r, s.root = some r → r.val < s.nodeCount ∧ r ∉ childLinks s.arena) ∧
    (childrenFirst s.arena ∨ parentsFirst s.arena) := by
  constructor
  · rintro ⟨hcap, hroot, hrb, hb, hd, hrc, ho⟩
    exact ⟨⟨hcap, hb, hd⟩, hroot, fun r hr => ⟨hrb r (by simp [hr]), hrc r (by simp [hr])⟩, ho⟩
  · rintro ⟨⟨hcap, hb, hd⟩, hroot, hr, ho⟩
    refine ⟨hcap, hroot, fun r h => ?_, hb, hd, fun r h => ?_, ho⟩
    · exact (hr r (by simpa using h)).1
    · exact (hr r (by simpa using h)).2

theorem arenaInv_linked {s : State} (h : s.arenaInv) : Linked s.arena := (arenaInv_iff.1 h).1

theorem arenaInv_root {s : State} (h : s.arenaInv) {r : Idx} (hr : s.root = some r) :
    r.val < s.nodeCount ∧ r ∉ childLinks s.arena :=
  (arenaInv_iff.1 h).2.2.1 r hr

theorem arenaInv_order {s : State} (h : s.arenaInv) : childrenFirst s.arena ∨ parentsFirst s.arena :=
  (arenaInv_iff.1 h).2.2.2

theorem arenaInv_empty {s : State} (h : s.arenaInv) (hr : s.root = none) : s.arena = [] :=
  (arenaInv_iff.1 h).2.1.1 hr

/-- Arenas with the same links have the same links entry by entry. -/
theorem getElem?_of_links {arena arena' : List Node} (hl : arena'.map Node.links = arena.map Node.links)
    {i : Nat} {nd : Node} (hi : arena'[i]? = some nd) : ∃ nd', arena[i]? = some nd' ∧ nd'.links = nd.links := by
  have := congrArg (·[i]?) hl
  simpa [hi] using this.symm

theorem childrenFirst_of_links {arena arena' : List Node} (h : childrenFirst arena)
    (hl : arena'.map Node.links = arena.map Node.links) : childrenFirst arena' := by
  refine childrenFirst_iff.2 fun i nd hi c hc => ?_
  obtain ⟨nd', hi', he⟩ := getElem?_of_links hl hi
  exact childrenFirst_iff.1 h i nd' hi' c (he ▸ hc)

theorem parentsFirst_of_links {arena arena' : List Node} (h : parentsFirst arena)
    (hl : arena'.map Node.links = arena.map Node.links) : parentsFirst arena' := by
  refine parentsFirst_iff.2 fun i nd hi c hc => ?_
  obtain ⟨nd', hi', he⟩ := getElem?_of_links hl hi
  exact parentsFirst_iff.1 h i nd' hi' c (he ▸ hc)

/-- The invariant of the arena is about the root and the links alone. -/
theorem arenaInv_of_links {s t : State} (h : s.arenaInv) (hr : t.root = s.root)
    (hl : t.arena.map Node.links = s.arena.map Node.links) : t.arenaInv := by
  have hlen : t.arena.length = s.arena.length := by simpa using congrArg List.length hl
  have hc : childLinks t.arena = childLinks s.arena := by
    simp only [childLinks, List.flatMap_def, hl]
  obtain ⟨⟨hcap, hb, hd⟩, hroot, hrt, ho⟩ := arenaInv_iff.1 h
  refine arenaInv_iff.2 ⟨⟨by omega, by rwa [hc, hlen], by rwa [hc]⟩, ?_, ?_,
    ho.imp (childrenFirst_of_links · hl) (parentsFirst_of_links · hl)⟩
  · rw [hr, hroot, ← List.length_eq_zero_iff, ← List.length_eq_zero_iff, hlen]
  · rw [hr, hc]
    exact fun r h => ⟨(hrt r h).1.trans_eq hlen.symm, (hrt r h).2⟩

/-! ### The tree of an arena -/

/-- Where some rank falls along every link, the walk answers from each link whose rank is below its bound. -/
theorem treeAt_of_rank {arena : List Node} {rank : Nat → Nat}
    (hrank : ∀ (i : Nat) (nd : Node), arena[i]? = some nd → ∀ c ∈ nd.links, c.val < arena.length ∧ rank c.val < rank i)
    {n : Nat} {l : Link} (hl : ∀ i, l = some i → i.val < arena.length ∧ rank i.val < n) :
    ∃ t, treeAt n arena l = .ok t := by
  induction n generalizing l with
  | zero =>
    cases l with
    | none => exact ⟨_, treeAt_none 0 arena⟩
    | some i => exact absurd (hl i rfl).2 (Nat.not_lt_zero _)
  | succ n ih =>
    cases l with
    | none => exact ⟨_, treeAt_none _ arena⟩
    | some i =>
      obtain ⟨hi, hn⟩ := hl i rfl
      have hnd := readNode_of_lt hi
      have hchild : ∀ b, ∃ t, treeAt n arena (arena[i.val].child b) = .ok t := fun b => ih fun c hc => by
        have := hrank i.val _ (readNode_eq_ok.1 hnd) c (Node.child_mem_links hc)
        omega
      cases hs : arena[i.val].sym with
      | symbol c => exact ⟨_, treeAt_leaf hnd hs⟩
      | sentinel =>
        obtain ⟨x, hx⟩ := hchild false
        obtain ⟨y, hy⟩ := hchild true
        exact ⟨_, treeAt_node hnd hs hx hy⟩

/-- Below an allocated entry, or at NIL, an arena that meets the invariant has a tree (R20 item 2). -/
theorem treeAt_of_arenaInv {s : State} (h : s.arenaInv) {l : Link} (hl : ∀ i, l = some i → i.val < s.nodeCount) :
    ∃ t, treeAt s.nodeCount s.arena l = .ok t := by
  have hb : ∀ (i : Nat) (nd : Node), s.arena[i]? = some nd → ∀ c ∈ nd.links, c.val < s.arena.length := fun i nd hi c hc =>
    (arenaInv_linked h).bound c (mem_childLinks.2 ⟨i, nd, hi, hc⟩)
  rcases arenaInv_order h with ho | ho
  · refine treeAt_of_rank (rank := id) (fun i nd hi c hc => ⟨hb i nd hi c hc, ?_⟩) fun i hi => ⟨hl i hi, hl i hi⟩
    exact childrenFirst_iff.1 ho i nd hi c hc
  · refine treeAt_of_rank (rank := fun i => s.arena.length - 1 - i) (fun i nd hi c hc => ⟨hb i nd hi c hc, ?_⟩)
      fun i hi => ⟨hl i hi, ?_⟩
    · have hc' := hb i nd hi c hc
      have hic := parentsFirst_iff.1 ho i nd hi c hc
      show s.arena.length - 1 - c.val < s.arena.length - 1 - i
      omega
    · have hi' : i.val < s.arena.length := hl i hi
      show s.arena.length - 1 - i.val < s.arena.length
      omega

/-- The entries reachable from the root form a tree (R20 item 2). -/
theorem tree_of_arenaInv {s : State} (h : s.arenaInv) : ∃ tr, s.tree = .ok tr :=
  treeAt_of_arenaInv h fun _ hr => (arenaInv_root h hr).1

/-- A bound that is enough for the walk of a tree is enough to find its entries. -/
theorem inTree_of_treeAt {n m : Nat} {arena : List Node} {l : Link} {k : Idx} {t : CodeTree}
    (ht : treeAt n arena l = .ok t) (h : inTree m arena l k = true) : inTree n arena l k = true := by
  induction n generalizing m l t with
  | zero =>
    cases l with
    | none => cases m <;> simp [inTree] at h
    | some i => simp [treeAt] at ht
  | succ n ih =>
    cases l with
    | none => cases m <;> simp [inTree] at h
    | some i =>
      cases m with
      | zero => simp [inTree] at h
      | succ m =>
        obtain ⟨nd, hnd, ⟨c, hc, -⟩ | ⟨x, y, hs, hx, hy, -⟩⟩ := treeAt_some_eq_ok ht
        · simpa only [inTree, hnd, hc] using h
        · simp only [inTree, hnd, hs, Bool.or_eq_true] at h ⊢
          exact h.imp_right (Or.imp (ih hx) (ih hy))

end Sys2Proof.Machine
end

section
/-! PROOFS. What the tree as a value says of the root and of STATUS, and the cases of the single steps of ENCODE, DECODE and
LOAD: one equation for each. -/

namespace Sys2Proof.Machine

open Sys2Proof Host

theorem Node.isLeaf_eq_false {nd : Node} : nd.isLeaf = false ↔ nd.sym = .sentinel := by
  unfold Node.isLeaf
  cases nd.sym <;> simp

/-! ### Reads of the tree -/

/-- What an entry's tree says of its record: a leaf's symbol, or the children's trees. -/
theorem treeAt_entry {n : Nat} {arena : List Node} {i : Idx} {t : CodeTree} (h : treeAt n arena (some i) = .ok t) :
    ∃ nd, readNode arena i = .ok nd ∧
      ((∃ c, nd.sym = .symbol c ∧ t = .leaf c) ∨
       ∃ l r, nd.sym = .sentinel ∧ t = .node l r ∧ ∀ b, treeAt n arena (nd.child b) = .ok (if b then r else l)) := by
  cases n with
  | zero => cases h
  | succ n =>
    obtain ⟨nd, hnd, hleaf | ⟨l, r, hs, hl, hr, rfl⟩⟩ := treeAt_some_eq_ok h
    · exact ⟨nd, hnd, .inl hleaf⟩
    · refine ⟨nd, hnd, .inr ⟨l, r, hs, rfl, fun b => ?_⟩⟩
      cases b
      · exact treeAt_mono (Nat.le_succ n) hl
      · exact treeAt_mono (Nat.le_succ n) hr

/-- Only NIL has the empty tree. -/
theorem treeAt_eq_empty {n : Nat} {arena : List Node} {k : Link} : treeAt n arena k = .ok .empty ↔ k = none := by
  refine ⟨fun h => ?_, fun h => by rw [h, treeAt_none]⟩
  cases k with
  | none => rfl
  | some i => obtain ⟨nd, -, ⟨c, -, ht⟩ | ⟨l, r, -, ht, -⟩⟩ := treeAt_entry h <;> cases ht

theorem root_of_empty {s : State} : s.tree = .ok .empty ↔ s.root = none := treeAt_eq_empty

/-- What the tree says of the root when it is not empty. -/
theorem root_of_tree {s : State} {tr : CodeTree} (h : s.tree = .ok tr) (hne : tr ≠ .empty) :
    ∃ r nd, s.root = some r ∧ readNode s.arena r = .ok nd ∧
      ((∃ c, nd.sym = .symbol c ∧ tr = .leaf c) ∨ ∃ x y, nd.sym = .sentinel ∧ tr = .node x y) := by
  cases hr : s.root with
  | none => exact absurd (Except.ok.inj (h.symm.trans (root_of_empty.2 hr))) hne
  | some r =>
    have ht : treeAt s.arena.length s.arena (some r) = .ok tr := hr ▸ h
    obtain ⟨nd, hnd, hleaf | ⟨x, y, hs, hxy, -⟩⟩ := treeAt_entry ht
    · exact ⟨r, nd, rfl, hnd, .inl hleaf⟩
    · exact ⟨r, nd, rfl, hnd, .inr ⟨x, y, hs, hxy⟩⟩

/-- The root of a single leaf. -/
theorem root_of_leaf {s : State} {d : Byte} (h : s.tree = .ok (.leaf d)) :
    ∃ r nd, s.root = some r ∧ readNode s.arena r = .ok nd ∧ nd.sym = .symbol d := by
  obtain ⟨r, nd, hr, hnd, ⟨c, hs, hc⟩ | ⟨x, y, -, hxy⟩⟩ := root_of_tree h nofun
  · cases hc; exact ⟨r, nd, hr, hnd, hs⟩
  · cases hxy

/-- The root of a tree with two children. -/
theorem root_of_node {s : State} {x y : CodeTree} (h : s.tree = .ok (.node x y)) :
    ∃ r nd, s.root = some r ∧ readNode s.arena r = .ok nd ∧ nd.sym = .sentinel := by
  obtain ⟨r, nd, hr, hnd, ⟨c, -, hc⟩ | ⟨x', y', hs, -⟩⟩ := root_of_tree h nofun
  · cases hc
  · exact ⟨r, nd, hr, hnd, hs⟩

theorem innerRoot_iff {s : State} :
    s.innerRoot = true ↔ ∃ r nd, s.root = some r ∧ readNode s.arena r = .ok nd ∧ nd.sym = .sentinel := by
  unfold State.innerRoot
  constructor
  · intro h
    split at h
    · cases h
    next r hr =>
      split at h
      next nd hnd =>
        refine ⟨r, nd, hr, readNode_eq_ok.2 hnd, ?_⟩
        cases hs : nd.sym with
        | symbol c => simp [Node.isLeaf, hs] at h
        | sentinel => rfl
      next => cases h
  · rintro ⟨r, nd, hr, hnd, hs⟩
    simp [hr, readNode_eq_ok.1 hnd, Node.isLeaf, hs]

/-- The root is no leaf exactly when the tree is a node of two trees. -/
theorem innerRoot_iff_node {s : State} {tr : CodeTree} (h : s.tree = .ok tr) :
    s.innerRoot = true ↔ ∃ x y, tr = .node x y := by
  rw [innerRoot_iff]
  constructor
  · rintro ⟨r, nd, hr, hnd, hs⟩
    cases tr with
    | empty => simp [root_of_empty.1 h] at hr
    | leaf d =>
      obtain ⟨r', nd', hr', hnd', hs'⟩ := root_of_leaf h
      obtain rfl : r' = r := Option.some.inj (hr'.symm.trans hr)
      obtain rfl : nd' = nd := Except.ok.inj (hnd'.symm.trans hnd)
      cases hs'.symm.trans hs
    | node x y => exact ⟨x, y, rfl⟩
  · rintro ⟨x, y, rfl⟩
    exact root_of_node h

/-- A single leaf, as a value. -/
def CodeTree.isLeaf : CodeTree → Bool
  | .empty => false
  | .leaf _ => true
  | .node _ _ => false

/-- STATUS shows of the tree whether it is empty and whether it is a single leaf (R13). -/
theorem status_of_tree {s : State} {tr : CodeTree} (h : s.tree = .ok tr) :
    s.status = .ok (BitVec.ofBool tr.isLeaf ++ BitVec.ofBool (decide (tr ≠ .empty)) ++ s.errInfo ++ s.err.bits ++
      s.mode.bits) := by
  have hread : s.treeSingle = .ok tr.isLeaf ∧ s.treePresent = decide (tr ≠ .empty) := by
    cases tr with
    | empty =>
      have hr := root_of_empty.1 h
      exact ⟨State.treeSingle_of_none hr, by simp [State.treePresent, hr]⟩
    | leaf d =>
      obtain ⟨r, nd, hr, hnd, hs⟩ := root_of_leaf h
      exact ⟨by rw [State.treeSingle_of_some hr (readNode_eq_ok.1 hnd), Node.isLeaf, hs]; rfl,
        by simp [State.treePresent, hr]⟩
    | node x y =>
      obtain ⟨r, nd, hr, hnd, hs⟩ := root_of_node h
      exact ⟨by rw [State.treeSingle_of_some hr (readNode_eq_ok.1 hnd), Node.isLeaf, hs]; rfl,
        by simp [State.treePresent, hr]⟩
  simp only [State.status, hread, Except.map]

/-! ### ENCODE of one symbol, by the tree -/

theorem encodeSym_of_empty {s : State} (h : s.tree = .ok .empty) (c : Byte) :
    s.encodeSym c = .ok (s.raise .noTree (c.setWidth 9)) := by
  simp only [State.encodeSym, root_of_empty.1 h]

theorem encodeSym_of_leaf {s : State} {d : Byte} (h : s.tree = .ok (.leaf d)) (c : Byte) :
    s.encodeSym c = .ok (s.raise .degenerateTree (c.setWidth 9)) := by
  obtain ⟨r, nd, hr, hnd, hs⟩ := root_of_leaf h
  simp only [State.encodeSym, hr, hnd, ok_bind, Node.isLeaf, hs, if_true]

theorem encodeSym_of_unknown {s : State} {l r : CodeTree} (h : s.tree = .ok (.node l r)) {c : Byte}
    (hc : (CodeTree.node l r).codeOf c = none) : s.encodeSym c = .ok (s.raise .unknownSymbol (c.setWidth 9)) := by
  obtain ⟨r, nd, hr, hnd, hs⟩ := root_of_node h
  simp only [State.encodeSym, hr, hnd, ok_bind, Node.isLeaf_eq_false.2 hs, Bool.false_eq_true, if_false, h, hc]

theorem encodeSym_of_code {s : State} {l r : CodeTree} (h : s.tree = .ok (.node l r)) {c : Byte} {p : Path}
    (hc : (CodeTree.node l r).codeOf c = some p) : s.encodeSym c = .ok (s.writeCode p) := by
  obtain ⟨r, nd, hr, hnd, hs⟩ := root_of_node h
  simp only [State.encodeSym, hr, hnd, ok_bind, Node.isLeaf_eq_false.2 hs, Bool.false_eq_true, if_false, h, hc]

/-! ### DECODE -/

/-- The head of DECODE's loop at a node that is no leaf (R151). -/
theorem decodeTop_of_node {s : State} {nd : Node} (hnd : readNode s.arena s.cur = .ok nd) (hs : nd.sym = .sentinel) :
    s.decodeTop = .ok (some s) := by
  simp only [State.decodeTop, hnd, ok_bind, hs]

/-- At a leaf with no root, which no run meets. -/
theorem decodeTop_of_leaf_no_root {s : State} {n : Node} {c : Byte} (hn : readNode s.arena s.cur = .ok n)
    (hs : n.sym = .symbol c) (hr : s.root = none) : s.decodeTop = .error .decodeRoot := by
  simp only [State.decodeTop, hn, ok_bind, hs, hr]

/-- The head of DECODE's loop at a leaf reads the root, which must be no leaf; then the leaf's symbol is emitted, or DECODE
waits there (R150). -/
theorem decodeTop_at_leaf {s : State} {nd : Node} {c : Byte} {r : Idx} (hnd : readNode s.arena s.cur = .ok nd)
    (hs : nd.sym = .symbol c) (hr : s.root = some r) :
    s.decodeTop = (readNode s.arena r >>= fun rd =>
      if rd.isLeaf then .error .decodeRoot
      else .ok (if (s.symSink.push [c]).2 = [] then some { s with symSink := (s.symSink.push [c]).1, cur := r }
        else none)) := by
  unfold State.decodeTop
  simp only [hnd, ok_bind, hs]
  split
  next h => simp [h] at hr
  next r' h =>
    obtain rfl : r' = r := by simpa [h] using hr
    congr 1
    funext rd
    split <;> [rfl; split <;> rfl]

/-- The same, the root being no leaf. -/
theorem decodeTop_of_leaf {s : State} {nd rd : Node} {c : Byte} {r : Idx} (hnd : readNode s.arena s.cur = .ok nd)
    (hs : nd.sym = .symbol c) (hr : s.root = some r) (hrd : readNode s.arena r = .ok rd) (hl : rd.sym = .sentinel) :
    s.decodeTop = .ok (if (s.symSink.push [c]).2 = [] then some { s with symSink := (s.symSink.push [c]).1, cur := r }
      else none) := by
  rw [decodeTop_at_leaf hnd hs hr, hrd, ok_bind, Node.isLeaf_eq_false.2 hl]
  rfl

/-- A bit that selects a child (R150). -/
theorem decodeBit_of_child {s : State} {nd : Node} {b : Bool} {n : Idx} (hnd : readNode s.arena s.cur = .ok nd)
    (hb : nd.child b = some n) : s.decodeBit b = .ok { s with cur := n } := by
  simp only [State.decodeBit, hnd, ok_bind, hb]

/-- A bit that selects a missing child (R153). -/
theorem decodeBit_of_nil {s : State} {nd : Node} {b : Bool} (hnd : readNode s.arena s.cur = .ok nd)
    (hb : nd.child b = none) : s.decodeBit b = .ok (s.raise .badPath ((BitVec.ofBool b).setWidth 9)) := by
  simp only [State.decodeBit, hnd, ok_bind, hb]

/-- DECODE without a tree or with a single leaf stays at its first tests (R150). -/
theorem decodeBody_of_probe {s : State} (h : s.tree = .ok .empty ∨ ∃ d, s.tree = .ok (.leaf d)) :
    s.decodeBody = .ok s.decodeProbe := by
  rcases h with h | ⟨d, h⟩
  · simp only [State.decodeBody, root_of_empty.1 h]
  · obtain ⟨r, nd, hr, hnd, hs⟩ := root_of_leaf h
    unfold State.decodeBody
    split
    next => rfl
    next r' h' =>
      obtain rfl : r' = r := by simpa [h'] using hr
      simp only [hnd, ok_bind, Node.isLeaf, hs, if_true]

/-- DECODE with an inner root starts its loop there (R150). -/
theorem decodeBody_of_node {s : State} {l r : CodeTree} (h : s.tree = .ok (.node l r)) {i : Idx} (hi : s.root = some i) :
    s.decodeBody = State.decodeRun { s with cur := i, mode := .busy .decode } := by
  obtain ⟨i', nd, hi', hnd, hs⟩ := root_of_node h
  obtain rfl : i' = i := Option.some.inj (hi'.symm.trans hi)
  unfold State.decodeBody
  split
  next h => simp [h] at hi
  next j h =>
    obtain rfl : j = i' := by simpa [h] using hi
    simp only [hnd, ok_bind, Node.isLeaf_eq_false.2 hs, Bool.false_eq_true, if_false]

/-! ### LOAD -/

/-- The record LOAD makes for a new node (R126, R130). -/
abbrev bareNode : Node := ⟨.sentinel, none, none, 0⟩

/-- LOAD's walk has gone from the node `nd` to a new child `n` (R126). -/
def State.toNewChild (s : State) (nd : Node) (b : Bool) (n : Idx) : State :=
  { s with arena := (s.arena ++ [bareNode]).set s.cur.val (nd.setChild b (some n)), cur := n }

/-- A path line starts at the root (R126). -/
theorem startPath_of_root {s : State} {r : Idx} (hr : s.root = some r) :
    s.startPath = .ok { s with cur := r, mode := .busy .loadPath } := by
  simp only [State.startPath, hr]

/-- The root is created lazily, as the arena's next entry (R126). -/
theorem startPath_of_no_root {s : State} (hr : s.root = none) (hcap : s.arena.length < Config.nodeCap) :
    s.startPath = .ok { s with arena := s.arena ++ [bareNode], root := some ⟨s.arena.length, hcap⟩
                               cur := ⟨s.arena.length, hcap⟩, mode := .busy .loadPath } := by
  simp only [State.startPath, hr, State.alloc_of_lt hcap]

/-- A root that finds no free entry, which no run meets (R126). -/
theorem startPath_of_full {s : State} (hr : s.root = none) (hcap : ¬ s.arena.length < Config.nodeCap) :
    s.startPath = .error .arenaOverflow := by
  simp only [State.startPath, hr, State.alloc_full hcap]

/-- A path character at a node that has the child: the walk steps to it (R126). -/
theorem loadStep_of_child {s : State} {nd : Node} {b : Bool} {n : Idx} (hnd : readNode s.arena s.cur = .ok nd)
    (hb : nd.child b = some n) (c : Byte) : s.loadStep b c = .ok { s with cur := n } := by
  simp only [State.loadStep, hnd, ok_bind, hb]

/-- A path character at a node without the child, an entry free: the walk steps to a new node (R126). -/
theorem loadStep_of_nil {s : State} {nd : Node} {b : Bool} (hnd : readNode s.arena s.cur = .ok nd)
    (hb : nd.child b = none) (hcap : s.arena.length < Config.nodeCap) (c : Byte) :
    s.loadStep b c = .ok (s.toNewChild nd b ⟨s.arena.length, hcap⟩) := by
  simp only [State.loadStep, hnd, ok_bind, hb, State.alloc_of_lt hcap]
  rfl

/-- A path character that needs a 512th node (R126). -/
theorem loadStep_of_full {s : State} {nd : Node} {b : Bool} (hnd : readNode s.arena s.cur = .ok nd)
    (hb : nd.child b = none) (hcap : ¬ s.arena.length < Config.nodeCap) (c : Byte) :
    s.loadStep b c = .ok (s.raise .arenaFull (c.setWidth 9)) := by
  simp only [State.loadStep, hnd, ok_bind, hb, State.alloc_full hcap]

end Sys2Proof.Machine
end

section
/-! PROOFS. O34: BUILD keeps a forest whose roots are the queued nodes, every weight the exact sum of its children's. -/

namespace Sys2Proof.Machine

open Sys2Proof Host

/-! ### The micro-operations -/

/-- Queue order is less weight, or equal weight and less `seq` (R103). -/
theorem PqEntry.before_iff {e f : PqEntry} :
    e.before f = true ↔ e.weight < f.weight ∨ (e.weight = f.weight ∧ e.seq < f.seq) := by
  simp [PqEntry.before]

theorem PqEntry.weight_le_of_not_before {e f : PqEntry} (h : f.before e = false) : e.weight ≤ f.weight := by
  by_contra hlt
  rw [BitVec.not_le] at hlt
  simp [PqEntry.before_iff.2 (.inl hlt)] at h

/-- What does not stand before the middle one of two entries in order does not stand before the first. -/
theorem PqEntry.not_before_trans {e f g : PqEntry} (hfe : f.before e = false) (hgf : g.before f = false) :
    g.before e = false := by
  rw [← Bool.not_eq_true, PqEntry.before_iff] at *
  simp only [BitVec.lt_def, ← BitVec.toNat_inj] at *
  omega

theorem pqFirst_of_ne_nil {pq : List PqEntry} (h : pq ≠ []) : ∃ e, pqFirst pq = some e := by
  cases pq with
  | nil => exact absurd rfl h
  | cons d pq =>
    simp only [pqFirst]
    split <;> [exact ⟨_, rfl⟩; split <;> exact ⟨_, rfl⟩]

/-- The first entry of a queue is one of its entries, and none stands before it. -/
theorem pqFirst_eq_some {pq : List PqEntry} {e : PqEntry} (h : pqFirst pq = some e) :
    e ∈ pq ∧ ∀ g ∈ pq, g.before e = false := by
  have hself : ∀ g : PqEntry, g.before g = false := fun g => by
    rw [← Bool.not_eq_true, PqEntry.before_iff]
    simp
  induction pq generalizing e with
  | nil => cases h
  | cons d pq ih =>
    simp only [pqFirst] at h
    split at h
    next hn =>
      have hnil : pq = [] := by
        by_contra hne
        obtain ⟨f, hf⟩ := pqFirst_of_ne_nil hne
        cases hn.symm.trans hf
      cases h
      simp [hnil, hself]
    next f hf =>
      obtain ⟨hmem, hmin⟩ := ih hf
      split at h
      next hfd =>
        cases h
        refine ⟨List.mem_cons_of_mem _ hmem, List.forall_mem_cons.2 ⟨?_, hmin⟩⟩
        rw [← Bool.not_eq_true, PqEntry.before_iff] at *
        simp only [BitVec.lt_def, ← BitVec.toNat_inj] at *
        omega
      next hfd =>
        cases h
        exact ⟨List.mem_cons_self .., List.forall_mem_cons.2
          ⟨hself d, fun g hg => PqEntry.not_before_trans (by simpa using hfd) (hmin g hg)⟩⟩

/-- PQ_EXTRACT_MIN on a queue that is not empty (R103). -/
theorem pqExtractMin_of_ne_nil {s : State} (h : s.pq ≠ []) :
    ∃ e, e ∈ s.pq ∧ (∀ g ∈ s.pq, g.before e = false) ∧
      s.pqExtractMin = .ok (e.idx, { s with pq := s.pq.erase e }) := by
  obtain ⟨e, he⟩ := pqFirst_of_ne_nil h
  obtain ⟨hmem, hmin⟩ := pqFirst_eq_some he
  exact ⟨e, hmem, hmin, by simp only [State.pqExtractMin, he]⟩

/-- The state after a node is allocated and queued. -/
def State.grow (s : State) (nd : Node) (n : Idx) : State :=
  { s with arena := s.arena ++ [nd], pq := s.pq ++ [⟨nd.weight, s.seqNext, n⟩], seqNext := s.seqNext + 1 }

/-- ALLOC and PQ_INSERT of the new node, with a free entry (R101, R102). -/
theorem alloc_pqInsert {s : State} (h : s.arena.length < Config.nodeCap) (sym : NodeSym) (l r : Link) (w : Weight) :
    ∃ t, s.alloc sym l r w = some (⟨s.arena.length, h⟩, t) ∧
      t.pqInsert ⟨s.arena.length, h⟩ = .ok (s.grow ⟨sym, l, r, w⟩ ⟨s.arena.length, h⟩) := by
  refine ⟨_, State.alloc_of_lt h sym l r w, ?_⟩
  have hread : readNode (s.arena ++ [⟨sym, l, r, w⟩]) ⟨s.arena.length, h⟩ = .ok ⟨sym, l, r, w⟩ :=
    readNode_eq_ok.2 (by simp)
  simp only [State.pqInsert, hread, ok_bind]
  rfl

/-- BUILD's first loop passes over a symbol that does not occur. -/
theorem insertLeaf_absent {s : State} {c : Byte} (hc : s.freqOf c = 0) : s.insertLeaf c = .ok s := by
  simp only [State.insertLeaf, hc, if_true]

/-- BUILD's first loop makes a leaf for a symbol that occurs (R105). -/
theorem insertLeaf_present {s : State} {c : Byte} (hc : s.freqOf c ≠ 0) (h : s.arena.length < Config.nodeCap) :
    s.insertLeaf c = .ok (s.grow (s.leafFor c) ⟨s.arena.length, h⟩) := by
  obtain ⟨t, ht, hins⟩ := alloc_pqInsert h (.symbol c) none none ((s.freqOf c).setWidth 40)
  simp only [State.insertLeaf, hc, if_false, ht]
  exact hins

/-! ### The forest -/

/-- R24, R104: a node's weight is its symbol's count, or the exact sum of its children's weights. -/
def State.ExactWeight (s : State) (nd : Node) : Prop :=
  nd.weight.toNat ≤ 2 ^ 40 - 256 ∧
  (∀ c, nd.sym = .symbol c → nd.weight.toNat = (s.freqOf c).toNat) ∧
  (nd.sym = .sentinel → ∃ l r nl nr, nd.left = some l ∧ nd.right = some r ∧ s.arena[l.val]? = some nl ∧
    s.arena[r.val]? = some nr ∧ nd.weight.toNat = nl.weight.toNat + nr.weight.toNat ∧
    nl.weight.toNat ≤ nr.weight.toNat)

/-- More entries behind leave a weight exact. -/
theorem State.ExactWeight.mono {s t : State} {nd : Node} (h : s.ExactWeight nd) (hf : t.freq = s.freq)
    {more : List Node} (ha : t.arena = s.arena ++ more) : t.ExactWeight nd := by
  obtain ⟨hle, hsym, hsen⟩ := h
  refine ⟨hle, fun c hc => ?_, fun hs => ?_⟩
  · rw [hsym c hc, State.freqOf, State.freqOf, hf]
  · obtain ⟨l, r, nl, nr, hl, hr, hnl, hnr, hsum⟩ := hsen hs
    have hkeep : ∀ (i : Nat) (x : Node), s.arena[i]? = some x → t.arena[i]? = some x := fun i x hx => by
      rw [ha, List.getElem?_append_left (List.getElem?_eq_some_iff.1 hx).1, hx]
    exact ⟨l, r, nl, nr, hl, hr, hkeep _ _ hnl, hkeep _ _ hnr, hsum⟩

/-- What holds between the steps of BUILD: the arena is a forest in BUILD's numbering, the queued nodes are among its
roots, queued once each with their weights, and every weight is exact. -/
structure Forest (s : State) : Prop where
  linked : Linked s.arena
  order : childrenFirst s.arena
  queued : ∀ e ∈ s.pq, ∃ nd, s.arena[e.idx.val]? = some nd ∧ nd.weight = e.weight
  distinct : (s.pq.map PqEntry.idx).Nodup
  fresh : ∀ e ∈ s.pq, e.idx ∉ childLinks s.arena
  exact : ∀ nd ∈ s.arena, s.ExactWeight nd

/-- The sum of the queued weights. -/
def queueWeight (pq : List PqEntry) : Nat := (pq.map fun e => e.weight.toNat).sum

theorem queueWeight_append (a b : List PqEntry) : queueWeight (a ++ b) = queueWeight a + queueWeight b := by
  simp [queueWeight]

theorem queueWeight_perm {a b : List PqEntry} (h : a.Perm b) : queueWeight a = queueWeight b :=
  (h.map _).sum_eq

theorem Forest.idx_lt {s : State} (h : Forest s) {e : PqEntry} (he : e ∈ s.pq) : e.idx.val < s.arena.length := by
  obtain ⟨nd, hnd, -⟩ := h.queued e he
  exact (List.getElem?_eq_some_iff.1 hnd).1

/-- The order of the queue is not part of the invariant. -/
theorem Forest.perm {s : State} (h : Forest s) {pq : List PqEntry} (hp : s.pq.Perm pq) : Forest { s with pq := pq } where
  linked := h.linked
  order := h.order
  queued e he := h.queued e (hp.mem_iff.2 he)
  distinct := (hp.map PqEntry.idx).nodup_iff.1 h.distinct
  fresh e he := h.fresh e (hp.mem_iff.2 he)
  exact := h.exact

/-- A node that takes the first entries of the queue as its children, and is queued itself, makes a larger forest. -/
theorem Forest.grow {s : State} {es rest : List PqEntry} {nd : Node} {n : Idx} (h : Forest s) (hq : s.pq.Perm (es ++ rest))
    (hl : nd.links = es.map PqEntry.idx) (hn : n.val = s.arena.length)
    (hx : State.ExactWeight { s with arena := s.arena ++ [nd] } nd) : Forest ({ s with pq := rest }.grow nd n) := by
  replace h := h.perm hq
  have hd := h.distinct
  simp only [List.map_append, List.nodup_append] at hd
  obtain ⟨hes, hrest, hdisj⟩ := hd
  have hlt : ∀ e ∈ es ++ rest, e.idx.val < s.arena.length := fun e he => h.idx_lt he
  have hlinks : childLinks (s.arena ++ [nd]) = childLinks s.arena ++ es.map PqEntry.idx := by simp [hl]
  have hbound : ∀ c ∈ childLinks (s.arena ++ [nd]), c.val < s.arena.length := by
    rw [hlinks]
    intro c hc
    obtain hc | hc := List.mem_append.1 hc
    · exact h.linked.bound c hc
    · obtain ⟨e, he, rfl⟩ := List.mem_map.1 hc
      exact hlt e (List.mem_append_left _ he)
  refine ⟨⟨?_, fun c hc => ?_, ?_⟩, ?_, ?_, ?_, ?_, ?_⟩
  · simp [State.grow, ← hn, Nat.succ_le_of_lt n.isLt]
  · simpa [State.grow] using (hbound c hc).le
  · show (childLinks (s.arena ++ [nd])).Nodup
    rw [hlinks, List.nodup_append]
    refine ⟨h.linked.nodup, hes, ?_⟩
    rintro a ha b hb rfl
    obtain ⟨e, he, rfl⟩ := List.mem_map.1 hb
    exact h.fresh e (List.mem_append_left _ he) ha
  · refine childrenFirst_append h.order fun c hc => hbound c ?_
    simp [hc]
  · intro e he
    obtain he | he := List.mem_append.1 he
    · obtain ⟨x, hx, hw⟩ := h.queued e (List.mem_append_right _ he)
      exact ⟨x, getElem?_append_singleton_eq_some.2 (.inl hx), hw⟩
    · cases List.mem_singleton.1 he
      exact ⟨nd, getElem?_append_singleton_eq_some.2 (.inr ⟨hn, rfl⟩), rfl⟩
  · show ((rest ++ [_]).map PqEntry.idx).Nodup
    rw [List.map_append, List.nodup_append]
    refine ⟨hrest, by simp, ?_⟩
    rintro a ha b hb rfl
    obtain ⟨e, he, rfl⟩ := List.mem_map.1 ha
    have hen : e.idx = n := by simpa using hb
    have := hlt e (List.mem_append_right _ he)
    rw [hen] at this
    omega
  · intro e he
    show e.idx ∉ childLinks (s.arena ++ [nd])
    obtain he | he := List.mem_append.1 he
    · rw [hlinks, List.mem_append]
      rintro (hc | hc)
      · exact h.fresh e (List.mem_append_right _ he) hc
      · exact hdisj _ hc _ (List.mem_map_of_mem he) rfl
    · cases List.mem_singleton.1 he
      exact fun hc => absurd (hbound n hc) (by omega)
  · intro x hx'
    obtain hx' | hx' := List.mem_append.1 hx'
    · exact (h.exact x hx').mono (more := [nd]) rfl rfl
    · cases List.mem_singleton.1 hx'
      exact hx.mono (more := []) rfl (by simp [State.grow])

end Sys2Proof.Machine
end

section
/-! PROOFS. O34, its loops: BUILD's leaves make a forest, MERGE keeps one, and what is left of the queue is the root. -/

namespace Sys2Proof.Machine

open Sys2Proof Host

/-- MERGE with two queued nodes that carry their weights and a free entry: the first removed is left (R104). -/
theorem merge_of_queued {s : State} (h2 : 2 ≤ s.pqLen) (hcap : s.arena.length < Config.nodeCap)
    (hw : ∀ e ∈ s.pq, ∃ nd, s.arena[e.idx.val]? = some nd ∧ nd.weight = e.weight) :
    ∃ e f, e ∈ s.pq ∧ f ∈ s.pq.erase e ∧ (∀ g ∈ s.pq, g.before e = false) ∧ (∀ g ∈ s.pq.erase e, g.before f = false) ∧
      s.merge = .ok ({ s with pq := (s.pq.erase e).erase f }.grow
        ⟨.sentinel, some e.idx, some f.idx, e.weight + f.weight⟩ ⟨s.arena.length, hcap⟩) := by
  replace h2 : 2 ≤ s.pq.length := h2
  obtain ⟨e, he, hemin, hex⟩ := pqExtractMin_of_ne_nil (s := s) (List.ne_nil_of_length_pos (by omega))
  have hlen : (s.pq.erase e).length = s.pq.length - 1 := List.length_erase_of_mem he
  obtain ⟨f, hf, hfmin, hfx⟩ := pqExtractMin_of_ne_nil (s := { s with pq := s.pq.erase e })
    (List.ne_nil_of_length_pos (by show 0 < (s.pq.erase e).length; omega))
  obtain ⟨ne, hne, hwe⟩ := hw e he
  obtain ⟨nf, hnf, hwf⟩ := hw f (List.mem_of_mem_erase hf)
  obtain ⟨t, ht, hins⟩ := alloc_pqInsert (s := { s with pq := (s.pq.erase e).erase f }) hcap .sentinel (some e.idx)
    (some f.idx) (ne.weight + nf.weight)
  refine ⟨e, f, he, hf, hemin, hfmin, ?_⟩
  simp only [State.merge, hex, hfx, ok_bind, readNode_eq_ok.2 hne, readNode_eq_ok.2 hnf, ht]
  rw [hins, hwe, hwf]

/-- The states BUILD passes through differ in the arena, the queue and `seq_next` alone. -/
abbrev BuildFrame (s t : State) : Prop := t = { s with arena := t.arena, pq := t.pq, seqNext := t.seqNext }

/-- MERGE keeps the forest and the sum of the queued weights, which is so small that no addition wraps (R24). -/
theorem Forest.merge {s : State} (h : Forest s) (h2 : 2 ≤ s.pqLen) (hcap : s.arena.length < Config.nodeCap)
    (htot : queueWeight s.pq ≤ 2 ^ 40 - 256) :
    ∃ t, s.merge = .ok t ∧ Forest t ∧ BuildFrame s t ∧ t.pqLen + 1 = s.pqLen ∧ t.arena.length = s.arena.length + 1 ∧
      queueWeight t.pq = queueWeight s.pq := by
  obtain ⟨e, f, he, hf, hemin, -, hm⟩ := merge_of_queued h2 hcap h.queued
  have hperm : s.pq.Perm ([e, f] ++ (s.pq.erase e).erase f) :=
    (List.perm_cons_erase he).trans ((List.perm_cons_erase hf).cons e)
  have hsum : queueWeight s.pq = e.weight.toNat + f.weight.toNat + queueWeight ((s.pq.erase e).erase f) := by
    rw [queueWeight_perm hperm, queueWeight_append]
    simp [queueWeight]
  have hadd : (e.weight + f.weight).toNat = e.weight.toNat + f.weight.toNat := by
    rw [BitVec.toNat_add, Nat.mod_eq_of_lt (by omega)]
  have hlen := hperm.length_eq
  obtain ⟨ne, hne, hwe⟩ := h.queued e he
  obtain ⟨nf, hnf, hwf⟩ := h.queued f (List.mem_of_mem_erase hf)
  refine ⟨_, hm, h.grow hperm rfl rfl ?_, rfl, ?_, ?_, ?_⟩
  · refine ⟨hadd.trans_le (by omega), fun c hc => (by cases hc), fun _ => ?_⟩
    refine ⟨e.idx, f.idx, ne, nf, rfl, rfl, getElem?_append_singleton_eq_some.2 (.inl hne),
      getElem?_append_singleton_eq_some.2 (.inl hnf), ?_, ?_⟩
    · rw [hwe, hwf]; exact hadd
    · rw [hwe, hwf]
      exact BitVec.le_def.1 (PqEntry.weight_le_of_not_before (hemin f (List.mem_of_mem_erase hf)))
  · simpa [State.grow, State.pqLen] using hlen.symm
  · simp [State.grow]
  · simp only [State.grow, queueWeight_append, hsum]
    simp [queueWeight, hadd, Nat.add_comm]

/-- A leaf keeps the forest; it adds its count to the queued weights. -/
theorem Forest.insertLeaf {s : State} (h : Forest s) (c : Byte) (hcap : s.arena.length < Config.nodeCap) :
    ∃ t, s.insertLeaf c = .ok t ∧ Forest t ∧ BuildFrame s t ∧
      ((t.pqLen = s.pqLen ∧ t.arena.length = s.arena.length) ∨
        (t.pqLen = s.pqLen + 1 ∧ t.arena.length = s.arena.length + 1)) ∧
      queueWeight t.pq ≤ queueWeight s.pq + (2 ^ 32 - 1) := by
  by_cases hc : s.freqOf c = 0
  · exact ⟨s, insertLeaf_absent hc, h, rfl, .inl ⟨rfl, rfl⟩, by omega⟩
  · have hcount : (s.leafFor c).weight.toNat = (s.freqOf c).toNat := by
      simp [State.leafFor]; omega
    refine ⟨_, insertLeaf_present hc hcap, ?_, rfl, .inr ⟨by simp [State.grow, State.pqLen], by simp [State.grow]⟩, ?_⟩
    · refine h.grow (es := []) (List.Perm.refl _) rfl rfl ⟨?_, fun d hd => ?_, fun hs => by cases hs⟩
      · rw [hcount]; omega
      · cases hd; exact hcount
    · simp only [State.grow, queueWeight_append]
      simp only [queueWeight, List.map_cons, List.map_nil, List.sum_cons, List.sum_nil, hcount]
      omega

/-- BUILD's first loop makes a forest of leaves, all of them queued (R105). -/
theorem Forest.insertLeaves {cs : List Byte} {s : State} (h : Forest s) (hlen : s.arena.length = s.pqLen)
    (hroom : s.pqLen + cs.length ≤ 256) :
    ∃ t, insertLeaves cs s = .ok t ∧ Forest t ∧ BuildFrame s t ∧ t.arena.length = t.pqLen ∧ t.pqLen ≤ 256 ∧
      queueWeight t.pq ≤ queueWeight s.pq + cs.length * (2 ^ 32 - 1) := by
  induction cs generalizing s with
  | nil => exact ⟨s, rfl, h, rfl, hlen, by simpa using hroom, by simp⟩
  | cons c cs ih =>
    simp only [List.length_cons] at hroom ⊢
    obtain ⟨u, hu, hfu, hframe, hgrow, hwu⟩ := h.insertLeaf c (show s.arena.length < 511 by omega)
    obtain ⟨t, ht, hft, hframe', hlt, hle, hwt⟩ := ih hfu (by omega) (by omega)
    refine ⟨t, ?_, hft, ?_, hlt, hle, by omega⟩
    · simp only [Machine.insertLeaves, hu, ok_bind, ht]
    · rw [hframe', hframe]

/-- BUILD's second loop ends with one queued node: each MERGE takes one off the queue (R105, R111). -/
theorem Forest.mergeLoop {n : Nat} {s : State} (h : Forest s) (hne : 1 ≤ s.pqLen) (hn : s.pqLen ≤ n + 1)
    (hroom : s.arena.length + s.pqLen ≤ 512) (htot : queueWeight s.pq ≤ 2 ^ 40 - 256) :
    ∃ t, mergeLoop n s = .ok t ∧ Forest t ∧ BuildFrame s t ∧ t.pqLen = 1 := by
  induction n generalizing s with
  | zero => exact ⟨s, rfl, h, rfl, by omega⟩
  | succ n ih =>
    by_cases h2 : 2 ≤ s.pqLen
    · obtain ⟨u, hu, hfu, hframe, hpq, hlen, hw⟩ := h.merge h2 (show s.arena.length < 511 by omega) htot
      obtain ⟨t, ht, hft, hframe', h1⟩ := ih hfu (by omega) (by omega) (by omega) (by omega)
      refine ⟨t, ?_, hft, ?_, h1⟩
      · simp only [Machine.mergeLoop, h2, if_true, hu, ok_bind, ht]
      · rw [hframe', hframe]
    · exact ⟨s, by simp only [Machine.mergeLoop, h2, if_false], h, rfl, by omega⟩

/-- The empty forest, where BUILD starts. -/
theorem forest_empty {s : State} (ha : s.arena = []) (hq : s.pq = []) : Forest s := by
  refine ⟨⟨?_, ?_, ?_⟩, ?_, ?_, ?_, ?_, ?_⟩ <;> simp [ha, hq]

/-- BUILD without a tree ends normally, with an empty queue, an arena that meets the invariant, and exact weights. -/
theorem buildBody_of_no_tree {s : State} (hr : s.root = none) (ha : s.arena = []) :
    ∃ t, s.buildBody = .ok t ∧ t.pq = [] ∧ t.arenaInv ∧ (∀ nd ∈ t.arena, t.ExactWeight nd) ∧
      t = { s with mode := .idle, root := t.root, arena := t.arena, pq := t.pq, seqNext := t.seqNext } := by
  obtain ⟨u, hu, hfu, hframe, hlen, hle, hw⟩ :=
    (forest_empty (s := { s with pq := [], seqNext := 0 }) ha rfl).insertLeaves (cs := allSymbols)
      (by simp [ha, State.pqLen]) (by simp [allSymbols, State.pqLen])
  have hur : u.root = none := by rw [hframe]; exact hr
  replace hw : queueWeight u.pq ≤ 2 ^ 40 - 256 := by simpa [queueWeight, allSymbols, Config.nsym] using hw
  by_cases h0 : u.pqLen = 0
  · have hau : u.arena = [] := List.eq_nil_of_length_eq_zero (by omega)
    refine ⟨u.done, ?_, List.eq_nil_of_length_eq_zero h0, ?_, hfu.exact, ?_⟩
    · unfold State.buildBody
      split
      · simp_all
      · simp only [hu, ok_bind, h0, if_true]
    · refine arenaInv_iff.2 ⟨hfu.linked, ?_, ?_, .inl hfu.order⟩ <;> simp [hur, hau]
    · rw [hframe]; rfl
  · obtain ⟨v, hv, hfv, hframe', h1⟩ := hfu.mergeLoop (n := u.pqLen) (by omega) (by omega) (by omega) hw
    obtain ⟨e, hev⟩ := List.length_eq_one_iff.1 h1
    have hmem : e ∈ v.pq := by simp [hev]
    have hx : v.pqExtractMin = .ok (e.idx, { v with pq := [] }) := by
      simp [State.pqExtractMin, pqFirst, hev]
    refine ⟨{ v with pq := [], root := some e.idx }.done, ?_, rfl, ?_, hfv.exact, ?_⟩
    · unfold State.buildBody
      split
      · simp_all
      · simp only [hu, ok_bind, h0, if_false, hv, hx]
    · refine arenaInv_iff.2 ⟨hfv.linked, ?_, ?_, .inl hfv.order⟩
      · have := hfv.idx_lt hmem
        simp only [State.done_root, reduceCtorEq, State.done_arena, false_iff]
        exact List.ne_nil_of_length_pos (by omega)
      · rintro r hr
        cases hr
        exact ⟨hfv.idx_lt hmem, hfv.fresh e hmem⟩
    · rw [hframe', hframe]; rfl

/-- Settles O34: the arena BUILD leaves is a forest's, and in a forest every weight is exact. -/
theorem buildWeightsAreExactSums : Obligations.BuildWeightsAreExactSums := by
  rintro s t ⟨-, harena, -⟩ hm hr h nd hnd
  rw [exec_of_idle hm] at h
  obtain ⟨u, hu, -, -, hexact, hframe⟩ := buildBody_of_no_tree hr (arenaInv_empty harena hr)
  obtain rfl : u = t := Except.ok.inj (hu.symm.trans (toOutcome_eq_next.1 h))
  obtain ⟨hle, hsym, hsen⟩ := hexact nd hnd
  refine ⟨hle, fun c hc => (hsym c hc).trans ?_, hsen⟩
  rw [hframe]
  rfl

end Sys2Proof.Machine
end

section
/-! PROOFS. O2 and O3, the ground: what the invariant says of a state that runs, apart from the position of the running
command, and the operations that end a command. -/

namespace Sys2Proof.Machine

open Sys2Proof Host

/-- Settles O2: the reset memory is canonical, and nothing is allocated, latched or queued. -/
theorem invHoldsAtReset : Obligations.InvHoldsAtReset := by
  have hempty := forest_empty (s := State.reset) rfl rfl
  exact ⟨Memory.reset_wf, arenaInv_iff.2 ⟨hempty.linked, by simp, by simp, .inl hempty.order⟩, by decide, rfl, rfl⟩

/-- The invariant without the position of a running command, in IDLE and BUSY: no fault is latched. -/
def State.Running (s : State) : Prop := s.freq.wf ∧ s.arenaInv ∧ s.err = .none ∧ s.errInfo = 0 ∧ s.pq = []

theorem State.Running.arena {s : State} (h : s.Running) : s.arenaInv := h.2.1

/-- Outside FAULT the invariant is `Running` and the position. -/
theorem inv_iff_running {s : State} (hm : s.mode ≠ .fault) : s.Inv ↔ s.Running ∧ s.pointOk = true := by
  constructor
  · rintro ⟨hf, ha, ⟨herr, hinfo⟩, hp, hq⟩
    have he : s.err = .none := by simpa [hm] using herr
    exact ⟨⟨hf, ha, he, hinfo he, hq⟩, hp⟩
  · rintro ⟨⟨hf, ha, he, hi, hq⟩, hp⟩
    exact ⟨hf, ha, ⟨by simp [hm, he], fun _ => hi⟩, hp, hq⟩

theorem State.Running.inv {s : State} (h : s.Running) (hm : s.mode ≠ .fault) (hp : s.pointOk = true) : s.Inv :=
  (inv_iff_running hm).2 ⟨h, hp⟩

theorem running_of_inv {s : State} (h : s.Inv) (hm : s.mode ≠ .fault) : s.Running :=
  ((inv_iff_running hm).1 h).1

theorem pointOk_of_inv {s : State} (h : s.Inv) : s.pointOk = true := by
  obtain ⟨-, -, -, hp, -⟩ := h
  exact hp

/-- Taking a fault keeps the invariant (R183). -/
theorem State.Running.raise {s : State} (h : s.Running) {code : ErrCode} (hc : code ≠ .none) (info : BitVec 9) :
    (s.raise code info).Inv := by
  obtain ⟨hf, ha, -, -, hq⟩ := h
  exact ⟨hf, ha, ⟨by simpa using hc, fun he => absurd he hc⟩, rfl, hq⟩

/-- A normal end keeps the invariant (R171). -/
theorem State.Running.done {s : State} (h : s.Running) : s.done.Inv :=
  State.Running.inv (s := s.done) h (by simp) rfl

/-- A reset gives the invariant, whatever was there before (R200). -/
theorem toReset_inv (s : State) : s.toReset.Inv := invHoldsAtReset

/-- A running state has a tree. -/
theorem State.Running.tree {s : State} (h : s.Running) : ∃ tr, s.tree = .ok tr := tree_of_arenaInv h.arena

/-! ### The position, mode by mode -/

theorem pointOk_loadPair {s : State} (hm : s.mode = .busy .loadPair) : s.pointOk = true ↔ parentsFirst s.arena := by
  simp only [State.pointOk, hm, decide_eq_true_eq]

theorem pointOk_loadSym {s : State} (hm : s.mode = .busy .loadSym) :
    s.pointOk = true ↔ parentsFirst s.arena ∧ s.val.toNat < 10 ^ s.ndig.toNat := by
  simp only [State.pointOk, hm, decide_eq_true_eq]

theorem pointOk_loadPath {s : State} (hm : s.mode = .busy .loadPath) :
    s.pointOk = true ↔ parentsFirst s.arena ∧ s.cur.val < s.arena.length ∧ s.val.toNat ≤ 255 := by
  simp only [State.pointOk, hm, decide_eq_true_eq]

theorem pointOk_decode {s : State} (hm : s.mode = .busy .decode) :
    s.pointOk = true ↔ s.innerRoot = true ∧ s.cur.val < s.arena.length ∧
      inTree s.nodeCount s.arena s.root s.cur = true := by
  simp only [State.pointOk, hm, Bool.and_eq_true, decide_eq_true_eq, and_assoc]

end Sys2Proof.Machine
end

section
/-! PROOFS. O3, LOAD: every byte keeps the invariant, with LOAD's numbering. -/

namespace Sys2Proof.Machine

open Sys2Proof Host

/-- A new child, numbered by ALLOC, keeps the invariant of the arena and LOAD's numbering. -/
theorem toNewChild_arenaInv {s : State} (h : s.arenaInv) (ho : parentsFirst s.arena) {nd : Node} {b : Bool}
    (hi : s.arena[s.cur.val]? = some nd) (hb : nd.child b = none) {n : Idx} (hn : n.val = s.arena.length) :
    (s.toNewChild nd b n).arenaInv ∧ parentsFirst (s.toNewChild nd b n).arena := by
  obtain ⟨hl, hroot, hrt, -⟩ := arenaInv_iff.1 h
  have hilt : s.cur.val < s.arena.length := (List.getElem?_eq_some_iff.1 hi).1
  have ha : (s.toNewChild nd b n).arena = (s.arena ++ [bareNode]).set s.cur.val (nd.setChild b (some n)) := rfl
  have hr : (s.toNewChild nd b n).root = s.root := rfl
  generalize s.toNewChild nd b n = t at ha hr
  have hlen : t.arena.length = s.arena.length + 1 := by simp [ha]
  have hlinks := Node.setChild_links hb n
  have hperm : (childLinks t.arena).Perm (n :: childLinks s.arena) := by
    have hi' : (s.arena ++ [bareNode])[s.cur.val]? = some nd := getElem?_append_singleton_eq_some.2 (.inl hi)
    simpa [ha, Node.links] using childLinks_set hi' hlinks
  have hord : parentsFirst t.arena := by
    refine parentsFirst_iff.2 fun j x hx c hc => ?_
    rw [ha, List.getElem?_set] at hx
    split at hx
    next hij =>
      split at hx <;> cases hx
      rcases List.mem_cons.1 (hlinks.mem_iff.1 hc) with rfl | hc
      · omega
      · exact hij ▸ parentsFirst_iff.1 ho s.cur.val nd hi c hc
    next =>
      obtain hx | ⟨-, rfl⟩ := getElem?_append_singleton_eq_some.1 hx
      · exact parentsFirst_iff.1 ho j x hx c hc
      · cases hc
  refine ⟨arenaInv_iff.2 ⟨⟨?_, fun c hc => ?_, ?_⟩, ?_, fun r h => ?_, .inr hord⟩, hord⟩
  · rw [hlen, ← hn]
    exact n.isLt
  · rcases List.mem_cons.1 (hperm.mem_iff.1 hc) with rfl | hc
    · omega
    · have := hl.bound c hc
      omega
  · refine hperm.nodup_iff.2 (List.nodup_cons.2 ⟨fun hc => ?_, hl.nodup⟩)
    have := hl.bound n hc
    omega
  · rw [hr, hroot, ← List.length_eq_zero_iff, ← List.length_eq_zero_iff]
    omega
  · rw [hr] at h
    have := hrt r h
    refine ⟨?_, fun hc => ?_⟩
    · show r.val < t.arena.length
      exact hlen ▸ Nat.lt_succ_of_lt this.1
    · rcases List.mem_cons.1 (hperm.mem_iff.1 hc) with rfl | hc
      · exact Nat.ne_of_lt this.1 hn
      · exact this.2 hc

/-- LOAD that starts a path line keeps the invariant: the root is there, or is the first entry (R126). -/
theorem startPath_inv {s : State} (h : s.Running) (ho : parentsFirst s.arena) (hv : s.val.toNat ≤ 255) :
    ∃ t, s.startPath = .ok t ∧ t.Inv := by
  obtain ⟨hf, ha, he, hi, hq⟩ := h
  cases hr : s.root with
  | some r =>
    refine ⟨_, startPath_of_root hr, State.Running.inv ⟨hf, ha, he, hi, hq⟩ (by simp) ?_⟩
    exact (pointOk_loadPath rfl).2 ⟨ho, (arenaInv_root ha hr).1, hv⟩
  | none =>
    have hnil := arenaInv_empty ha hr
    have hcap : s.arena.length < Config.nodeCap := by simp [hnil]
    have hord : parentsFirst [bareNode] := by simp [parentsFirst, Node.links]
    refine ⟨{ s with arena := [bareNode], root := some 0, cur := 0, mode := .busy .loadPath }, ?_, ?_⟩
    · simp [startPath_of_no_root hr hcap, hnil]
    · refine State.Running.inv ⟨hf, arenaInv_iff.2 ⟨⟨?_, ?_, ?_⟩, ?_, ?_, .inr hord⟩, he, hi, hq⟩ (by simp) ?_
      · simp
      · simp [Node.links]
      · simp [Node.links]
      · simp
      · simp [Node.links, State.nodeCount]
      · exact (pointOk_loadPath rfl).2 ⟨hord, by simp, hv⟩

/-- One digit more: the value has at most as many digits as were seen, so three of them fit `val` (R79). -/
theorem addDigit_lt {v : BitVec 10} {n : BitVec 2} {c : Byte} (hv : v.toNat < 10 ^ n.toNat) (hn : n ≠ 3#2)
    (hc : isDigit c = true) : (addDigit v c).toNat < 10 ^ (n + 1).toNat := by
  obtain ⟨h0, h9⟩ : 48 ≤ c.toNat ∧ c.toNat ≤ 57 := by simpa [isDigit, BitVec.le_def] using hc
  have hd : ((c - digit0).setWidth 10).toNat = c.toNat - 48 := by
    simp [BitVec.toNat_sub]
    omega
  have hn3 : n.toNat ≠ 3 := fun h => hn (BitVec.eq_of_toNat_eq h)
  have hsucc : (n + 1).toNat = n.toNat + 1 := by
    rw [BitVec.toNat_add]
    have := n.isLt
    exact Nat.mod_eq_of_lt (by simp; omega)
  have hpow : 10 ^ n.toNat ≤ 100 := Nat.pow_le_pow_right (n := 10) (by decide) (by have := n.isLt; omega : n.toNat ≤ 2)
  rw [hsucc, Nat.pow_succ, addDigit, BitVec.toNat_add, BitVec.toNat_mul, hd]
  have hmul : v.toNat * (10#10).toNat % 2 ^ 10 = v.toNat * 10 := Nat.mod_eq_of_lt (by simp; omega)
  rw [hmul, Nat.mod_eq_of_lt (by omega)]
  omega

/-- A byte of a symbol line keeps the invariant: up to three digits stay below 1000 (R79, R125). -/
theorem loadSymByte_inv {s : State} (h : s.Running) (ho : parentsFirst s.arena) (hv : s.val.toNat < 10 ^ s.ndig.toNat)
    (c : Byte) : ∃ t, s.loadSymByte c = .ok t ∧ t.Inv := by
  have hraise : ∀ info, (s.raise .tableSyntax info).Inv := fun info => h.raise (by simp) info
  unfold State.loadSymByte
  split_ifs with hlf hend hdig hfull
  · exact ⟨_, rfl, hraise _⟩
  · refine startPath_inv h ho ?_
    have hle := BitVec.not_lt.1 (not_or.1 hend).2
    simpa [BitVec.le_def] using hle
  · exact ⟨_, rfl, hraise _⟩
  · exact ⟨_, rfl, hraise _⟩
  · refine ⟨_, rfl, State.Running.inv h (by simp) ((pointOk_loadSym rfl).2 ⟨ho, ?_⟩)⟩
    exact addDigit_lt hv hfull (by simpa using hdig)

/-- A path character keeps the invariant. -/
theorem loadStep_inv {s : State} (h : s.Inv) (hm : s.mode = .busy .loadPath) (b : Bool) (c : Byte) :
    ∃ t, s.loadStep b c = .ok t ∧ t.Inv := by
  have hrun := running_of_inv h (by simp [hm])
  obtain ⟨ho, hcur, hv⟩ := (pointOk_loadPath hm).1 (pointOk_of_inv h)
  have hnd := readNode_of_lt hcur
  cases hb : s.arena[s.cur.val].child b with
  | some n =>
    have hn : n.val < s.arena.length := (arenaInv_linked hrun.arena).bound n
      (mem_childLinks.2 ⟨_, _, readNode_eq_ok.1 hnd, Node.child_mem_links hb⟩)
    refine ⟨_, loadStep_of_child hnd hb c, State.Running.inv hrun (by simp [hm]) ?_⟩
    exact (pointOk_loadPath (s := { s with cur := n }) hm).2 ⟨ho, hn, hv⟩
  | none =>
    by_cases hcap : s.arena.length < Config.nodeCap
    · refine ⟨_, loadStep_of_nil hnd hb hcap c, ?_⟩
      obtain ⟨hf, ha, he, hi, hq⟩ := hrun
      obtain ⟨hnew, hord⟩ := toNewChild_arenaInv ha ho (readNode_eq_ok.1 hnd) hb (n := ⟨s.arena.length, hcap⟩) rfl
      have hm' : (s.toNewChild s.arena[s.cur.val] b ⟨s.arena.length, hcap⟩).mode = .busy .loadPath := hm
      refine State.Running.inv ⟨hf, hnew, he, hi, hq⟩ (by simp [hm']) ((pointOk_loadPath hm').2 ⟨hord, ?_, hv⟩)
      simp [State.toNewChild]
    · exact ⟨_, loadStep_of_full hnd hb hcap c, hrun.raise (by simp) _⟩

/-- The line feed of a path line keeps the invariant: it writes a `sym` and no link (R126). -/
theorem placeLeaf_inv {s : State} (h : s.Inv) (hm : s.mode = .busy .loadPath) : ∃ t, s.placeLeaf = .ok t ∧ t.Inv := by
  obtain ⟨hf, ha, he, hi, hq⟩ := running_of_inv h (by simp [hm])
  obtain ⟨ho, hcur, -⟩ := (pointOk_loadPath hm).1 (pointOk_of_inv h)
  have hlinks : (s.arena.set s.cur.val { s.arena[s.cur.val] with sym := .symbol (s.val.setWidth 8) }).map Node.links =
      s.arena.map Node.links := by
    have hself : s.arena[s.cur.val].links = (s.arena.map Node.links)[s.cur.val]'(by simpa using hcur) := by simp
    rw [List.map_set]
    show (s.arena.map Node.links).set s.cur.val s.arena[s.cur.val].links = _
    rw [hself, List.set_getElem_self]
  refine ⟨{ s.setNode s.cur { s.arena[s.cur.val] with sym := .symbol (s.val.setWidth 8) } with
    mode := .busy .loadPair }, ?_, ?_⟩
  · simp only [State.placeLeaf, readNode_of_lt hcur, ok_bind]
  · exact State.Running.inv ⟨hf, arenaInv_of_links ha rfl hlinks, he, hi, hq⟩ (by simp)
      ((pointOk_loadPair rfl).2 (parentsFirst_of_links ho hlinks))

/-- Every byte keeps the invariant, wherever LOAD stands. -/
theorem loadByte_inv {s : State} (h : s.Inv) (c : Byte) : ∃ t, s.loadByte c = .ok t ∧ t.Inv := by
  unfold State.loadByte
  split
  next hm =>
    have hrun := running_of_inv h (by simp [hm])
    have ho := (pointOk_loadPair hm).1 (pointOk_of_inv h)
    exact loadSymByte_inv (s := { s with val := 0, ndig := 0 }) hrun ho (by simp) c
  next hm =>
    obtain ⟨ho, hv⟩ := (pointOk_loadSym hm).1 (pointOk_of_inv h)
    exact loadSymByte_inv (running_of_inv h (by simp [hm])) ho hv c
  next hm =>
    unfold State.loadPathByte
    split_ifs
    · exact placeLeaf_inv h hm
    · exact loadStep_inv h hm false c
    · exact loadStep_inv h hm true c
    · exact ⟨_, rfl, (running_of_inv h (by simp [hm])).raise (by simp) _⟩
  next => exact ⟨s, rfl, h⟩

/-- The end of the input keeps the invariant. -/
theorem loadEnd_inv {s : State} (h : s.Inv) : s.loadEnd.Inv := by
  unfold State.loadEnd
  split
  next =>
    split
    next hm => exact (running_of_inv h (by simp [hm])).done
    next hm => exact (running_of_inv h (by simp [hm])).raise (by simp) _
    next hm => exact (running_of_inv h (by simp [hm])).raise (by simp) _
    next => exact h
  next => exact h

/-- LOAD's loop answers and keeps the invariant. -/
theorem loadBytes_inv {cs : List Byte} {s : State} (h : s.Inv) : ∃ t, loadBytes cs s = .ok t ∧ t.Inv := by
  induction cs generalizing s with
  | nil => exact ⟨_, rfl, loadEnd_inv h⟩
  | cons c cs ih =>
    by_cases hl : s.loading = true
    · obtain ⟨u, hu, hinv⟩ := loadByte_inv (s := { s with tblSrc := { s.tblSrc with units := cs } }) h c
      obtain ⟨t, ht, htinv⟩ := ih hinv
      exact ⟨t, by simp only [loadBytes_cons hl, hu, ok_bind, ht], htinv⟩
    · exact ⟨s, loadBytes_stopped (by simpa using hl) _, h⟩

end Sys2Proof.Machine
end

section
/-! PROOFS. O3: SAVE, ENCODE, DECODE and BUILD keep the invariant, and so does a step. -/

namespace Sys2Proof.Machine

open Sys2Proof Host

/-! ### SAVE and ENCODE -/

theorem saveWrite_inv {s : State} (h : s.Running) (text : List Byte) : (s.saveWrite text).Inv := by
  have hmode := State.saveWrite_mode s text
  split at hmode <;>
    exact State.Running.inv (s := s.saveWrite text) h (by rw [hmode]; nofun) (by simp only [State.pointOk, hmode])

theorem writeCode_inv {s : State} (h : s.Running) (p : Path) : (s.writeCode p).Inv :=
  State.Running.inv (s := s.writeCode p) h (by simp) rfl

theorem encodeSym_inv {s : State} (h : s.Running) (c : Byte) : ∃ t, s.encodeSym c = .ok t ∧ t.Inv := by
  obtain ⟨tr, htr⟩ := h.tree
  cases tr with
  | empty => exact ⟨_, encodeSym_of_empty htr c, h.raise (by simp) _⟩
  | leaf d => exact ⟨_, encodeSym_of_leaf htr c, h.raise (by simp) _⟩
  | node l r =>
    cases hc : (CodeTree.node l r).codeOf c with
    | none => exact ⟨_, encodeSym_of_unknown htr hc, h.raise (by simp) _⟩
    | some p => exact ⟨_, encodeSym_of_code htr hc, writeCode_inv h p⟩

/-- Where ENCODE reads a symbol, no fault is latched. -/
theorem running_of_encodeReady {s : State} (h : s.Inv) (hr : s.encodeReady = true) : s.Running :=
  running_of_inv h fun hm => by simp [State.encodeReady, hm] at hr

/-- ENCODE's loop answers and keeps the invariant. -/
theorem encodeSyms_inv {cs : List Byte} {s : State} (h : s.Inv) : ∃ t, encodeSyms cs s = .ok t ∧ t.Inv := by
  induction cs generalizing s with
  | nil =>
    refine ⟨_, rfl, ?_⟩
    split
    next hr => exact (running_of_encodeReady h (Bool.and_eq_true_iff.1 hr).1).done
    next => exact h
  | cons c cs ih =>
    by_cases hr : s.encodeReady = true
    · obtain ⟨u, hu, hinv⟩ := encodeSym_inv (s := { s with symSrc := { s.symSrc with units := cs } })
        (running_of_encodeReady h hr) c
      obtain ⟨t, ht, htinv⟩ := ih hinv
      exact ⟨t, by simp only [encodeSyms_cons hr, hu, ok_bind, ht], htinv⟩
    · exact ⟨s, encodeSyms_stopped (by simpa using hr) _, h⟩

/-! ### DECODE -/

/-- The root is an entry of the tree. -/
theorem inTree_root {s : State} {r : Idx} (hr : s.root = some r) (hlt : r.val < s.arena.length) :
    inTree s.nodeCount s.arena s.root r = true := by
  obtain ⟨n, hn⟩ : ∃ n, s.nodeCount = n + 1 := ⟨s.arena.length - 1, by show s.arena.length = _; omega⟩
  simp [hn, hr, inTree]

/-- DECODE at the root, which is no leaf, meets the invariant. -/
theorem atRoot_inv {s : State} (h : s.Running) (hm : s.mode = .busy .decode) (hr : s.root = some s.cur) {rd : Node}
    (hrd : readNode s.arena s.cur = .ok rd) (hl : rd.sym = .sentinel) : s.Inv := by
  have hlt := (arenaInv_root h.arena hr).1
  exact h.inv (by simp [hm]) ((pointOk_decode hm).2 ⟨innerRoot_iff.2 ⟨_, rd, hr, hrd, hl⟩, hlt, inTree_root hr hlt⟩)

/-- The head of DECODE's loop answers; where it goes on, it stands at a node that is no leaf and keeps the invariant. -/
theorem decodeTop_inv {s : State} (h : s.Inv) (hm : s.mode = .busy .decode) :
    ∃ o, s.decodeTop = .ok o ∧ ∀ t, o = some t → t.Inv ∧ t.mode = .busy .decode ∧
      ∃ nd, readNode t.arena t.cur = .ok nd ∧ nd.sym = .sentinel := by
  have hrun := running_of_inv h (by simp [hm])
  obtain ⟨hroot, hcur, -⟩ := (pointOk_decode hm).1 (pointOk_of_inv h)
  obtain ⟨r, rd, hr, hrd, hl⟩ := innerRoot_iff.1 hroot
  have hnd := readNode_of_lt hcur
  cases hs : s.arena[s.cur.val].sym with
  | sentinel =>
    refine ⟨_, decodeTop_of_node hnd hs, fun t ht => ?_⟩
    cases ht
    exact ⟨h, hm, _, hnd, hs⟩
  | symbol c =>
    refine ⟨_, decodeTop_of_leaf hnd hs hr hrd hl, fun t ht => ?_⟩
    split at ht <;> cases ht
    exact ⟨atRoot_inv (s := { s with symSink := _, cur := r }) hrun hm hr hrd hl, hm, rd, hrd, hl⟩

/-- A bit keeps the invariant: the child it selects is an entry of the tree. -/
theorem decodeBit_inv {s : State} (h : s.Inv) (hm : s.mode = .busy .decode) {nd : Node}
    (hnd : readNode s.arena s.cur = .ok nd) (hs : nd.sym = .sentinel) (b : Bool) :
    ∃ t, s.decodeBit b = .ok t ∧ t.Inv ∧ (t.mode = .fault ∨ t.mode = .busy .decode) := by
  have hrun := running_of_inv h (by simp [hm])
  obtain ⟨hroot, -, hin⟩ := (pointOk_decode hm).1 (pointOk_of_inv h)
  cases hb : nd.child b with
  | none => exact ⟨_, decodeBit_of_nil hnd hb, hrun.raise (by simp) _, .inl rfl⟩
  | some n =>
    obtain ⟨tr, htr⟩ := hrun.tree
    have hn : n.val < s.arena.length := (arenaInv_linked hrun.arena).bound n
      (mem_childLinks.2 ⟨_, _, readNode_eq_ok.1 hnd, Node.child_mem_links hb⟩)
    have hin' := inTree_of_treeAt htr (inTree_child hin hnd hs hb)
    refine ⟨_, decodeBit_of_child hnd hb, State.Running.inv (s := { s with cur := n }) hrun (by simp [hm]) ?_, .inr hm⟩
    exact (pointOk_decode (s := { s with cur := n }) hm).2 ⟨hroot, hn, hin'⟩

theorem decodeEnd_inv {s : State} (h : s.Inv) (hm : s.mode = .busy .decode) : s.decodeEnd.Inv := by
  have hrun := running_of_inv h (by simp [hm])
  unfold State.decodeEnd
  split_ifs
  · exact hrun.done
  · exact hrun.raise (by simp) _
  · exact h

/-- DECODE's loop answers and keeps the invariant. -/
theorem decodeBits_inv {bs : List Bool} {s : State} (h : s.Inv) (hm : s.mode = .busy .decode) :
    ∃ t, decodeBits bs s = .ok t ∧ t.Inv := by
  induction bs generalizing s with
  | nil =>
    obtain ⟨o, ho, htop⟩ := decodeTop_inv h hm
    rw [decodeBits_nil, ho]
    cases o with
    | none => exact ⟨s, rfl, h⟩
    | some t => exact ⟨_, rfl, decodeEnd_inv (htop t rfl).1 (htop t rfl).2.1⟩
  | cons b bs ih =>
    obtain ⟨o, ho, htop⟩ := decodeTop_inv h hm
    rw [decodeBits_cons, ho]
    cases o with
    | none => exact ⟨s, rfl, h⟩
    | some t =>
      obtain ⟨hinv, hmt, nd, hnd, hs⟩ := htop t rfl
      obtain ⟨u, hu, hinvu, hmu⟩ :=
        decodeBit_inv (s := { t with bitSrc := { t.bitSrc with units := bs } }) hinv hmt hnd hs b
      simp only [ok_bind, hu]
      rcases hmu with hmu | hmu
      · exact ⟨u, by simp [hmu], hinvu⟩
      · simpa [hmu] using ih hinvu hmu

/-- DECODE's first tests keep the invariant; where they wait, the root is no inner node. -/
theorem decodeProbe_inv {s : State} (h : s.Running) (hr : s.innerRoot = false) : s.decodeProbe.Inv := by
  unfold State.decodeProbe
  split
  · exact h.raise (by split <;> simp) _
  · split
    · exact h.done
    · exact State.Running.inv (s := { s with mode := .busy .decodeProbe }) h (by simp)
        (show (!s.innerRoot) = true by rw [hr]; rfl)

/-! ### The bodies and the step -/

theorem loadBody_inv {s : State} (h : s.Running) : ∃ t, s.loadBody = .ok t ∧ t.Inv := by
  unfold State.loadBody
  split
  next => exact ⟨_, rfl, h.raise (by simp) _⟩
  next hr =>
    have hord : parentsFirst s.arena := by simp [arenaInv_empty h.arena hr, parentsFirst]
    exact loadBytes_inv (State.Running.inv (s := { s with mode := .busy .loadPair }) h (by simp)
      ((pointOk_loadPair rfl).2 hord))

theorem buildBody_inv {s : State} (h : s.Running) : ∃ t, s.buildBody = .ok t ∧ t.Inv := by
  cases hr : s.root with
  | some r => exact ⟨s.raise .treePresent 0, by simp only [State.buildBody, hr], h.raise (by simp) 0⟩
  | none =>
    obtain ⟨hf, ha, he, hi, -⟩ := h
    obtain ⟨t, ht, hq, hinv, -, hframe⟩ := buildBody_of_no_tree hr (arenaInv_empty ha hr)
    refine ⟨t, ht, ?_⟩
    have hrun : t.Running := by
      rw [hframe] at hq hinv ⊢
      exact ⟨hf, hinv, he, hi, hq⟩
    have hidle : t.mode = .idle := by rw [hframe]
    exact hrun.inv (by simp [hidle]) (by simp only [State.pointOk, hidle])

theorem decodeBody_inv {s : State} (h : s.Running) : ∃ t, s.decodeBody = .ok t ∧ t.Inv := by
  obtain ⟨tr, htr⟩ := h.tree
  have hprobe : (∀ x y, tr ≠ .node x y) → s.decodeProbe.Inv := fun hne =>
    decodeProbe_inv h (by simpa [hne] using (innerRoot_iff_node htr).not)
  cases tr with
  | empty => exact ⟨_, decodeBody_of_probe (.inl htr), hprobe nofun⟩
  | leaf d => exact ⟨_, decodeBody_of_probe (.inr ⟨d, htr⟩), hprobe nofun⟩
  | node x y =>
    obtain ⟨r, nd, hr, hnd, hs⟩ := root_of_node htr
    rw [decodeBody_of_node htr hr]
    exact decodeBits_inv (atRoot_inv (s := { s with cur := r, mode := .busy .decode }) h rfl hr hnd hs) rfl

/-- In IDLE every command answers and keeps the invariant. -/
theorem body_inv {s : State} (h : s.Running) (i : Instr) : ∃ t, body i s = .ok t ∧ t.Inv := by
  cases i
  case nop => exact ⟨_, rfl, h.done⟩
  case build => exact buildBody_inv h
  case save =>
    obtain ⟨tr, htr⟩ := h.tree
    exact ⟨s.saveWrite (tableText tr.table), by simp only [body, State.saveBody, htr, ok_bind], saveWrite_inv h _⟩
  case load => exact loadBody_inv h
  case encode => exact encodeSyms_inv (writeCode_inv h [])
  case decode => exact decodeBody_inv h
  case reserved6 => exact ⟨_, rfl, h.raise (by simp) _⟩
  case reset => exact ⟨_, rfl, toReset_inv s⟩

/-- Offering a command in any mode keeps the invariant. -/
theorem exec_inv {s : State} (h : s.Inv) (i : Instr) : ∃ t, exec i s = .next t ∧ t.Inv := by
  by_cases hm : s.mode = .idle
  · obtain ⟨t, ht, hinv⟩ := body_inv (running_of_inv h (by simp [hm])) i
    exact ⟨t, by rw [exec_of_idle hm, ht, toOutcome_ok], hinv⟩
  · by_cases hi : i = .reset
    · subst hi
      obtain hx | hx := exec_reset_cases s
      · exact ⟨_, hx, toReset_inv s⟩
      · exact ⟨_, hx, h⟩
    · exact ⟨s, exec_of_not_idle hm hi, h⟩

/-- What the host does keeps the invariant: a count is written in IDLE only, and a stream is no state of the core. -/
theorem hostAct_inv {s : State} (h : s.Inv) (a : HostAct) : (s.hostAct a).Inv := by
  cases a
  case freqw i d =>
    obtain ⟨hf, hrest⟩ := h
    exact ⟨Memory.write_wf hf i.isLt, hrest⟩
  case rst => exact toReset_inv s
  all_goals exact h

/-- A command that waits answers when it is resumed, and keeps the invariant. -/
theorem resume_inv {s : State} (h : s.Inv) : ∃ t, s.resume = .ok t ∧ t.Inv := by
  unfold State.resume
  split
  case h_1 => exact ⟨s, rfl, h⟩
  case h_2 => exact ⟨s, rfl, h⟩
  case h_3 rest hm => exact ⟨_, rfl, saveWrite_inv (running_of_inv h (by simp [hm])) rest⟩
  case h_4 => exact loadBytes_inv h
  case h_5 => exact loadBytes_inv h
  case h_6 => exact loadBytes_inv h
  case h_7 rest hm => exact encodeSyms_inv (writeCode_inv (running_of_inv h (by simp [hm])) rest)
  case h_8 hm =>
    have hp : (!s.innerRoot) = true := by simpa only [State.pointOk, hm] using pointOk_of_inv h
    exact ⟨_, rfl, decodeProbe_inv (running_of_inv h (by simp [hm])) (by simpa using hp)⟩
  case h_9 hm => exact decodeBits_inv h hm

/-- Settles O3, by what a step can be. -/
theorem stepKeepsInvariant : Obligations.StepKeepsInvariant := by
  intro s h
  obtain ⟨op, rest, -, hs⟩ | ⟨a, rest, -, hs⟩ | ⟨-, hs⟩ := step_cases s <;> rw [hs]
  · exact exec_inv (s := { s with script := rest }) h (decodeOp op)
  · exact ⟨_, rfl, hostAct_inv (s := { s with script := rest }) h a⟩
  · obtain ⟨t, ht, hinv⟩ := resume_inv h
    exact ⟨t, by rw [ht, toOutcome_ok], hinv⟩

end Sys2Proof.Machine
end

section
/-! PROOFS. O42: what the root, ENCODE's tests and DECODE's walk read is a function of the tree as a value. -/

namespace Sys2Proof.Machine

open Sys2Proof Host

/-! ### Two states that show the same -/

/-- Two states with one tree as a value, one mode, one latched fault and one set of ports; their arenas may differ. -/
structure Alike (s s' : State) : Prop where
  tree : ∃ tr, s.tree = .ok tr ∧ s'.tree = .ok tr
  mode : s.mode = s'.mode
  err : s.err = s'.err
  errInfo : s.errInfo = s'.errInfo
  bitSrc : s.bitSrc = s'.bitSrc
  symSrc : s.symSrc = s'.symSrc
  tblSrc : s.tblSrc = s'.tblSrc
  bitSink : s.bitSink = s'.bitSink
  symSink : s.symSink = s'.symSink
  tblSink : s.tblSink = s'.tblSink

theorem Alike.status {s s' : State} (h : Alike s s') : s.status = s'.status := by
  obtain ⟨tr, ht, ht'⟩ := h.tree
  rw [status_of_tree ht, status_of_tree ht', h.err, h.errInfo, h.mode]

theorem Alike.raise {s s' : State} (h : Alike s s') (code : ErrCode) (info : BitVec 9) :
    Alike (s.raise code info) (s'.raise code info) :=
  { h with mode := rfl, err := rfl, errInfo := rfl }

theorem Alike.done {s s' : State} (h : Alike s s') : Alike s.done s'.done := { h with mode := rfl }

theorem Alike.saveWrite {s s' : State} (h : Alike s s') (text : List Byte) : Alike (s.saveWrite text) (s'.saveWrite text) :=
  { h with
    mode := by rw [State.saveWrite_mode, State.saveWrite_mode, h.tblSink]
    tblSink := by rw [State.saveWrite_tblSink, State.saveWrite_tblSink, h.tblSink] }

theorem Alike.writeCode {s s' : State} (h : Alike s s') (p : Path) : Alike (s.writeCode p) (s'.writeCode p) :=
  { h with
    mode := by rw [State.writeCode_mode, State.writeCode_mode, h.bitSink]
    bitSink := by rw [State.writeCode_bitSink, State.writeCode_bitSink, h.bitSink] }

/-- Two runs that both answer, with states that show the same. -/
def AlikeRuns (x x' : Except Fault State) : Prop := ∃ t t', x = .ok t ∧ x' = .ok t' ∧ Alike t t'

theorem AlikeRuns.ok {s s' : State} (h : Alike s s') : AlikeRuns (.ok s) (.ok s') := ⟨s, s', rfl, rfl, h⟩

theorem AlikeRuns.bind {x x' : Except Fault State} {f : State → Except Fault State} (h : AlikeRuns x x')
    (hf : ∀ t t', Alike t t' → AlikeRuns (f t) (f t')) : AlikeRuns (x >>= f) (x' >>= f) := by
  obtain ⟨t, t', rfl, rfl, ht⟩ := h
  exact hf t t' ht

/-! ### SAVE and ENCODE -/

theorem Alike.saveBody {s s' : State} (h : Alike s s') : AlikeRuns s.saveBody s'.saveBody := by
  obtain ⟨tr, ht, ht'⟩ := h.tree
  simp only [State.saveBody, ht, ht', ok_bind]
  exact .ok (h.saveWrite _)

theorem Alike.encodeSym {s s' : State} (h : Alike s s') (c : Byte) : AlikeRuns (s.encodeSym c) (s'.encodeSym c) := by
  obtain ⟨tr, ht, ht'⟩ := h.tree
  cases tr with
  | empty =>
    rw [encodeSym_of_empty ht, encodeSym_of_empty ht']
    exact .ok (h.raise _ _)
  | leaf d =>
    rw [encodeSym_of_leaf ht, encodeSym_of_leaf ht']
    exact .ok (h.raise _ _)
  | node l r =>
    cases hc : (CodeTree.node l r).codeOf c with
    | none =>
      rw [encodeSym_of_unknown ht hc, encodeSym_of_unknown ht' hc]
      exact .ok (h.raise _ _)
    | some p =>
      rw [encodeSym_of_code ht hc, encodeSym_of_code ht' hc]
      exact .ok (h.writeCode p)

theorem Alike.encodeReady {s s' : State} (h : Alike s s') : s.encodeReady = s'.encodeReady := by
  simp only [State.encodeReady, h.mode]

theorem Alike.encodeSyms {cs : List Byte} {s s' : State} (h : Alike s s') :
    AlikeRuns (encodeSyms cs s) (encodeSyms cs s') := by
  induction cs generalizing s s' with
  | nil =>
    simp only [Machine.encodeSyms, ← h.encodeReady, ← h.symSrc]
    split
    · exact .ok h.done
    · exact .ok h
  | cons c cs ih =>
    by_cases hr : s.encodeReady = true
    · rw [encodeSyms_cons hr, encodeSyms_cons (h.encodeReady ▸ hr)]
      have h' : Alike { s with symSrc := { s.symSrc with units := cs } }
          { s' with symSrc := { s'.symSrc with units := cs } } :=
        { h with symSrc := by rw [h.symSrc] }
      exact (h'.encodeSym c).bind fun _ _ => ih
    · rw [encodeSyms_stopped (by simpa using hr), encodeSyms_stopped (by simpa [← h.encodeReady] using hr)]
      exact .ok h

theorem Alike.encodeBody {s s' : State} (h : Alike s s') : AlikeRuns s.encodeBody s'.encodeBody := by
  simp only [State.encodeBody, State.encodeRun, ← h.symSrc]
  exact (h.writeCode []).encodeSyms

end Sys2Proof.Machine
end

section
/-! PROOFS. O42, DECODE: two walks at one place of one tree take the same steps. -/

namespace Sys2Proof.Machine

open Sys2Proof Host

/-- The tree below the entry where DECODE stands. -/
def State.here (s : State) : Except Fault CodeTree := treeAt s.nodeCount s.arena (some s.cur)

/-- Two states that show the same, DECODE standing at one place of one tree that is no single leaf. -/
structure AlikeAt (s s' : State) : Prop extends Alike s s' where
  arena : s.arenaInv ∧ s'.arenaInv
  inner : ∃ l r, s.tree = .ok (.node l r) ∧ s'.tree = .ok (.node l r)
  here : ∃ x, s.here = .ok x ∧ s'.here = .ok x
  atRoot : s.root = some s.cur ↔ s'.root = some s'.cur

/-- At the root DECODE stands at the whole tree. -/
theorem here_of_root {s : State} {r : Idx} (hr : s.root = some r) : { s with cur := r }.here = s.tree := by
  simp only [State.here, State.tree, hr]

/-- Both walks may start at the root, or come back to it. -/
theorem AlikeAt.toRoot {s s' : State} (h : Alike s s') (ha : s.arenaInv ∧ s'.arenaInv) {l r : CodeTree}
    (ht : s.tree = .ok (.node l r)) (ht' : s'.tree = .ok (.node l r)) {i i' : Idx} (hr : s.root = some i)
    (hr' : s'.root = some i') : AlikeAt { s with cur := i } { s' with cur := i' } :=
  { h with
    arena := ha
    inner := ⟨l, r, ht, ht'⟩
    here := ⟨.node l r, (here_of_root hr).trans ht, (here_of_root hr').trans ht'⟩
    atRoot := by simp [hr, hr'] }

/-- A walk that has gone to a child is not at the root (R20 item 2). -/
theorem child_ne_root {s : State} (h : s.arenaInv) {nd : Node} {b : Bool} {n : Idx} (hnd : readNode s.arena s.cur = .ok nd)
    (hb : nd.child b = some n) : s.root ≠ some n := fun hr =>
  (arenaInv_root h hr).2 (mem_childLinks.2 ⟨_, nd, readNode_eq_ok.1 hnd, Node.child_mem_links hb⟩)

/-- The head of the loop: both go on at one inner place, or both wait. -/
theorem AlikeAt.decodeTop {s s' : State} (h : AlikeAt s s') :
    (s.decodeTop = .ok none ∧ s'.decodeTop = .ok none) ∨
    ∃ t t', s.decodeTop = .ok (some t) ∧ s'.decodeTop = .ok (some t') ∧ AlikeAt t t' ∧ ∃ x y, t.here = .ok (.node x y) := by
  obtain ⟨x, hx, hx'⟩ := h.here
  obtain ⟨l, r, ht, ht'⟩ := h.inner
  obtain ⟨i, rd, hi, hrd, hrs⟩ := root_of_node ht
  obtain ⟨i', rd', hi', hrd', hrs'⟩ := root_of_node ht'
  obtain ⟨nd, hnd, ⟨c, hs, rfl⟩ | ⟨y, z, hs, rfl, -⟩⟩ := treeAt_entry hx <;>
    obtain ⟨nd', hnd', ⟨c', hs', heq⟩ | ⟨y', z', hs', heq, -⟩⟩ := treeAt_entry hx' <;> cases heq
  · rw [decodeTop_of_leaf hnd hs hi hrd hrs, decodeTop_of_leaf hnd' hs' hi' hrd' hrs', ← h.symSink]
    split
    · refine .inr ⟨_, _, rfl, rfl, ?_, l, r, (here_of_root hi).trans ht⟩
      exact AlikeAt.toRoot (s := { s with symSink := (s.symSink.push [c]).1 })
        (s' := { s' with symSink := (s.symSink.push [c]).1 }) { h.toAlike with symSink := rfl } h.arena ht ht' hi hi'
    · exact .inl ⟨rfl, rfl⟩
  · exact .inr ⟨s, s', decodeTop_of_node hnd hs, decodeTop_of_node hnd' hs', h, y, z, hx⟩

/-- One bit at an inner place: both fault, or both step to one place below. -/
theorem AlikeAt.decodeBit {s s' : State} (h : AlikeAt s s') {x y : CodeTree} (hxy : s.here = .ok (.node x y)) (b : Bool) :
    ∃ t t', s.decodeBit b = .ok t ∧ s'.decodeBit b = .ok t' ∧ Alike t t' ∧ (t.mode = .fault ∨ AlikeAt t t') := by
  obtain ⟨z, hz, hz'⟩ := h.here
  obtain rfl : z = .node x y := Except.ok.inj (hz.symm.trans hxy)
  obtain ⟨nd, hnd, ⟨c, -, hc⟩ | ⟨x, y, hs, heq, hchild⟩⟩ := treeAt_entry hz
  · cases hc
  obtain ⟨nd', hnd', ⟨c, -, hc⟩ | ⟨x', y', hs', heq', hchild'⟩⟩ := treeAt_entry hz'
  · cases hc
  cases heq
  cases heq'
  cases hb : nd.child b with
  | none =>
    have hb' : nd'.child b = none := by
      rw [← treeAt_eq_empty (n := s'.nodeCount) (arena := s'.arena), hchild', ← hchild, hb, treeAt_none]
    exact ⟨_, _, decodeBit_of_nil hnd hb, decodeBit_of_nil hnd' hb', h.toAlike.raise _ _, .inl rfl⟩
  | some n =>
    cases hb' : nd'.child b with
    | none =>
      have : nd.child b = none := by
        rw [← treeAt_eq_empty (n := s.nodeCount) (arena := s.arena), hchild, ← hchild', hb', treeAt_none]
      simp [hb] at this
    | some n' =>
      have hn : treeAt s.nodeCount s.arena (some n) = .ok (if b then y else x) := by rw [← hb, hchild]
      have hn' : treeAt s'.nodeCount s'.arena (some n') = .ok (if b then y else x) := by rw [← hb', hchild']
      have hat : AlikeAt { s with cur := n } { s' with cur := n' } :=
        { h.toAlike with
          arena := h.arena
          inner := h.inner
          here := ⟨_, hn, hn'⟩
          atRoot := iff_of_false (child_ne_root h.arena.1 hnd hb) (child_ne_root h.arena.2 hnd' hb') }
      exact ⟨_, _, decodeBit_of_child hnd hb, decodeBit_of_child hnd' hb', hat.toAlike, .inr hat⟩

theorem AlikeAt.decodeEnd {s s' : State} (h : AlikeAt s s') : Alike s.decodeEnd s'.decodeEnd := by
  simp only [State.decodeEnd, ← h.bitSrc, ← h.atRoot]
  split_ifs
  · exact h.toAlike.done
  · exact h.toAlike.raise _ _
  · exact h.toAlike

theorem AlikeAt.decodeBits {bs : List Bool} {s s' : State} (h : AlikeAt s s') :
    AlikeRuns (decodeBits bs s) (decodeBits bs s') := by
  induction bs generalizing s s' with
  | nil =>
    rw [decodeBits_nil, decodeBits_nil]
    obtain ⟨ho, ho'⟩ | ⟨t, t', ho, ho', hat, -⟩ := h.decodeTop <;> rw [ho, ho']
    · exact .ok h.toAlike
    · exact .ok hat.decodeEnd
  | cons b bs ih =>
    rw [decodeBits_cons, decodeBits_cons]
    obtain ⟨ho, ho'⟩ | ⟨t, t', ho, ho', hat, x, y, hxy⟩ := h.decodeTop <;> rw [ho, ho']
    · exact .ok h.toAlike
    · have hat' : AlikeAt { t with bitSrc := { t.bitSrc with units := bs } }
          { t' with bitSrc := { t'.bitSrc with units := bs } } :=
        { hat with bitSrc := by rw [hat.bitSrc] }
      obtain ⟨u, u', hu, hu', halike, hcase⟩ := hat'.decodeBit hxy b
      simp only [ok_bind, hu, hu', ← halike.mode]
      split
      · exact .ok halike
      · exact ih (hcase.resolve_left ‹_›)

theorem AlikeAt.decodeRun {s s' : State} (h : AlikeAt s s') : AlikeRuns s.decodeRun s'.decodeRun := by
  rw [State.decodeRun, State.decodeRun, ← h.bitSrc]
  exact h.decodeBits

/-- DECODE's first tests without a tree and at a single leaf. -/
theorem Alike.decodeProbe {s s' : State} (h : Alike s s') : Alike s.decodeProbe s'.decodeProbe := by
  have hroot : s.root = none ↔ s'.root = none := by
    obtain ⟨tr, ht, ht'⟩ := h.tree
    rw [← root_of_empty, ← root_of_empty, ht, ht']
  simp only [State.decodeProbe, ← h.bitSrc, hroot]
  split
  · exact h.raise _ _
  · split
    · exact h.done
    · exact { h with mode := rfl, bitSrc := rfl }

theorem Alike.decodeBody {s s' : State} (h : Alike s s') (ha : s.arenaInv ∧ s'.arenaInv) :
    AlikeRuns s.decodeBody s'.decodeBody := by
  obtain ⟨tr, ht, ht'⟩ := h.tree
  cases tr with
  | empty =>
    rw [decodeBody_of_probe (.inl ht), decodeBody_of_probe (.inl ht')]
    exact .ok h.decodeProbe
  | leaf d =>
    rw [decodeBody_of_probe (.inr ⟨d, ht⟩), decodeBody_of_probe (.inr ⟨d, ht'⟩)]
    exact .ok h.decodeProbe
  | node l r =>
    obtain ⟨i, -, hi, -, -⟩ := root_of_node ht
    obtain ⟨i', -, hi', -, -⟩ := root_of_node ht'
    rw [decodeBody_of_node ht hi, decodeBody_of_node ht' hi']
    exact (AlikeAt.toRoot (s := { s with mode := .busy .decode }) (s' := { s' with mode := .busy .decode })
      { h with mode := rfl } ha ht ht' hi hi').decodeRun

/-- Settles O42: two states that show the same still do after each command that runs on a finished tree. -/
theorem treeDecidesWhatIsObserved : Obligations.TreeDecidesWhatIsObserved := by
  intro i s s' hi h h' hm hm' htree hbi hsi hti hbo hso hto
  obtain ⟨-, ha, he, hinfo, -⟩ := running_of_inv h (by simp [hm])
  obtain ⟨-, ha', he', hinfo', -⟩ := running_of_inv h' (by simp [hm'])
  obtain ⟨tr, ht⟩ := tree_of_arenaInv ha
  have hs : Alike s s' :=
    ⟨⟨tr, ht, htree ▸ ht⟩, by rw [hm, hm'], by rw [he, he'], by rw [hinfo, hinfo'], hbi, hsi, hti, hbo, hso, hto⟩
  have hrun : AlikeRuns (body i s) (body i s') := by
    rcases hi with rfl | rfl | rfl
    · exact hs.saveBody
    · exact hs.encodeBody
    · exact hs.decodeBody ⟨ha, ha'⟩
  obtain ⟨t, t', hr, hr', hres⟩ := hrun
  exact ⟨t, t', by rw [exec_of_idle hm, hr, toOutcome_ok], by rw [exec_of_idle hm', hr', toOutcome_ok], hres.status,
    hres.mode, hres.bitSrc, hres.symSrc, hres.tblSrc, hres.bitSink, hres.symSink, hres.tblSink⟩

end Sys2Proof.Machine
end

section
/-! PROOFS. O23: which transient registers hold a value at each point of a command, and that no command reads another one. -/

namespace Sys2Proof.Machine

open Sys2Proof Host

/-! ### Runs that agree -/

/-- Two runs that stop with one fault of the model, or answer with related values. -/
def Agree {α β : Type} (R : α → β → Prop) (x : Except Fault α) (y : Except Fault β) : Prop :=
  match x, y with
  | .ok a, .ok b => R a b
  | .error e, .error f => e = f
  | _, _ => False

theorem Agree.ok {α β : Type} {R : α → β → Prop} {a : α} {b : β} (h : R a b) : Agree R (.ok a) (.ok b) := h

theorem Agree.error {α β : Type} {R : α → β → Prop} (e : Fault) : Agree R (.error e) (.error e) := rfl

theorem Agree.bind {α β γ δ : Type} {R : α → β → Prop} {Q : γ → δ → Prop} {x : Except Fault α} {y : Except Fault β}
    {f : α → Except Fault γ} {g : β → Except Fault δ} (h : Agree R x y) (hfg : ∀ a b, R a b → Agree Q (f a) (g b)) :
    Agree Q (x >>= f) (y >>= g) := by
  cases x <;> cases y
  case error.error e e' => obtain rfl : e = e' := h; exact .error e
  case ok.ok a b => exact hfg a b h
  all_goals exact h.elim

/-- Two runs that begin with one read. -/
theorem Agree.bind_same {α γ δ : Type} {Q : γ → δ → Prop} (x : Except Fault α) {f : α → Except Fault γ}
    {g : α → Except Fault δ} (hfg : ∀ a, Agree Q (f a) (g a)) : Agree Q (x >>= f) (x >>= g) := by
  cases x
  case error e => exact .error e
  case ok a => exact hfg a

/-! ### The registers that are live -/

/-- Other values in the transient registers. -/
def State.withTransients (s : State) (pq : List PqEntry) (sn : BitVec 9) (cur : Idx) (val : BitVec 10) (nd : BitVec 2) :
    State :=
  { s with pq := pq, seqNext := sn, cur := cur, val := val, ndig := nd }

/-- The transient registers that hold a value where a command waits are equal in both states (R10, R11). -/
def LiveKept (s t : State) : Prop :=
  match s.mode with
  | .busy .loadSym => t.val = s.val ∧ t.ndig = s.ndig
  | .busy .loadPath => t.cur = s.cur ∧ t.val = s.val
  | .busy .decode => t.cur = s.cur
  | _ => True

/-- Two states that differ in transient registers which hold no value. -/
structure SameLive (s t : State) : Prop where
  frame : t = { s with pq := t.pq, seqNext := t.seqNext, cur := t.cur, val := t.val, ndig := t.ndig }
  live : LiveKept s t

theorem SameLive.exists_eq {s t : State} (h : SameLive s t) : ∃ pq sn cur val nd, t = s.withTransients pq sn cur val nd :=
  ⟨_, _, _, _, _, h.frame⟩

theorem SameLive.raise {s t : State} (h : SameLive s t) (code : ErrCode) (info : BitVec 9) :
    SameLive (s.raise code info) (t.raise code info) := by
  obtain ⟨pq, sn, cur, val, nd, rfl⟩ := h.exists_eq
  exact ⟨rfl, trivial⟩

theorem SameLive.done {s t : State} (h : SameLive s t) : SameLive s.done t.done := by
  obtain ⟨pq, sn, cur, val, nd, rfl⟩ := h.exists_eq
  exact ⟨rfl, trivial⟩

/-! ### SAVE and ENCODE use no transient register -/

theorem SameLive.saveBody {s t : State} (h : SameLive s t) : Agree SameLive s.saveBody t.saveBody := by
  obtain ⟨pq, sn, cur, val, nd, rfl⟩ := h.exists_eq
  refine Agree.bind_same s.tree fun tr => .ok ⟨rfl, ?_⟩
  have hmode := State.saveWrite_mode s (tableText tr.table)
  split at hmode <;> simp only [LiveKept, hmode]

theorem SameLive.writeCode {s t : State} (h : SameLive s t) (p : Path) : SameLive (s.writeCode p) (t.writeCode p) := by
  obtain ⟨pq, sn, cur, val, nd, rfl⟩ := h.exists_eq
  exact ⟨rfl, trivial⟩

theorem SameLive.encodeSym {s t : State} (h : SameLive s t) (c : Byte) :
    Agree SameLive (s.encodeSym c) (t.encodeSym c) := by
  have hraise := h.raise
  have hwrite := h.writeCode
  obtain ⟨pq, sn, cur, val, nd, rfl⟩ := h.exists_eq
  unfold State.encodeSym
  split
  next hr =>
    simp only [show (s.withTransients pq sn cur val nd).root = none from hr]
    exact .ok (hraise _ _)
  next r hr =>
    simp only [show (s.withTransients pq sn cur val nd).root = some r from hr]
    refine Agree.bind_same (readNode s.arena r) fun nd => ?_
    split
    · exact .ok (hraise _ _)
    · refine Agree.bind_same s.tree fun tr => ?_
      cases tr.codeOf c with
      | none => exact .ok (hraise _ _)
      | some p => exact .ok (hwrite p)

theorem SameLive.encodeSyms {cs : List Byte} {s t : State} (h : SameLive s t) :
    Agree SameLive (encodeSyms cs s) (encodeSyms cs t) := by
  have hready : t.encodeReady = s.encodeReady := by rw [h.frame]; rfl
  induction cs generalizing s t with
  | nil =>
    have hsrc : t.symSrc = s.symSrc := by rw [h.frame]
    simp only [Machine.encodeSyms, hready, hsrc]
    split
    · exact .ok h.done
    · exact .ok h
  | cons c cs ih =>
    by_cases hr : s.encodeReady = true
    · rw [encodeSyms_cons hr, encodeSyms_cons (hready.trans hr)]
      have h' : SameLive { s with symSrc := { s.symSrc with units := cs } }
          { t with symSrc := { t.symSrc with units := cs } } := by
        obtain ⟨pq, sn, cur, val, nd, rfl⟩ := h.exists_eq
        exact ⟨rfl, h.live⟩
      exact (h'.encodeSym c).bind fun u v huv => ih huv (by rw [huv.frame]; rfl)
    · rw [encodeSyms_stopped (by simpa using hr), encodeSyms_stopped (by simpa [hready] using hr)]
      exact .ok h

theorem SameLive.encodeBody {s t : State} (h : SameLive s t) : Agree SameLive s.encodeBody t.encodeBody := by
  have hsrc : t.symSrc = s.symSrc := by rw [h.frame]
  simp only [State.encodeBody, State.encodeRun, hsrc]
  exact (h.writeCode []).encodeSyms

end Sys2Proof.Machine
end

section
/-! PROOFS. O23: DECODE, LOAD and BUILD write each transient register before they read it. -/

namespace Sys2Proof.Machine

open Sys2Proof Host

/-! ### DECODE reads `cur` -/

theorem SameLive.exists_of_decode {s t : State} (h : SameLive s t) (hm : s.mode = .busy .decode) :
    ∃ pq sn val nd, t = s.withTransients pq sn s.cur val nd := by
  have hcur : t.cur = s.cur := by simpa only [LiveKept, hm] using h.live
  exact ⟨_, _, _, _, hcur ▸ h.frame⟩

/-- Two states of DECODE's loop. -/
abbrev SameWalk (s t : State) : Prop := SameLive s t ∧ s.mode = .busy .decode

theorem sameWalk {s : State} (hm : s.mode = .busy .decode) (pq : List PqEntry) (sn : BitVec 9) (val : BitVec 10)
    (nd : BitVec 2) : SameWalk s (s.withTransients pq sn s.cur val nd) :=
  ⟨⟨rfl, by simp only [LiveKept, hm]; rfl⟩, hm⟩

theorem SameWalk.decodeTop {s t : State} (h : SameWalk s t) :
    Agree (Option.Rel SameWalk) s.decodeTop t.decodeTop := by
  obtain ⟨h, hm⟩ := h
  obtain ⟨pq, sn, val, nd, rfl⟩ := h.exists_of_decode hm
  cases hn : readNode s.arena s.cur with
  | error e =>
    simp only [State.decodeTop, show readNode (s.withTransients pq sn s.cur val nd).arena
      (s.withTransients pq sn s.cur val nd).cur = .error e from hn, hn, error_bind]
    exact .error e
  | ok n =>
    cases hs : n.sym with
    | sentinel =>
      rw [decodeTop_of_node hn hs, decodeTop_of_node (s := s.withTransients pq sn s.cur val nd) hn hs]
      exact .ok (.some ⟨h, hm⟩)
    | symbol c =>
      cases hr : s.root with
      | none =>
        rw [decodeTop_of_leaf_no_root hn hs hr,
          decodeTop_of_leaf_no_root (s := s.withTransients pq sn s.cur val nd) hn hs hr]
        exact .error _
      | some r =>
        rw [decodeTop_at_leaf hn hs hr, decodeTop_at_leaf (s := s.withTransients pq sn s.cur val nd) hn hs hr]
        refine Agree.bind_same (readNode s.arena r) fun rd => ?_
        split
        · exact .error _
        · refine .ok ?_
          show Option.Rel SameWalk _ (if (s.symSink.push [c]).2 = [] then _ else _)
          split
          · exact .some (sameWalk (s := { s with symSink := (s.symSink.push [c]).1, cur := r }) hm pq sn val nd)
          · exact .none

theorem SameWalk.decodeBit {s t : State} (h : SameWalk s t) (b : Bool) :
    Agree (fun u v => SameLive u v ∧ (u.mode = .fault ∨ SameWalk u v)) (s.decodeBit b) (t.decodeBit b) := by
  obtain ⟨h, hm⟩ := h
  have hraise := h.raise
  obtain ⟨pq, sn, val, nd, rfl⟩ := h.exists_of_decode hm
  refine Agree.bind_same (readNode s.arena s.cur) fun n => ?_
  cases n.child b with
  | none => exact .ok ⟨hraise _ _, .inl rfl⟩
  | some k =>
    have hk := sameWalk (s := { s with cur := k }) hm pq sn val nd
    exact .ok ⟨hk.1, .inr hk⟩

theorem SameWalk.decodeEnd {s t : State} (h : SameWalk s t) : SameLive s.decodeEnd t.decodeEnd := by
  obtain ⟨h, hm⟩ := h
  have hraise := h.raise
  have hdone := h.done
  obtain ⟨pq, sn, val, nd, rfl⟩ := h.exists_of_decode hm
  unfold State.decodeEnd
  simp only [show (s.withTransients pq sn s.cur val nd).bitSrc = s.bitSrc from rfl,
    show (s.withTransients pq sn s.cur val nd).root = s.root from rfl,
    show (s.withTransients pq sn s.cur val nd).cur = s.cur from rfl]
  split_ifs
  · exact hdone
  · exact hraise _ _
  · exact h

theorem SameWalk.decodeBits {bs : List Bool} {s t : State} (h : SameWalk s t) :
    Agree SameLive (decodeBits bs s) (decodeBits bs t) := by
  induction bs generalizing s t with
  | nil =>
    rw [decodeBits_nil, decodeBits_nil]
    refine h.decodeTop.bind fun o o' ho => ?_
    cases ho with
    | none => exact .ok h.1
    | some huv => exact .ok huv.decodeEnd
  | cons b bs ih =>
    rw [decodeBits_cons, decodeBits_cons]
    refine h.decodeTop.bind fun o o' ho => ?_
    cases ho with
    | none => exact .ok h.1
    | @some u v huv =>
      have h' : SameWalk { u with bitSrc := { u.bitSrc with units := bs } }
          { v with bitSrc := { v.bitSrc with units := bs } } := by
        obtain ⟨h, hm⟩ := huv
        obtain ⟨pq, sn, val, nd, rfl⟩ := h.exists_of_decode hm
        exact sameWalk (s := { u with bitSrc := { u.bitSrc with units := bs } }) hm pq sn val nd
      refine (h'.decodeBit b).bind fun x y hxy => ?_
      obtain ⟨hlive, hcase⟩ := hxy
      have hmode : y.mode = x.mode := by rw [hlive.frame]
      rw [hmode]
      split
      · exact .ok hlive
      · exact ih (hcase.resolve_left ‹_›)

theorem SameLive.decodeProbe {s t : State} (h : SameLive s t) : SameLive s.decodeProbe t.decodeProbe := by
  have hraise := h.raise
  have hdone := h.done
  obtain ⟨pq, sn, cur, val, nd, rfl⟩ := h.exists_eq
  unfold State.decodeProbe
  simp only [show (s.withTransients pq sn cur val nd).bitSrc = s.bitSrc from rfl,
    show (s.withTransients pq sn cur val nd).root = s.root from rfl]
  split
  · exact hraise _ _
  · split
    · exact hdone
    · exact ⟨rfl, trivial⟩

theorem SameLive.decodeBody {s t : State} (h : SameLive s t) : Agree SameLive s.decodeBody t.decodeBody := by
  have hprobe := h.decodeProbe
  obtain ⟨pq, sn, cur, val, nd, rfl⟩ := h.exists_eq
  unfold State.decodeBody
  split
  next hr =>
    split
    next => exact .ok hprobe
    next r hr' => exact absurd (hr.symm.trans hr') (by simp)
  next r hr =>
    split
    next hr' => exact absurd (hr'.symm.trans hr) (by simp)
    next r' hr' =>
      obtain rfl : r' = r := Option.some.inj (hr'.symm.trans hr)
      refine Agree.bind_same (readNode s.arena r') fun n => ?_
      split
      · exact .ok hprobe
      · exact (sameWalk (s := { s with cur := r', mode := .busy .decode }) rfl pq sn val nd).decodeBits

end Sys2Proof.Machine
end

section
/-! PROOFS. O23: LOAD and BUILD. -/

namespace Sys2Proof.Machine

open Sys2Proof Host

/-! ### LOAD clears `val` and `ndig` for a symbol line, and sets `cur` for a path line -/

theorem SameLive.exists_of_loadSym {s t : State} (h : SameLive s t) (hm : s.mode = .busy .loadSym) :
    ∃ pq sn cur, t = s.withTransients pq sn cur s.val s.ndig := by
  obtain ⟨hval, hnd⟩ : t.val = s.val ∧ t.ndig = s.ndig := by simpa only [LiveKept, hm] using h.live
  exact ⟨_, _, _, hval ▸ hnd ▸ h.frame⟩

theorem SameLive.exists_of_loadPath {s t : State} (h : SameLive s t) (hm : s.mode = .busy .loadPath) :
    ∃ pq sn nd, t = s.withTransients pq sn s.cur s.val nd := by
  obtain ⟨hcur, hval⟩ : t.cur = s.cur ∧ t.val = s.val := by simpa only [LiveKept, hm] using h.live
  exact ⟨_, _, _, hcur ▸ hval ▸ h.frame⟩

theorem sameLive_of_loadPath {s : State} (hm : s.mode = .busy .loadPath) (pq : List PqEntry) (sn : BitVec 9)
    (nd : BitVec 2) : SameLive s (s.withTransients pq sn s.cur s.val nd) :=
  ⟨rfl, by simp only [LiveKept, hm]; exact ⟨rfl, rfl⟩⟩

/-- A fault raised in states with other transient registers. -/
theorem sameLive_raise (s : State) (pq : List PqEntry) (sn : BitVec 9) (cur : Idx) (val : BitVec 10) (nd : BitVec 2)
    (code : ErrCode) (info : BitVec 9) :
    SameLive (s.raise code info) ((s.withTransients pq sn cur val nd).raise code info) :=
  ⟨rfl, trivial⟩

theorem startPath_agree (s : State) (pq : List PqEntry) (sn : BitVec 9) (cur : Idx) (nd : BitVec 2) :
    Agree SameLive s.startPath (s.withTransients pq sn cur s.val nd).startPath := by
  cases hr : s.root with
  | some r =>
    rw [startPath_of_root hr, startPath_of_root (s := s.withTransients pq sn cur s.val nd) hr]
    exact .ok ⟨rfl, rfl, rfl⟩
  | none =>
    by_cases hcap : s.arena.length < Config.nodeCap
    · rw [startPath_of_no_root hr hcap, startPath_of_no_root (s := s.withTransients pq sn cur s.val nd) hr hcap]
      exact .ok ⟨rfl, rfl, rfl⟩
    · rw [startPath_of_full hr hcap, startPath_of_full (s := s.withTransients pq sn cur s.val nd) hr hcap]
      exact .error _

theorem loadSymByte_agree (s : State) (pq : List PqEntry) (sn : BitVec 9) (cur : Idx) (c : Byte) :
    Agree SameLive (s.loadSymByte c) ((s.withTransients pq sn cur s.val s.ndig).loadSymByte c) := by
  have hraise := sameLive_raise s pq sn cur s.val s.ndig
  unfold State.loadSymByte
  simp only [show (s.withTransients pq sn cur s.val s.ndig).val = s.val from rfl,
    show (s.withTransients pq sn cur s.val s.ndig).ndig = s.ndig from rfl]
  split_ifs
  · exact .ok (hraise _ _)
  · exact startPath_agree s pq sn cur s.ndig
  · exact .ok (hraise _ _)
  · exact .ok (hraise _ _)
  · exact .ok ⟨rfl, rfl, rfl⟩

theorem loadStep_agree {s : State} (hm : s.mode = .busy .loadPath) (pq : List PqEntry) (sn : BitVec 9) (nd : BitVec 2)
    (b : Bool) (c : Byte) : Agree SameLive (s.loadStep b c) ((s.withTransients pq sn s.cur s.val nd).loadStep b c) := by
  refine Agree.bind_same (readNode s.arena s.cur) fun n => ?_
  cases hb : n.child b with
  | some k => exact .ok (sameLive_of_loadPath (s := { s with cur := k }) hm pq sn nd)
  | none =>
    by_cases hcap : s.arena.length < Config.nodeCap
    · simp only [State.alloc_of_lt hcap, State.alloc_of_lt (s := s.withTransients pq sn s.cur s.val nd) hcap]
      exact .ok (sameLive_of_loadPath (s := s.toNewChild n b ⟨s.arena.length, hcap⟩) hm pq sn nd)
    · simp only [State.alloc_full hcap, State.alloc_full (s := s.withTransients pq sn s.cur s.val nd) hcap]
      exact .ok (sameLive_raise s pq sn s.cur s.val nd _ _)

theorem loadPathByte_agree {s : State} (hm : s.mode = .busy .loadPath) (pq : List PqEntry) (sn : BitVec 9)
    (nd : BitVec 2) (c : Byte) :
    Agree SameLive (s.loadPathByte c) ((s.withTransients pq sn s.cur s.val nd).loadPathByte c) := by
  unfold State.loadPathByte
  split_ifs
  · exact Agree.bind_same (readNode s.arena s.cur) fun n => .ok ⟨rfl, trivial⟩
  · exact loadStep_agree hm pq sn nd false c
  · exact loadStep_agree hm pq sn nd true c
  · exact .ok (sameLive_raise s pq sn s.cur s.val nd _ _)

theorem SameLive.loadByte {s t : State} (h : SameLive s t) (c : Byte) : Agree SameLive (s.loadByte c) (t.loadByte c) := by
  have hmode : t.mode = s.mode := by rw [h.frame]
  unfold State.loadByte
  rw [hmode]
  split
  next =>
    obtain ⟨pq, sn, cur, val, nd, rfl⟩ := h.exists_eq
    exact loadSymByte_agree { s with val := 0, ndig := 0 } pq sn cur c
  next hm =>
    obtain ⟨pq, sn, cur, rfl⟩ := h.exists_of_loadSym hm
    exact loadSymByte_agree s pq sn cur c
  next hm =>
    obtain ⟨pq, sn, nd, rfl⟩ := h.exists_of_loadPath hm
    exact loadPathByte_agree hm pq sn nd c
  next => exact .ok h

theorem SameLive.loadEnd {s t : State} (h : SameLive s t) : SameLive s.loadEnd t.loadEnd := by
  have hmode : t.mode = s.mode := by rw [h.frame]
  have hsrc : t.tblSrc = s.tblSrc := by rw [h.frame]
  unfold State.loadEnd
  rw [hmode, hsrc]
  split
  next =>
    split
    · exact h.done
    · exact h.raise _ _
    · exact h.raise _ _
    · exact h
  next => exact h

theorem SameLive.loadBytes {cs : List Byte} {s t : State} (h : SameLive s t) :
    Agree SameLive (loadBytes cs s) (loadBytes cs t) := by
  induction cs generalizing s t with
  | nil => exact .ok h.loadEnd
  | cons c cs ih =>
    have hl : t.loading = s.loading := by rw [h.frame]; rfl
    by_cases hs : s.loading = true
    · rw [loadBytes_cons hs, loadBytes_cons (hl.trans hs)]
      have h' : SameLive { s with tblSrc := { s.tblSrc with units := cs } }
          { t with tblSrc := { t.tblSrc with units := cs } } := by
        obtain ⟨pq, sn, cur, val, nd, rfl⟩ := h.exists_eq
        exact ⟨rfl, h.live⟩
      exact (h'.loadByte c).bind fun _ _ => ih
    · rw [loadBytes_stopped (by simpa using hs), loadBytes_stopped (by simpa [hl] using hs)]
      exact .ok h

theorem SameLive.loadBody {s t : State} (h : SameLive s t) : Agree SameLive s.loadBody t.loadBody := by
  have hraise := h.raise
  obtain ⟨pq, sn, cur, val, nd, rfl⟩ := h.exists_eq
  unfold State.loadBody
  split
  next r hr =>
    simp only [show (s.withTransients pq sn cur val nd).root = some r from hr]
    exact .ok (hraise _ _)
  next hr =>
    split
    next r hr' => exact absurd (hr.symm.trans hr') (by simp)
    next =>
      exact SameLive.loadBytes (s := { s with mode := .busy .loadPair })
        (t := { s.withTransients pq sn cur val nd with mode := .busy .loadPair }) ⟨rfl, trivial⟩

/-! ### BUILD sets the queue and `seq_next`, and reads no other transient register -/

/-- Two states that differ in the transient registers BUILD does not use. -/
def SameQueue (s t : State) : Prop := ∃ cur val nd, t = s.withTransients s.pq s.seqNext cur val nd

theorem SameQueue.pqInsert {s t : State} (h : SameQueue s t) (i : Idx) : Agree SameQueue (s.pqInsert i) (t.pqInsert i) := by
  obtain ⟨cur, val, nd, rfl⟩ := h
  exact Agree.bind_same (readNode s.arena i) fun n => .ok ⟨cur, val, nd, rfl⟩

theorem SameQueue.pqExtractMin {s t : State} (h : SameQueue s t) :
    Agree (fun p q => p.1 = q.1 ∧ SameQueue p.2 q.2) s.pqExtractMin t.pqExtractMin := by
  obtain ⟨cur, val, nd, rfl⟩ := h
  unfold State.pqExtractMin
  simp only [show (s.withTransients s.pq s.seqNext cur val nd).pq = s.pq from rfl]
  cases pqFirst s.pq with
  | none => exact .error _
  | some e => exact .ok ⟨rfl, cur, val, nd, rfl⟩

/-- ALLOC and PQ_INSERT of a node, as BUILD and MERGE have them. -/
theorem SameQueue.alloc {s t : State} (h : SameQueue s t) (sym : NodeSym) (l r : Link) (w : Weight) :
    (s.alloc sym l r w = none ∧ t.alloc sym l r w = none) ∨
    ∃ n u v, s.alloc sym l r w = some (n, u) ∧ t.alloc sym l r w = some (n, v) ∧ SameQueue u v := by
  obtain ⟨cur, val, nd, rfl⟩ := h
  by_cases hcap : s.arena.length < Config.nodeCap
  · exact .inr ⟨_, _, _, State.alloc_of_lt hcap ..,
      State.alloc_of_lt (s := s.withTransients s.pq s.seqNext cur val nd) hcap .., cur, val, nd, rfl⟩
  · exact .inl ⟨State.alloc_full hcap .., State.alloc_full (s := s.withTransients s.pq s.seqNext cur val nd) hcap ..⟩

theorem SameQueue.merge {s t : State} (h : SameQueue s t) : Agree SameQueue s.merge t.merge := by
  refine h.pqExtractMin.bind fun ⟨a, u⟩ ⟨a', v⟩ hav => ?_
  obtain ⟨rfl, huv⟩ : a = a' ∧ SameQueue u v := hav
  refine huv.pqExtractMin.bind fun ⟨b, x⟩ ⟨b', y⟩ hby => ?_
  obtain ⟨rfl, hxy⟩ : b = b' ∧ SameQueue x y := hby
  have harena : y.arena = x.arena := by obtain ⟨cur, val, nd, rfl⟩ := hxy; rfl
  simp only [harena]
  refine Agree.bind_same (readNode x.arena a) fun na => Agree.bind_same (readNode x.arena b) fun nb => ?_
  obtain ⟨hx, hy⟩ | ⟨n, x', y', hx, hy, hxy'⟩ := hxy.alloc .sentinel (some a) (some b) (na.weight + nb.weight)
  · simp only [hx, hy]
    exact .error _
  · simp only [hx, hy]
    exact hxy'.pqInsert n

theorem SameQueue.insertLeaf {s t : State} (h : SameQueue s t) (c : Byte) :
    Agree SameQueue (s.insertLeaf c) (t.insertLeaf c) := by
  have hfreq : t.freqOf c = s.freqOf c := by obtain ⟨cur, val, nd, rfl⟩ := h; rfl
  unfold State.insertLeaf
  rw [hfreq]
  split
  · exact .ok h
  · obtain ⟨hs, ht⟩ | ⟨n, u, v, hs, ht, huv⟩ := h.alloc (.symbol c) none none ((s.freqOf c).setWidth 40)
    · simp only [hs, ht]
      exact .error _
    · simp only [hs, ht]
      exact huv.pqInsert n

theorem SameQueue.insertLeaves {cs : List Byte} {s t : State} (h : SameQueue s t) :
    Agree SameQueue (insertLeaves cs s) (insertLeaves cs t) := by
  induction cs generalizing s t with
  | nil => exact .ok h
  | cons c cs ih => exact (h.insertLeaf c).bind fun _ _ => ih

theorem SameQueue.pqLen {s t : State} (h : SameQueue s t) : t.pqLen = s.pqLen := by
  obtain ⟨cur, val, nd, rfl⟩ := h
  rfl

theorem SameQueue.mergeLoop {n : Nat} {s t : State} (h : SameQueue s t) :
    Agree SameQueue (mergeLoop n s) (mergeLoop n t) := by
  induction n generalizing s t with
  | zero => exact .ok h
  | succ n ih =>
    unfold Machine.mergeLoop
    rw [h.pqLen]
    split
    · exact h.merge.bind fun _ _ => ih
    · exact .ok h

theorem SameLive.buildBody {s t : State} (h : SameLive s t) : Agree SameLive s.buildBody t.buildBody := by
  have hraise := h.raise
  obtain ⟨pq, sn, cur, val, nd, rfl⟩ := h.exists_eq
  unfold State.buildBody
  split
  next r hr =>
    simp only [show (s.withTransients pq sn cur val nd).root = some r from hr]
    exact .ok (hraise _ _)
  next hr =>
    split
    next r hr' => exact absurd (hr.symm.trans hr') (by simp)
    next =>
      have hstart : SameQueue { s with pq := [], seqNext := 0 }
          { s.withTransients pq sn cur val nd with pq := [], seqNext := 0 } := ⟨cur, val, nd, rfl⟩
      refine hstart.insertLeaves.bind fun u v huv => ?_
      rw [huv.pqLen]
      split
      · obtain ⟨cur, val, nd, rfl⟩ := huv
        exact .ok ⟨rfl, trivial⟩
      · refine huv.mergeLoop.bind fun x y hxy => hxy.pqExtractMin.bind fun ⟨a, p⟩ ⟨a', q⟩ hpq => ?_
        obtain ⟨rfl, cur, val, nd, rfl⟩ : a = a' ∧ SameQueue p q := hpq
        exact .ok ⟨rfl, trivial⟩

/-! ### Every command -/

theorem SameLive.body {s t : State} (h : SameLive s t) (i : Instr) : Agree SameLive (body i s) (body i t) := by
  cases i
  case nop => exact .ok h.done
  case build => exact h.buildBody
  case save => exact h.saveBody
  case load => exact h.loadBody
  case encode => exact h.encodeBody
  case decode => exact h.decodeBody
  case reserved6 => exact .ok (h.raise _ _)
  case reset =>
    obtain ⟨pq, sn, cur, val, nd, rfl⟩ := h.exists_eq
    exact .ok ⟨rfl, trivial⟩

/-- Settles O23: in IDLE no transient register is live, and what a command leaves differs in such registers alone. -/
theorem transientRegistersAreNeverRead : Obligations.TransientRegistersAreNeverRead := by
  intro i s pq sn cur val nd hm
  have hstart : SameLive s (s.withTransients pq sn cur val nd) := ⟨rfl, by simp only [LiveKept, hm]⟩
  have hagree := hstart.body i
  rw [exec_of_idle hm, exec_of_idle (s := { s with pq := pq, seqNext := sn, cur := cur, val := val, ndig := nd }) hm]
  change Agree SameLive (Machine.body i s)
    (Machine.body i { s with pq := pq, seqNext := sn, cur := cur, val := val, ndig := nd }) at hagree
  generalize Machine.body i s = x at hagree
  generalize Machine.body i { s with pq := pq, seqNext := sn, cur := cur, val := val, ndig := nd } = y at hagree
  cases x <;> cases y
  case error.error e f =>
    obtain rfl : e = f := hagree
    exact .inl ⟨e, rfl, rfl⟩
  case ok.ok t u =>
    have hlive : SameLive t u := hagree
    exact .inr ⟨t, u, rfl, rfl, hlive.frame⟩
  all_goals exact hagree.elim

end Sys2Proof.Machine
end

section
/-! PROOFS. How a waiting command is resumed, and O7: one entry of the frequency table. -/

namespace Sys2Proof.Machine

open Sys2Proof Host

/-! ### Resuming, command by command -/

theorem resume_of_save {s : State} {rest : List Byte} (h : s.mode = .busy (.save rest)) :
    s.resume = .ok (s.saveWrite rest) := by
  simp only [State.resume, h]

theorem resume_of_encode {s : State} {rest : Path} (h : s.mode = .busy (.encode rest)) : s.resume = s.encodeRun rest := by
  simp only [State.resume, h]

theorem resume_of_decodeProbe {s : State} (h : s.mode = .busy .decodeProbe) : s.resume = .ok s.decodeProbe := by
  simp only [State.resume, h]

theorem resume_of_decode {s : State} (h : s.mode = .busy .decode) : s.resume = s.decodeRun := by
  simp only [State.resume, h]

/-- A waiting command loads exactly where it is LOAD. -/
theorem loading_of_busy {s : State} {p : Point} (h : s.mode = .busy p) : s.loading = true ↔ p.command = .load := by
  cases p <;> simp [State.loading, h, Point.command]

theorem resume_of_loading {s : State} (h : s.loading = true) : s.resume = s.loadRun := by
  unfold State.loading at h
  split at h
  next hm => simp only [State.resume, hm]
  next hm => simp only [State.resume, hm]
  next hm => simp only [State.resume, hm]
  next => cases h

/-- With an empty script the core waits for no action of the host. -/
theorem quiet_of_script_nil {s : State} (h : s.script = []) : s.quiet := by
  show nextAct s.takes s.script = none
  rw [h, nextAct_nil]

/-! ### The host's action at the head of the script -/

/-- An action of the host that is no command and is taken now has its effect on the state without it. -/
theorem step_hostAct {s : State} {a : HostAct} {rest : List HostAct} (hs : s.script = a :: rest) (ha : s.takes a = true)
    (hc : ∀ op, a ≠ .cmd op) : step s = .next ({ s with script := rest }.hostAct a) := by
  have hn : nextAct s.takes s.script = some (a, rest) := by rw [hs, nextAct_cons_of_ready ha]
  obtain ⟨op, r, h, -⟩ | ⟨b, r, h, hstep⟩ | ⟨h, -⟩ := step_cases s
  · cases hn.symm.trans h
    exact absurd rfl (hc op)
  · cases hn.symm.trans h
    exact hstep
  · cases hn.symm.trans h

/-- Settles O7: the table reads what was written at the index, and the index of another symbol is another one. -/
theorem freqWriteReplacesOneEntry : Obligations.FreqWriteReplacesOneEntry := by
  rintro s i d rest ⟨hwf, -⟩ hm hs
  have htakes : s.takes (.freqw i d) = true := by simp only [State.takes, State.freqReady, hm]
  have hread := Memory.read_write hwf i.toNat
  refine ⟨_, step_hostAct hs htakes nofun, ?_, fun c hc => ?_, rfl⟩
  · exact (hread _ d).trans (if_pos rfl)
  · exact (hread _ d).trans (if_neg fun h => hc (BitVec.eq_of_toNat_eq h))

end Sys2Proof.Machine
end

section
/-! PROOFS. O58: what SAVE, ENCODE and DECODE consume, write and leave alone. -/

namespace Sys2Proof.Machine

open Sys2Proof Host

/-- What an output port has written stays there. -/
theorem Sink.written_prefix_push {α : Type} (k : Sink α) (us : List α) : k.written <+: (k.push us).1.written := by
  obtain ⟨taken, -, h⟩ := k.push_split us
  exact ⟨taken, h.symm⟩

/-! ### SAVE -/

theorem saveWrite_frame (s : State) (text : List Byte) : saveFrame s (s.saveWrite text) := by
  obtain ⟨taken, -, h⟩ := s.tblSink.push_split text
  exact ⟨rfl, taken, h⟩

theorem saveBody_eq_ok {s t : State} (h : s.saveBody = .ok t) :
    ∃ tr, s.tree = .ok tr ∧ t = s.saveWrite (tableText tr.table) := by
  obtain ⟨tr, htr, h⟩ := bind_eq_ok.1 h
  exact ⟨tr, htr, (Except.ok.inj h).symm⟩

/-! ### ENCODE -/

/-- Everything a symbol can do: a fault, or a code that the tree alone decides is offered to the sink. -/
theorem encodeSym_eq_ok {s t : State} {c : Byte} (h : s.encodeSym c = .ok t) :
    (∃ code info, t = s.raise code info) ∨
    ∃ p, t = s.writeCode p ∧ ∀ u : State, u.root = s.root → u.arena = s.arena → u.encodeSym c = .ok (u.writeCode p) := by
  unfold State.encodeSym at h
  split at h
  next => exact .inl ⟨_, _, (Except.ok.inj h).symm⟩
  next r hr =>
    obtain ⟨nd, hnd, h⟩ := bind_eq_ok.1 h
    split at h
    next => exact .inl ⟨_, _, (Except.ok.inj h).symm⟩
    next hl =>
      obtain ⟨tr, htr, h⟩ := bind_eq_ok.1 h
      split at h
      next => exact .inl ⟨_, _, (Except.ok.inj h).symm⟩
      next p hp =>
        refine .inr ⟨p, (Except.ok.inj h).symm, fun u hur hua => ?_⟩
        have hutr : u.tree = .ok tr := by rw [← htr, State.tree, State.tree, hur, hua]
        simp only [State.encodeSym, hur, hr, hua, hnd, hutr, ok_bind, hp, hl, Bool.false_eq_true, if_false]

/-- ENCODE's loop consumes a beginning of its input and appends to its output. -/
theorem encodeSyms_ports {cs : List Byte} {s t : State} (hs : s.symSrc.units = cs) (h : encodeSyms cs s = .ok t) :
    t.symSrc.units <:+ cs ∧ s.bitSink.written <+: t.bitSink.written := by
  induction cs generalizing s with
  | nil =>
    simp only [encodeSyms] at h
    split at h <;> cases h <;> exact ⟨by simp [hs], List.prefix_rfl⟩
  | cons c cs ih =>
    by_cases hr : s.encodeReady = true
    · rw [encodeSyms_cons hr] at h
      obtain ⟨u, hu, h⟩ := bind_eq_ok.1 h
      have hus : u.symSrc.units = cs := by rw [State.encodeSym_frame hu]
      have huw : s.bitSink.written <+: u.bitSink.written := by
        obtain ⟨code, info, rfl⟩ | ⟨p, rfl, -⟩ := encodeSym_eq_ok hu
        · exact List.prefix_rfl
        · exact Sink.written_prefix_push _ p
      obtain ⟨hsuf, hpre⟩ := ih hus h
      exact ⟨hsuf.trans (List.suffix_cons c cs), huw.trans hpre⟩
    · rw [encodeSyms_stopped (by simpa using hr)] at h
      cases h
      exact ⟨by simp [hs], List.prefix_rfl⟩

theorem encodeRun_frame {s t : State} {rest : Path} (h : s.encodeRun rest = .ok t) : encodeFrame s t := by
  obtain ⟨⟨used, hused⟩, ⟨out, hout⟩⟩ := encodeSyms_ports (s := s.writeCode rest) rfl h
  obtain ⟨taken, -, htaken⟩ := s.bitSink.push_split rest
  refine ⟨by rw [encodeSyms_frame h]; rfl, ⟨used, hused.symm⟩, taken ++ out, ?_⟩
  rw [← hout, ← List.append_assoc, ← htaken]
  rfl

/-! ### DECODE -/

/-- The head of DECODE's loop touches no bit, and appends to the output. -/
theorem decodeTop_ports {s t : State} (h : s.decodeTop = .ok (some t)) :
    t.bitSrc = s.bitSrc ∧ s.symSink.written <+: t.symSink.written := by
  obtain ⟨nd, -, ⟨-, ht⟩ | ⟨c, r, rd, -, -, -, -, ⟨-, ht⟩ | ⟨-, ht⟩⟩⟩ := State.decodeTop_eq_ok h <;> cases ht
  · exact ⟨rfl, List.prefix_rfl⟩
  · exact ⟨rfl, Sink.written_prefix_push _ [c]⟩

/-- A bit touches no port. -/
theorem decodeBit_ports {s t : State} {b : Bool} (h : s.decodeBit b = .ok t) :
    t.bitSrc = s.bitSrc ∧ t.symSink = s.symSink := by
  obtain ⟨nd, -, ⟨-, rfl⟩ | ⟨n, -, rfl⟩⟩ := State.decodeBit_eq_ok h <;> exact ⟨rfl, rfl⟩

theorem decodeEnd_ports (s : State) : s.decodeEnd.bitSrc = s.bitSrc ∧ s.decodeEnd.symSink = s.symSink := by
  unfold State.decodeEnd
  split_ifs <;> exact ⟨rfl, rfl⟩

/-- DECODE's loop consumes a beginning of its input and appends to its output. -/
theorem decodeBits_ports {bs : List Bool} {s t : State} (hs : s.bitSrc.units = bs) (h : decodeBits bs s = .ok t) :
    t.bitSrc.units <:+ bs ∧ s.symSink.written <+: t.symSink.written := by
  induction bs generalizing s with
  | nil =>
    rw [decodeBits_nil] at h
    obtain ⟨o, ho, h⟩ := bind_eq_ok.1 h
    cases o with
    | none => cases h; exact ⟨by simp [hs], List.prefix_rfl⟩
    | some u =>
      obtain ⟨hsrc, hpre⟩ := decodeTop_ports ho
      obtain ⟨hsrc', hsink⟩ := decodeEnd_ports u
      cases h
      exact ⟨by simp [hsrc', hsrc, hs], hsink ▸ hpre⟩
  | cons b bs ih =>
    rw [decodeBits_cons] at h
    obtain ⟨o, ho, h⟩ := bind_eq_ok.1 h
    cases o with
    | none => cases h; exact ⟨by simp [hs], List.prefix_rfl⟩
    | some u =>
      obtain ⟨-, hpre⟩ := decodeTop_ports ho
      obtain ⟨v, hv, h⟩ := bind_eq_ok.1 h
      obtain ⟨hsrc, hsink⟩ := decodeBit_ports hv
      have hvs : v.bitSrc.units = bs := by rw [hsrc]
      replace hpre : s.symSink.written <+: v.symSink.written := hsink ▸ hpre
      split at h
      · cases h
        exact ⟨hvs ▸ List.suffix_cons b bs, hpre⟩
      · obtain ⟨hsuf, hpre'⟩ := ih hvs h
        exact ⟨hsuf.trans (List.suffix_cons b bs), hpre.trans hpre'⟩

theorem decodeRun_frame {s t : State} (h : s.decodeRun = .ok t) : decodeFrame s t := by
  obtain ⟨⟨used, hused⟩, ⟨out, hout⟩⟩ := decodeBits_ports rfl h
  exact ⟨decodeBits_frame h, ⟨used, hused.symm⟩, out, hout.symm⟩

theorem decodeProbe_decodeFrame (s : State) : decodeFrame s s.decodeProbe := by
  rw [State.decodeProbe_frame]
  exact ⟨rfl, ⟨[], rfl⟩, [], by simp⟩

/-- DECODE in IDLE probes without an inner root, and else runs its loop from the root. -/
theorem decodeBody_cases {s t : State} (h : s.decodeBody = .ok t) :
    ((s.root = none ∨ ∃ r nd, s.root = some r ∧ readNode s.arena r = .ok nd ∧ nd.isLeaf = true) ∧ t = s.decodeProbe) ∨
    ∃ r nd, s.root = some r ∧ readNode s.arena r = .ok nd ∧ nd.isLeaf = false ∧
      State.decodeRun { s with cur := r, mode := .busy .decode } = .ok t := by
  unfold State.decodeBody at h
  split at h
  next hr => exact .inl ⟨.inl hr, (Except.ok.inj h).symm⟩
  next r hr =>
    obtain ⟨nd, hnd, h⟩ := bind_eq_ok.1 h
    split at h
    next hl => exact .inl ⟨.inr ⟨r, nd, hr, hnd, hl⟩, (Except.ok.inj h).symm⟩
    next hl => exact .inr ⟨r, nd, hr, hnd, by simpa using hl, h⟩

theorem decodeBody_frame {s t : State} (h : s.decodeBody = .ok t) : decodeFrame s t := by
  obtain ⟨-, rfl⟩ | ⟨r, nd, -, -, -, h⟩ := decodeBody_cases h
  · exact decodeProbe_decodeFrame s
  · obtain ⟨hframe, hused, hout⟩ := decodeRun_frame h
    exact ⟨hframe, hused, hout⟩

/-! ### The commands, accepted or resumed -/

/-- A frame that a state has to itself and that a command's body keeps is one of the command in every mode. -/
theorem exec_frame {Frame : State → State → Prop} {i : Instr} {s t : State} (hi : i ≠ .reset) (hself : Frame s s)
    (hbody : body i s = .ok t → Frame s t) (h : exec i s = .next t) : Frame s t := by
  rw [exec_eq_accept hi] at h
  obtain ⟨-, h⟩ | ⟨-, rfl⟩ := State.accept_eq_next h
  · exact hbody h
  · exact hself

theorem step_quiet_eq_next {s t : State} (hq : s.quiet) (h : step s = .next t) : s.resume = .ok t := by
  rw [step_of_quiet hq] at h
  exact toOutcome_eq_next.1 h

/-- Settles O58: the frames of the bodies and of the resumed commands, and the host's stream actions one by one. -/
theorem streamCommandFrames : Obligations.StreamCommandFrames := by
  refine ⟨fun s t => ⟨?_, ?_, ?_⟩, fun s t p hm hq h => ?_, fun s rest => ?_⟩
  · refine exec_frame nofun ⟨rfl, [], by simp⟩ fun h => ?_
    obtain ⟨tr, -, rfl⟩ := saveBody_eq_ok h
    exact saveWrite_frame s _
  · exact exec_frame nofun ⟨rfl, ⟨[], rfl⟩, [], by simp⟩ encodeRun_frame
  · exact exec_frame nofun ⟨rfl, ⟨[], rfl⟩, [], by simp⟩ decodeBody_frame
  · have hr := step_quiet_eq_next hq h
    cases p
    case save rest =>
      rw [resume_of_save hm] at hr
      cases hr
      exact ⟨fun _ => saveWrite_frame s rest, nofun, nofun⟩
    case encode rest => exact ⟨nofun, fun _ => encodeRun_frame (resume_of_encode hm ▸ hr), nofun⟩
    case decodeProbe =>
      rw [resume_of_decodeProbe hm] at hr
      cases hr
      exact ⟨nofun, nofun, fun _ => decodeProbe_decodeFrame s⟩
    case decode => exact ⟨nofun, nofun, fun _ => decodeRun_frame (resume_of_decode hm ▸ hr)⟩
    all_goals exact ⟨nofun, nofun, nofun⟩
  · exact ⟨fun us e hs => step_hostAct hs rfl nofun, fun us e hs => step_hostAct hs rfl nofun,
      fun us e hs => step_hostAct hs rfl nofun, fun m hs => step_hostAct hs rfl nofun,
      fun m hs => step_hostAct hs rfl nofun, fun m hs => step_hostAct hs rfl nofun⟩

end Sys2Proof.Machine
end

section
/-! PROOFS. O59: what BUILD and LOAD leave alone, and LOAD's weights; with the frames of all commands, O8. -/

namespace Sys2Proof.Machine

open Sys2Proof Host

/-! ### BUILD, in any state -/

theorem alloc_buildFrame {s t : State} {sym : NodeSym} {l r : Link} {w : Weight} {i : Idx}
    (h : s.alloc sym l r w = some (i, t)) : BuildFrame s t := by
  obtain ⟨-, rfl⟩ := State.alloc_eq_some h
  rfl

theorem pqInsert_buildFrame {s t : State} {i : Idx} (h : s.pqInsert i = .ok t) : BuildFrame s t := by
  obtain ⟨nd, -, h⟩ := bind_eq_ok.1 h
  cases h
  rfl

theorem pqExtractMin_buildFrame {s t : State} {i : Idx} (h : s.pqExtractMin = .ok (i, t)) : BuildFrame s t := by
  unfold State.pqExtractMin at h
  split at h <;> cases h
  rfl

theorem BuildFrame.trans {s t u : State} (h : BuildFrame s t) (h' : BuildFrame t u) : BuildFrame s u := by
  rw [BuildFrame, h', h]

theorem merge_buildFrame {s t : State} (h : s.merge = .ok t) : BuildFrame s t := by
  obtain ⟨⟨a, u⟩, hu, h⟩ := bind_eq_ok.1 h
  obtain ⟨⟨b, v⟩, hv, h⟩ := bind_eq_ok.1 h
  obtain ⟨na, -, h⟩ := bind_eq_ok.1 h
  obtain ⟨nb, -, h⟩ := bind_eq_ok.1 h
  split at h
  next => cases h
  next n w hw =>
    exact (pqExtractMin_buildFrame hu).trans
      ((pqExtractMin_buildFrame hv).trans ((alloc_buildFrame hw).trans (pqInsert_buildFrame h)))

theorem insertLeaf_buildFrame {s t : State} {c : Byte} (h : s.insertLeaf c = .ok t) : BuildFrame s t := by
  unfold State.insertLeaf at h
  split at h
  next => cases h; rfl
  next =>
    split at h
    next => cases h
    next n u hu => exact (alloc_buildFrame hu).trans (pqInsert_buildFrame h)

theorem insertLeaves_buildFrame {cs : List Byte} {s t : State} (h : insertLeaves cs s = .ok t) : BuildFrame s t := by
  induction cs generalizing s with
  | nil => cases h; rfl
  | cons c cs ih =>
    obtain ⟨u, hu, h⟩ := bind_eq_ok.1 h
    exact (insertLeaf_buildFrame hu).trans (ih h)

theorem mergeLoop_buildFrame {n : Nat} {s t : State} (h : mergeLoop n s = .ok t) : BuildFrame s t := by
  induction n generalizing s with
  | zero => cases h; rfl
  | succ n ih =>
    unfold mergeLoop at h
    split at h
    next =>
      obtain ⟨u, hu, h⟩ := bind_eq_ok.1 h
      exact (merge_buildFrame hu).trans (ih h)
    next => cases h; rfl

/-- Everything BUILD can do when it answers: a fault with a tree, or a normal end of its micro-operations. -/
theorem buildBody_eq_ok {s t : State} (h : s.buildBody = .ok t) :
    t = s.raise .treePresent 0 ∨ ∃ (u : State) (r : Link), BuildFrame s u ∧ t = { u with root := r }.done := by
  unfold State.buildBody at h
  split at h
  next => exact .inl (Except.ok.inj h).symm
  next =>
    obtain ⟨u, hu, h⟩ := bind_eq_ok.1 h
    have hleaves := insertLeaves_buildFrame hu
    split at h
    next => exact .inr ⟨u, u.root, hleaves, (Except.ok.inj h).symm⟩
    next =>
      obtain ⟨v, hv, h⟩ := bind_eq_ok.1 h
      obtain ⟨⟨r, w⟩, hw, h⟩ := bind_eq_ok.1 h
      have hmerges := (mergeLoop_buildFrame hv).trans (pqExtractMin_buildFrame hw)
      exact .inr ⟨w, some r, hleaves.trans hmerges, (Except.ok.inj h).symm⟩

/-- What BUILD may change (R60). -/
theorem buildBody_frame {s t : State} (h : s.buildBody = .ok t) :
    t = { s with mode := t.mode, err := t.err, errInfo := t.errInfo, root := t.root, arena := t.arena, pq := t.pq,
                 seqNext := t.seqNext } := by
  obtain rfl | ⟨u, r, hu, rfl⟩ := buildBody_eq_ok h
  · rfl
  · rw [hu]; rfl

/-! ### LOAD, byte by byte -/

/-- The line feed of a path line (R126). -/
theorem loadPathByte_LF (s : State) : s.loadPathByte LF = s.placeLeaf := rfl

/-- A path character (R80, R126). -/
theorem loadPathByte_pathChar (s : State) (b : Bool) : s.loadPathByte (pathChar b) = s.loadStep b (pathChar b) := by
  cases b <;> rfl

/-- A byte that a path line cannot hold (R126). -/
theorem loadPathByte_bad {c : Byte} (hlf : c ≠ LF) (hp : ∀ b, c ≠ pathChar b) (s : State) :
    s.loadPathByte c = .ok (s.raise .tableSyntax (c.setWidth 9)) := by
  have h0 : c ≠ digit0 := hp false
  have h1 : c ≠ digit1 := hp true
  simp only [State.loadPathByte, hlf, h0, h1, if_false]

/-- The line feed of a symbol line that holds no symbol (R125). -/
theorem loadSymByte_LF_bad {s : State} (h : s.ndig = 0 ∨ 255#10 < s.val) :
    s.loadSymByte LF = .ok (s.raise .tableSyntax (LF.setWidth 9)) := by
  simp only [State.loadSymByte, h, if_true]

/-- The line feed of a symbol line (R125). -/
theorem loadSymByte_LF {s : State} (h : ¬ (s.ndig = 0 ∨ 255#10 < s.val)) : s.loadSymByte LF = s.startPath := by
  simp only [State.loadSymByte, h, if_true, if_false]

/-- A byte that a symbol line cannot hold, or a fourth digit (R125). -/
theorem loadSymByte_bad {s : State} {c : Byte} (hlf : c ≠ LF) (h : isDigit c = false ∨ s.ndig = 3#2) :
    s.loadSymByte c = .ok (s.raise .tableSyntax (c.setWidth 9)) := by
  by_cases hd : isDigit c = false
  · simp only [State.loadSymByte, hlf, hd, if_true, if_false]
  · simp only [State.loadSymByte, hlf, hd, h.resolve_left hd, if_true, if_false, Bool.true_eq_false]

/-- A digit of a symbol line, the first, the second or the third (R125). -/
theorem loadSymByte_digit {s : State} {c : Byte} (hd : isDigit c = true) (hn : s.ndig ≠ 3#2) :
    s.loadSymByte c = .ok { s with val := addDigit s.val c, ndig := s.ndig + 1, mode := .busy .loadSym } := by
  simp only [State.loadSymByte, isDigit_ne_LF hd, hd, hn, if_false, Bool.true_eq_false]

/-- Every node has weight 0 (R130). -/
abbrev Weightless (arena : List Node) : Prop := ∀ nd ∈ arena, nd.weight = 0

/-- What LOAD does with a byte, in the part of its work that is the operation `op`: it goes on or takes a fault, gives
no node a weight, and looks at no port. -/
structure ByteEffect (op : State → Except Fault State) (s t : State) : Prop where
  goesOn : t.loading = true ∨ t.mode = .fault
  weightless : Weightless s.arena → Weightless t.arena
  portless : ∀ src : Source Byte, op { s with tblSrc := src } = .ok { t with tblSrc := src }

theorem weightless_append_bareNode {arena : List Node} (h : Weightless arena) : Weightless (arena ++ [bareNode]) :=
  List.forall_mem_append.2 ⟨h, by simp⟩

/-- A record with the weight of an entry in place of any entry. -/
theorem weightless_set {arena : List Node} (h : Weightless arena) {i j : Idx} {nd nd' : Node}
    (hi : readNode arena i = .ok nd) (hw : nd'.weight = nd.weight) : Weightless (arena.set j.val nd') := by
  intro x hx
  rcases List.mem_or_eq_of_mem_set hx with hx | rfl
  · exact h x hx
  · exact hw.trans (h nd (List.mem_of_getElem? (readNode_eq_ok.1 hi)))

theorem startPath_effect {s t : State} (h : s.startPath = .ok t) : ByteEffect State.startPath s t := by
  cases hr : s.root with
  | some r =>
    rw [startPath_of_root hr] at h
    cases h
    exact ⟨.inl rfl, id, fun src => startPath_of_root (s := { s with tblSrc := src }) hr⟩
  | none =>
    by_cases hcap : s.arena.length < Config.nodeCap
    · rw [startPath_of_no_root hr hcap] at h
      cases h
      exact ⟨.inl rfl, weightless_append_bareNode,
        fun src => startPath_of_no_root (s := { s with tblSrc := src }) hr hcap⟩
    · rw [startPath_of_full hr hcap] at h
      cases h

/-- A fault that both states raise, whatever the port presents. -/
theorem raise_effect {op : State → Except Fault State} {s u : State} {code : ErrCode} {info : BitVec 9}
    (hu : u.arena = s.arena)
    (h : ∀ src : Source Byte, op { s with tblSrc := src } = .ok ({ u with tblSrc := src }.raise code info)) :
    ByteEffect op s (u.raise code info) :=
  ⟨.inr rfl, fun hw => hu ▸ hw, h⟩

theorem loadSymByte_effect {s t : State} {c : Byte} (h : s.loadSymByte c = .ok t) :
    ByteEffect (·.loadSymByte c) s t := by
  by_cases hlf : c = LF
  · subst hlf
    by_cases hend : s.ndig = 0 ∨ 255#10 < s.val
    · cases (loadSymByte_LF_bad hend).symm.trans h
      exact raise_effect rfl fun src => loadSymByte_LF_bad (s := { s with tblSrc := src }) hend
    · obtain ⟨hgoes, hw, hport⟩ := startPath_effect ((loadSymByte_LF hend).symm.trans h)
      exact ⟨hgoes, hw, fun src => (loadSymByte_LF (s := { s with tblSrc := src }) hend).trans (hport src)⟩
  · by_cases hbad : isDigit c = false ∨ s.ndig = 3#2
    · cases (loadSymByte_bad hlf hbad).symm.trans h
      exact raise_effect rfl fun src => loadSymByte_bad (s := { s with tblSrc := src }) hlf hbad
    · obtain ⟨hd, hn⟩ : isDigit c = true ∧ s.ndig ≠ 3#2 := by simpa using hbad
      cases (loadSymByte_digit hd hn).symm.trans h
      exact ⟨.inl rfl, id, fun src => loadSymByte_digit (s := { s with tblSrc := src }) hd hn⟩

theorem loadStep_effect {s t : State} {b : Bool} {c : Byte} (hm : s.mode = .busy .loadPath) (h : s.loadStep b c = .ok t) :
    ByteEffect (·.loadStep b c) s t := by
  have hl : s.loading = true := (loading_of_busy hm).2 rfl
  obtain ⟨nd, hnd, -⟩ := bind_eq_ok.1 h
  cases hb : nd.child b with
  | some n =>
    rw [loadStep_of_child hnd hb] at h
    cases h
    exact ⟨.inl hl, id, fun src => loadStep_of_child (s := { s with tblSrc := src }) hnd hb c⟩
  | none =>
    by_cases hcap : s.arena.length < Config.nodeCap
    · rw [loadStep_of_nil hnd hb hcap] at h
      cases h
      refine ⟨.inl hl, fun hw => ?_, fun src => loadStep_of_nil (s := { s with tblSrc := src }) hnd hb hcap c⟩
      have hnd' : readNode (s.arena ++ [bareNode]) s.cur = .ok nd :=
        readNode_eq_ok.2 (getElem?_append_singleton_eq_some.2 (.inl (readNode_eq_ok.1 hnd)))
      exact weightless_set (weightless_append_bareNode hw) hnd' (by cases b <;> rfl)
    · rw [loadStep_of_full hnd hb hcap] at h
      cases h
      exact raise_effect rfl fun src => loadStep_of_full (s := { s with tblSrc := src }) hnd hb hcap c

theorem placeLeaf_effect {s t : State} (h : s.placeLeaf = .ok t) : ByteEffect State.placeLeaf s t := by
  obtain ⟨nd, hnd, h⟩ := bind_eq_ok.1 h
  cases h
  exact ⟨.inl rfl, fun hw => weightless_set hw hnd rfl, fun src => by simp only [State.placeLeaf, hnd, ok_bind]; rfl⟩

theorem loadPathByte_effect {s t : State} {c : Byte} (hm : s.mode = .busy .loadPath) (h : s.loadPathByte c = .ok t) :
    ByteEffect (·.loadPathByte c) s t := by
  by_cases hlf : c = LF
  · subst hlf
    exact placeLeaf_effect h
  · by_cases hp : ∃ b, c = pathChar b
    · obtain ⟨b, rfl⟩ := hp
      obtain ⟨hgoes, hw, hport⟩ := loadStep_effect hm ((loadPathByte_pathChar s b).symm.trans h)
      exact ⟨hgoes, hw, fun src => (loadPathByte_pathChar _ b).trans (hport src)⟩
    · have hbad := loadPathByte_bad hlf (not_exists.1 hp)
      cases (hbad s).symm.trans h
      exact raise_effect rfl fun src => hbad { s with tblSrc := src }

/-- What a byte does wherever LOAD stands. -/
theorem loadByte_effect {s t : State} {c : Byte} (hl : s.loading = true) (h : s.loadByte c = .ok t) :
    ByteEffect (·.loadByte c) s t := by
  unfold State.loadByte at h
  unfold State.loading at hl
  split at h
  next hm =>
    have he := loadSymByte_effect h
    exact ⟨he.goesOn, he.weightless, fun src => by simpa only [State.loadByte, hm] using he.portless src⟩
  next hm =>
    have he := loadSymByte_effect h
    exact ⟨he.goesOn, he.weightless, fun src => by simpa only [State.loadByte, hm] using he.portless src⟩
  next hm =>
    have he := loadPathByte_effect hm h
    exact ⟨he.goesOn, he.weightless, fun src => by simpa only [State.loadByte, hm] using he.portless src⟩
  next => simp_all

theorem loadEnd_frame (s : State) :
    s.loadEnd = { s with mode := s.loadEnd.mode, err := s.loadEnd.err, errInfo := s.loadEnd.errInfo } := by
  unfold State.loadEnd
  split <;> [split <;> rfl; rfl]

/-- What LOAD's loop may change (R60). -/
theorem loadBytes_frame {cs : List Byte} {s t : State} (hs : s.tblSrc.units = cs) (h : loadBytes cs s = .ok t) :
    loadFrame s t := by
  induction cs generalizing s with
  | nil =>
    cases h
    rw [loadEnd_frame]
    exact ⟨rfl, ⟨[], rfl⟩, id⟩
  | cons c cs ih =>
    by_cases hl : s.loading = true
    · rw [loadBytes_cons hl] at h
      obtain ⟨u, hu, h⟩ := bind_eq_ok.1 h
      have hbyte := State.loadByte_frame hu
      have heff := loadByte_effect (s := { s with tblSrc := { s.tblSrc with units := cs } }) hl hu
      have hus : u.tblSrc = ⟨cs, s.tblSrc.ended⟩ := by rw [hbyte]
      obtain ⟨hframe, ⟨used, hused⟩, hw⟩ := ih (by rw [hus]) h
      refine ⟨by rw [hframe, hbyte], ⟨c :: used, ?_⟩, fun h0 => hw (heff.weightless h0)⟩
      rw [hs, List.cons_append, ← hused, hus]
    · rw [loadBytes_stopped (by simpa using hl)] at h
      cases h
      exact ⟨rfl, ⟨[], rfl⟩, id⟩

theorem loadBody_frame {s t : State} (h : s.loadBody = .ok t) : loadFrame s t := by
  unfold State.loadBody at h
  split at h
  next => cases h; exact ⟨rfl, ⟨[], rfl⟩, id⟩
  next =>
    obtain ⟨hframe, hused, hw⟩ := loadBytes_frame rfl h
    exact ⟨hframe, hused, hw⟩

/-- Settles O59: the frames of the two bodies, and of LOAD's loop where it goes on. -/
theorem treeCommandFrames : Obligations.TreeCommandFrames := by
  refine ⟨fun s t => ⟨?_, ?_⟩, fun s t p hm hp hq h => ?_⟩
  · exact exec_frame (Frame := fun s t => t = { s with
      mode := t.mode, err := t.err, errInfo := t.errInfo, root := t.root, arena := t.arena, pq := t.pq,
      seqNext := t.seqNext }) nofun rfl buildBody_frame
  · exact exec_frame nofun ⟨rfl, ⟨[], rfl⟩, id⟩ loadBody_frame
  · have hr := step_quiet_eq_next hq h
    rw [resume_of_loading ((loading_of_busy hm).2 hp)] at hr
    exact loadBytes_frame rfl hr

/-! ### O8 -/

/-- A command that goes on leaves the script and the frequency table as they are. -/
theorem resume_script_freq {s t : State} (h : s.resume = .ok t) : t.script = s.script ∧ t.freq = s.freq := by
  unfold State.resume at h
  split at h
  case h_1 => cases h; exact ⟨rfl, rfl⟩
  case h_2 => cases h; exact ⟨rfl, rfl⟩
  case h_3 => cases h; exact ⟨rfl, rfl⟩
  case h_7 => rw [(encodeRun_frame h).1]; exact ⟨rfl, rfl⟩
  case h_8 => cases h; rw [State.decodeProbe_frame]; exact ⟨rfl, rfl⟩
  case h_9 => rw [decodeBits_frame h]; exact ⟨rfl, rfl⟩
  all_goals rw [(loadBytes_frame rfl h).1]; exact ⟨rfl, rfl⟩

/-- Settles O8: outside IDLE the write is not taken now, so the step is that of the script behind it. -/
theorem freqWriteWaitsOutsideIdle : Obligations.FreqWriteWaitsOutsideIdle := by
  have hwait : ∀ (s : State) (i : Byte) (d : Count), s.freqReady = false → s.script = [.freqw i d] → s.quiet := by
    intro s i d hf hs
    show nextAct s.takes s.script = none
    rw [hs, nextAct_cons_of_not_ready (a := .freqw i d) hf]
    rfl
  refine ⟨fun s i d hm hs => ?_, fun s i d rest hm hs => ?_, fun s t p i d hm hs h => ?_⟩
  · rw [step_of_quiet (hwait s i d (by simp only [State.freqReady, hm]) hs)]
    simp only [State.resume, hm, toOutcome_ok]
  · have hf : s.takes (.freqw i d) = false := by simp only [State.takes, State.freqReady, hm]
    have hr : s.takes (.cmd 7#3) = true := by simp only [State.takes, State.cmdReady, hm]
    have hn : nextAct s.takes s.script = some (.cmd 7#3, .freqw i d :: rest) := by
      rw [hs]
      exact nextAct_behind_waiting (pre := [.freqw i d]) hr (by simpa using hf) rest
    simp only [step, hn]
    show exec .reset _ = _
    simp only [exec, execReset, hm]
  · exact resume_script_freq (step_quiet_eq_next (hwait s i d (by simp only [State.freqReady, hm]) hs) h)

end Sys2Proof.Machine
end

section
/-! PROOFS. O38 and the ground for O13 and O14: more room on an output port, and SAVE at its sink. -/

namespace Sys2Proof.Machine

open Sys2Proof Host

/-! ### More room -/

/-- An output port whose environment is ready for some more units. -/
def Sink.widen {α : Type} (k : Sink α) (more : Option Nat) : Sink α := { k with room := addRoom k.room more }

/-- Room for no more units is no change. -/
@[simp] theorem Sink.widen_zero {α : Type} (k : Sink α) : k.widen (some 0) = k := by
  obtain ⟨w, _ | n⟩ := k <;> rfl

/-- What was not taken, offered with more room, is all of it offered with all the room. -/
theorem Sink.push_widen {α : Type} (k : Sink α) (us : List α) (more : Option Nat) :
    ((k.push us).1.widen more).push (k.push us).2 = (k.widen more).push us :=
  k.push_addRoom us more

/-- Units that are all taken are taken with more room too. -/
theorem Sink.push_widen_of_taken {α : Type} {k : Sink α} {us : List α} (h : (k.push us).2 = []) (more : Option Nat) :
    (k.widen more).push us = ((k.push us).1.widen more, []) := by
  rw [← Sink.push_widen, h, Sink.push_nil]

/-- A port with less room than units takes as many as it has room for. -/
theorem Sink.push_of_lt {α : Type} {k : Sink α} {us : List α} {n : Nat} (hk : k.room = some n) (hn : n < us.length) :
    k.push us = (⟨k.written ++ us.take n, some 0⟩, us.drop n) := by
  obtain ⟨w, r⟩ := k
  cases hk
  rw [Sink.push_room, Nat.sub_eq_zero_of_le hn.le]

/-- A port that is always ready leaves no unit over. -/
theorem Sink.push_left_of_ready {α : Type} {k : Sink α} {us : List α} (h : (k.push us).1.room = none) :
    (k.push us).2 = [] := by
  obtain ⟨w, _ | n⟩ := k
  · rfl
  · cases h

/-! ### SAVE -/

/-- The environment is ready for some more bytes of SAVE. -/
def State.giveRoom (s : State) (more : Option Nat) : State := { s with tblSink := s.tblSink.widen more }

/-- SAVE of a text that the sink takes. -/
theorem saveWrite_of_hasRoom {s : State} {text : List Byte} (h : s.tblSink.hasRoom text.length) :
    s.saveWrite text = { s with mode := .idle, tblSink := s.tblSink.took text } := by
  simp only [State.saveWrite, Sink.push_of_hasRoom h, if_true]

/-- SAVE of a text that the sink is too short for. -/
theorem saveWrite_of_lt {s : State} {text : List Byte} {n : Nat} (hk : s.tblSink.room = some n) (hn : n < text.length) :
    s.saveWrite text = { s with mode := .busy (.save (text.drop n))
                                tblSink := ⟨s.tblSink.written ++ text.take n, some 0⟩ } := by
  have hne : text.drop n ≠ [] := by simpa using hn
  simp only [State.saveWrite, Sink.push_of_lt hk hn, hne, if_false]

/-- What SAVE does with a text depends on its mode not at all, and on its sink by what the sink takes. -/
theorem saveWrite_congr {s t : State} {a b : List Byte} (h : t = { s with mode := t.mode, tblSink := t.tblSink })
    (hp : t.tblSink.push a = s.tblSink.push b) : t.saveWrite a = s.saveWrite b := by
  rw [State.saveWrite, State.saveWrite, hp, h]

/-- SAVE that waits goes on as if the room had been there before. -/
theorem saveWrite_split {s : State} {text : List Byte} {p : Point} (h : (s.saveWrite text).mode = .busy p)
    (more : Option Nat) : ((s.saveWrite text).giveRoom more).resume = .ok ((s.giveRoom more).saveWrite text) := by
  rw [State.saveWrite_mode] at h
  split at h
  next => cases h
  next hne =>
    have hm : ((s.saveWrite text).giveRoom more).mode = .busy (.save (s.tblSink.push text).2) :=
      (State.saveWrite_mode s text).trans (if_neg hne)
    rw [resume_of_save hm]
    exact congrArg Except.ok (saveWrite_congr rfl (s.tblSink.push_widen text more))

theorem saveBody_of_tree {s : State} {tr : CodeTree} (h : s.tree = .ok tr) :
    s.saveBody = .ok (s.saveWrite (tableText tr.table)) := by
  simp only [State.saveBody, h, ok_bind]

theorem exec_save_of_tree {s : State} {tr : CodeTree} (hm : s.mode = .idle) (h : s.tree = .ok tr) :
    exec .save s = .next (s.saveWrite (tableText tr.table)) := by
  rw [exec_of_idle hm]
  exact congrArg toOutcome (saveBody_of_tree h)

/-- Settles O38: a sink takes what it has room for, and room given later counts as room given at once. -/
theorem saveWaitsForItsSink : Obligations.SaveWaitsForItsSink := by
  refine ⟨fun s tr n hm htr hk => ⟨fun hn => ?_, fun hn => ?_⟩, fun s rest hm hq => ⟨fun hn => ?_, fun n hk hn => ?_⟩,
    fun s t more p hm hs h ht => ?_⟩
  · have hroom : s.tblSink.hasRoom (tableText tr.table).length := fun m hm => by
      cases hk.symm.trans hm
      exact hn
    rw [exec_save_of_tree hm htr, saveWrite_of_hasRoom hroom, ← hm]
  · rw [exec_save_of_tree hm htr, saveWrite_of_lt hk hn]
  · rw [step_of_quiet hq, resume_of_save hm, saveWrite_of_hasRoom hn, toOutcome_ok]
  · rw [step_of_quiet hq, resume_of_save hm, saveWrite_of_lt hk hn, toOutcome_ok]
  · rw [exec_of_idle hm] at h
    obtain ⟨tr, htr, rfl⟩ := saveBody_eq_ok (toOutcome_eq_next.1 h)
    change step ((s.saveWrite (tableText tr.table)).giveRoom more) = exec .save (s.giveRoom more)
    have hq : ((s.saveWrite (tableText tr.table)).giveRoom more).quiet := quiet_of_script_nil hs
    rw [step_of_quiet hq, saveWrite_split ht, toOutcome_ok]
    exact (exec_save_of_tree (s := s.giveRoom more) hm htr).symm

end Sys2Proof.Machine
end

section
/-! PROOFS. O13, O14 and O12, the splits: a loop that waits goes on as if all of its input and all of its room had been
there at once. -/

namespace Sys2Proof.Machine

open Sys2Proof Host

/-! ### ENCODE -/

/-- The host presents more symbols behind those not consumed, and is ready for more bits. -/
def State.feedSyms (s : State) (b : List Byte) (e : Bool) (more : Option Nat) : State :=
  { s with symSrc := ⟨s.symSrc.units ++ b, e⟩, bitSink := s.bitSink.widen more }

theorem encodeReady_iff {s : State} : s.encodeReady = true ↔ s.mode = .busy (.encode []) := by
  unfold State.encodeReady
  split <;> simp_all

/-- Writing nothing where ENCODE reads a symbol changes nothing. -/
theorem writeCode_nil {s : State} (h : s.mode = .busy (.encode [])) : s.writeCode [] = s := by
  simp only [State.writeCode, Sink.push_nil, ← h]

/-- ENCODE, gone on from `s` with the bits `rest`, waits in `t`. -/
structure EncodeWait (s : State) (rest : Path) (t : State) (left : Path) : Prop where
  mode : t.mode = .busy (.encode left)
  consumed : s.bitSink.room = none → t.symSrc = ⟨[], false⟩
  split : ∀ b e more, (t.feedSyms b e more).encodeRun left = (s.feedSyms b e more).encodeRun rest

/-- A code offered before the wait, and the rest of it after, is the code offered with all the room. -/
theorem feedSyms_writeCode (s : State) (p : Path) (b : List Byte) (e : Bool) (more : Option Nat) :
    ((s.writeCode p).feedSyms b e more).encodeRun (s.bitSink.push p).2 = (s.feedSyms b e more).encodeRun p := by
  simp only [State.encodeRun, State.writeCode, State.feedSyms, Sink.push_widen]

/-- ENCODE that waits for its sink has not looked at its input. -/
theorem EncodeWait.refl {s : State} {rest : Path} (hm : s.mode = .busy (.encode rest))
    (hc : s.bitSink.room = none → s.symSrc = ⟨[], false⟩) : EncodeWait s rest s rest :=
  ⟨hm, hc, fun _ _ _ => rfl⟩

/-- ENCODE has consumed its input up to `cs`. -/
def State.symsLeft (s : State) (cs : List Byte) : State := { s with symSrc := { s.symSrc with units := cs } }

/-- A symbol with a code, and a wait after it. -/
theorem EncodeWait.cons {s t : State} {c : Byte} {cs : List Byte} {p left : Path} (hs : s.symSrc.units = c :: cs)
    (hm : s.mode = .busy (.encode []))
    (hc : ∀ u : State, u.root = s.root → u.arena = s.arena → u.encodeSym c = .ok (u.writeCode p))
    (h : EncodeWait ((s.symsLeft cs).writeCode p) (s.bitSink.push p).2 t left) : EncodeWait s [] t left where
  mode := h.mode
  consumed hroom := h.consumed (by rw [State.writeCode_bitSink, State.symsLeft, Sink.push_of_ready hroom]; exact hroom)
  split b e more := by
    have hunits : (s.feedSyms b e more).symSrc.units = c :: (cs ++ b) := by simp [State.feedSyms, hs]
    have hm' : (s.feedSyms b e more).mode = .busy (.encode []) := hm
    have hc' : ((s.symsLeft cs).feedSyms b e more).encodeSym c = .ok (((s.symsLeft cs).feedSyms b e more).writeCode p) :=
      hc _ rfl rfl
    calc (t.feedSyms b e more).encodeRun left
        = ((s.symsLeft cs).feedSyms b e more).encodeRun p :=
          (h.split b e more).trans (feedSyms_writeCode (s.symsLeft cs) p b e more)
      _ = ((s.symsLeft cs).feedSyms b e more).encodeSym c >>= encodeSyms (cs ++ b) := by rw [hc']; rfl
      _ = encodeSyms (c :: (cs ++ b)) (s.feedSyms b e more) := (encodeSyms_cons (encodeReady_iff.2 hm') c (cs ++ b)).symm
      _ = (s.feedSyms b e more).encodeRun [] := by rw [State.encodeRun, writeCode_nil hm', hunits]

theorem encodeSyms_wait {cs : List Byte} {s t : State} {rest : Path} {p : Point} (hs : s.symSrc.units = cs)
    (hm : s.mode = .busy (.encode rest)) (hrest : s.bitSink.room = none → rest = []) (h : encodeSyms cs s = .ok t)
    (ht : t.mode = .busy p) : ∃ left, EncodeWait s rest t left := by
  induction cs generalizing s rest with
  | nil =>
    simp only [encodeSyms] at h
    split at h <;> cases h
    next => cases ht
    next he =>
      refine ⟨rest, .refl hm fun hroom => ?_⟩
      obtain rfl := hrest hroom
      rw [encodeReady_iff.2 hm, Bool.true_and, Bool.not_eq_true] at he
      rw [← hs, ← he]
  | cons c cs ih =>
    by_cases hr : s.encodeReady = true
    · obtain rfl : rest = [] := by simpa [hm] using encodeReady_iff.1 hr
      rw [encodeSyms_cons hr] at h
      obtain ⟨u, hu, h⟩ := bind_eq_ok.1 h
      obtain ⟨code, info, rfl⟩ | ⟨q, rfl, hc⟩ := encodeSym_eq_ok hu
      · rw [encodeSyms_stopped rfl] at h
        cases h
        cases ht
      · obtain ⟨left, hwait⟩ := ih rfl rfl Sink.push_left_of_ready h
        exact ⟨left, .cons hs hm hc hwait⟩
    · rw [encodeSyms_stopped (by simpa using hr)] at h
      cases h
      refine ⟨rest, .refl hm fun hroom => absurd (encodeReady_iff.2 ?_) hr⟩
      rw [hm, hrest hroom]

/-- ENCODE that waits, from its acceptance or from an earlier wait. -/
theorem encodeRun_wait {s t : State} {rest : Path} {p : Point} (h : s.encodeRun rest = .ok t) (ht : t.mode = .busy p) :
    ∃ left, EncodeWait s rest t left := by
  obtain ⟨left, hw⟩ := encodeSyms_wait (s := s.writeCode rest) rfl rfl Sink.push_left_of_ready h ht
  refine ⟨left, hw.mode, fun hroom => hw.consumed ?_, fun b e more => ?_⟩
  · rw [State.writeCode_bitSink, Sink.push_of_ready hroom]
    exact hroom
  · exact (hw.split b e more).trans (feedSyms_writeCode s rest b e more)

/-! ### DECODE -/

/-- The host presents more bits behind those not consumed, and is ready for more symbols. -/
def State.feedBits (s : State) (b : List Bool) (e : Bool) (more : Option Nat) : State :=
  { s with bitSrc := ⟨s.bitSrc.units ++ b, e⟩, symSink := s.symSink.widen more }

/-- DECODE has consumed its input up to `bs`. -/
def State.bitsLeft (s : State) (bs : List Bool) : State := { s with bitSrc := { s.bitSrc with units := bs } }

/-- Where the head of the loop has gone on, it goes on again at once. -/
theorem decodeTop_idem {s t : State} (h : s.decodeTop = .ok (some t)) : t.decodeTop = .ok (some t) := by
  obtain ⟨nd, -, ⟨-, ht⟩ | ⟨c, r, rd, -, -, hrd, hl, ⟨-, ht⟩ | ⟨-, ht⟩⟩⟩ := State.decodeTop_eq_ok h <;> cases ht
  · exact h
  · exact decodeTop_of_node hrd (Node.isLeaf_eq_false.1 hl)

/-- The loop from a leaf whose symbol is taken is the loop from the root. -/
theorem decodeBits_of_top {s t : State} (h : s.decodeTop = .ok (some t)) (bs : List Bool) :
    decodeBits bs s = decodeBits bs t := by
  cases bs with
  | nil => rw [decodeBits_nil, decodeBits_nil, h, decodeTop_idem h]; rfl
  | cons b bs => rw [decodeBits_cons, decodeBits_cons, h, decodeTop_idem h]; rfl

/-- With more bits and more room the head of the loop goes on as before. -/
theorem decodeTop_feed {s t : State} (h : s.decodeTop = .ok (some t)) (b : List Bool) (e : Bool) (more : Option Nat) :
    (s.feedBits b e more).decodeTop = .ok (some (t.feedBits b e more)) := by
  obtain ⟨nd, hnd, ⟨hs, ht⟩ | ⟨c, r, rd, hs, hr, hrd, hl, ⟨hpush, ht⟩ | ⟨-, ht⟩⟩⟩ := State.decodeTop_eq_ok h <;> cases ht
  · exact decodeTop_of_node hnd hs
  · rw [decodeTop_of_leaf (s := s.feedBits b e more) hnd hs hr hrd (Node.isLeaf_eq_false.1 hl)]
    simp only [State.feedBits, Sink.push_widen_of_taken hpush, if_true]

/-- A bit at a node looks at no port. -/
theorem decodeBit_feed {s t : State} {b : Bool} (h : s.decodeBit b = .ok t) (hm : t.mode ≠ .fault) (bs : List Bool)
    (e : Bool) (more : Option Nat) : (s.feedBits bs e more).decodeBit b = .ok (t.feedBits bs e more) := by
  obtain ⟨nd, hnd, ⟨-, rfl⟩ | ⟨n, hn, rfl⟩⟩ := State.decodeBit_eq_ok h
  · exact absurd rfl hm
  · exact decodeBit_of_child (s := s.feedBits bs e more) hnd hn

/-- DECODE's loop, gone on from `s`, waits in `t`. -/
structure DecodeWait (s t : State) : Prop where
  mode : t.mode = .busy .decode
  consumed : s.symSink.room = none → t.bitSrc = ⟨[], false⟩
  split : ∀ b e more, (t.feedBits b e more).decodeRun = (s.feedBits b e more).decodeRun

/-- A loop that the head of the loop takes further waits where the further one does. -/
theorem DecodeWait.of_top {s u t : State} (hu : s.decodeTop = .ok (some u)) (h : DecodeWait u t) : DecodeWait s t where
  mode := h.mode
  consumed hroom := by
    refine h.consumed ?_
    obtain ⟨nd, -, ⟨-, ht⟩ | ⟨c, r, rd, -, -, -, -, ⟨-, ht⟩ | ⟨-, ht⟩⟩⟩ := State.decodeTop_eq_ok hu <;> cases ht
    · exact hroom
    · rw [Sink.push_of_ready hroom]
      exact hroom
  split b e more := by
    have hsrc : (u.feedBits b e more).bitSrc = (s.feedBits b e more).bitSrc := by
      simp only [State.feedBits, decodeTop_ports hu]
    rw [h.split, State.decodeRun, State.decodeRun, hsrc, decodeBits_of_top (decodeTop_feed hu b e more)]

/-- A bit at a node, and a wait after it. -/
theorem DecodeWait.cons {s u t : State} {b : Bool} {bs : List Bool} (hs : s.bitSrc.units = b :: bs)
    (hs' : s.decodeTop = .ok (some s)) (hu : (s.bitsLeft bs).decodeBit b = .ok u) (hm : u.mode ≠ .fault)
    (h : DecodeWait u t) : DecodeWait s t where
  mode := h.mode
  consumed hroom := h.consumed (by rw [(decodeBit_ports hu).2]; exact hroom)
  split more e room := by
    have hsrc : (u.feedBits more e room).bitSrc.units = bs ++ more := by
      simp only [State.feedBits, decodeBit_ports hu]; rfl
    have hunits : (s.feedBits more e room).bitSrc.units = b :: (bs ++ more) := by simp [State.feedBits, hs]
    have hbit : ((s.bitsLeft bs).feedBits more e room).decodeBit b = .ok (u.feedBits more e room) :=
      decodeBit_feed hu hm more e room
    have hm' : (u.feedBits more e room).mode ≠ .fault := hm
    calc (t.feedBits more e room).decodeRun
        = decodeBits (bs ++ more) (u.feedBits more e room) := by rw [h.split, State.decodeRun, hsrc]
      _ = (((s.bitsLeft bs).feedBits more e room).decodeBit b >>= fun v =>
            if v.mode = .fault then .ok v else decodeBits (bs ++ more) v) := by rw [hbit, ok_bind, if_neg hm']
      _ = decodeBits (b :: (bs ++ more)) (s.feedBits more e room) := by
          rw [decodeBits_cons, decodeTop_feed hs' more e room]; rfl
      _ = (s.feedBits more e room).decodeRun := by rw [State.decodeRun, hunits]

/-- DECODE's loop waits at a leaf only for its sink. -/
theorem decodeTop_none {s : State} (h : s.decodeTop = .ok none) : s.symSink.room ≠ none := by
  intro hroom
  obtain ⟨nd, -, ⟨-, ho⟩ | ⟨c, r, rd, -, -, -, -, ⟨-, ho⟩ | ⟨hpush, -⟩⟩⟩ := State.decodeTop_eq_ok h
  · cases ho
  · cases ho
  · exact hpush (by rw [Sink.push_of_ready hroom])

/-- The head of the loop leaves the mode alone. -/
theorem decodeTop_mode {s t : State} (h : s.decodeTop = .ok (some t)) : t.mode = s.mode := by
  obtain ⟨nd, -, ⟨-, ho⟩ | ⟨c, r, rd, -, -, -, -, ⟨-, ho⟩ | ⟨-, ho⟩⟩⟩ := State.decodeTop_eq_ok h <;> cases ho <;> rfl

/-- With no bit presented DECODE waits only without end-of-stream, and changes nothing. -/
theorem decodeEnd_of_busy {s : State} {p : Point} (h : s.decodeEnd.mode = .busy p) :
    s.bitSrc.ended = false ∧ s.decodeEnd = s := by
  unfold State.decodeEnd at h ⊢
  split_ifs at h ⊢ with he hr
  · cases h
  · cases h
  · exact ⟨by simpa using he, rfl⟩

theorem decodeBits_wait {bs : List Bool} {s t : State} {p : Point} (hs : s.bitSrc.units = bs)
    (hm : s.mode = .busy .decode) (h : decodeBits bs s = .ok t) (ht : t.mode = .busy p) : DecodeWait s t := by
  induction bs generalizing s with
  | nil =>
    rw [decodeBits_nil] at h
    obtain ⟨o, ho, h⟩ := bind_eq_ok.1 h
    cases o with
    | none =>
      cases h
      exact ⟨hm, fun hroom => absurd hroom (decodeTop_none ho), fun _ _ _ => rfl⟩
    | some u =>
      obtain rfl : u.decodeEnd = t := Except.ok.inj h
      obtain ⟨he, hend⟩ := decodeEnd_of_busy ht
      have hu : u.bitSrc = ⟨[], false⟩ := by
        rw [← hs, ← he, ← (decodeTop_ports ho).1]
      rw [hend]
      exact .of_top ho ⟨(decodeTop_mode ho).trans hm, fun _ => hu, fun _ _ _ => rfl⟩
  | cons b bs ih =>
    rw [decodeBits_cons] at h
    obtain ⟨o, ho, h⟩ := bind_eq_ok.1 h
    cases o with
    | none =>
      cases h
      exact ⟨hm, fun hroom => absurd hroom (decodeTop_none ho), fun _ _ _ => rfl⟩
    | some u =>
      obtain ⟨v, hv, h⟩ := bind_eq_ok.1 h
      have husrc : u.bitSrc.units = b :: bs := by rw [(decodeTop_ports ho).1, hs]
      split at h
      next hf =>
        cases h
        cases hf.symm.trans ht
      next hf =>
        have hvm : v.mode = .busy .decode := by
          obtain ⟨nd, -, ⟨-, rfl⟩ | ⟨n, -, rfl⟩⟩ := State.decodeBit_eq_ok hv
          · exact absurd rfl hf
          · exact (decodeTop_mode ho).trans hm
        have hvsrc : v.bitSrc.units = bs := by rw [(decodeBit_ports hv).1]
        exact .of_top ho (.cons husrc (decodeTop_idem ho) hv hf (ih hvsrc hvm h))

/-- DECODE's first tests wait only with no bit and no end-of-stream. -/
theorem decodeProbe_of_busy {s : State} {p : Point} (h : s.decodeProbe.mode = .busy p) :
    s.bitSrc = ⟨[], false⟩ ∧ s.decodeProbe = { s with mode := .busy .decodeProbe } := by
  unfold State.decodeProbe at h ⊢
  split at h
  next => cases h
  next hu =>
    split at h
    next => cases h
    next he =>
      rw [Bool.not_eq_true] at he
      have hsrc : s.bitSrc = ⟨[], false⟩ := by rw [← hu, ← he]
      exact ⟨hsrc, by simp only [hsrc, Bool.false_eq_true, if_false]⟩

/-! ### LOAD -/

theorem loadEnd_of_busy {s : State} {p : Point} (hl : s.loading = true) (h : s.loadEnd.mode = .busy p) :
    s.tblSrc.ended = false ∧ s.loadEnd = s := by
  unfold State.loading at hl
  unfold State.loadEnd at h ⊢
  split_ifs at h ⊢ with he
  · split at h <;> simp_all
  · exact ⟨by simpa using he, rfl⟩

/-- LOAD, gone on from `s`, waits in `t`. -/
structure LoadWait (s t : State) : Prop where
  loading : t.loading = true
  consumed : t.tblSrc = ⟨[], false⟩
  split : ∀ b e, { t with tblSrc := ⟨b, e⟩ }.loadRun = { s with tblSrc := ⟨s.tblSrc.units ++ b, e⟩ }.loadRun

theorem loadBytes_wait {cs : List Byte} {s t : State} {p : Point} (hs : s.tblSrc.units = cs) (hl : s.loading = true)
    (h : loadBytes cs s = .ok t) (ht : t.mode = .busy p) : LoadWait s t := by
  induction cs generalizing s with
  | nil =>
    obtain rfl : s.loadEnd = t := Except.ok.inj h
    obtain ⟨he, hend⟩ := loadEnd_of_busy hl ht
    rw [hend]
    exact ⟨hl, by rw [← hs, ← he], fun b e => by rw [hs]; rfl⟩
  | cons c cs ih =>
    rw [loadBytes_cons hl] at h
    obtain ⟨u, hu, h⟩ := bind_eq_ok.1 h
    have heff := loadByte_effect (s := { s with tblSrc := { s.tblSrc with units := cs } }) hl hu
    have husrc : u.tblSrc.units = cs := by rw [State.loadByte_frame hu]
    obtain hul | hum := heff.goesOn
    · obtain ⟨htl, hc, hsplit⟩ := ih husrc hul h
      refine ⟨htl, hc, fun b e => ?_⟩
      have hbyte : { s with tblSrc := ⟨cs ++ b, e⟩ }.loadByte c = .ok { u with tblSrc := ⟨cs ++ b, e⟩ } :=
        heff.portless ⟨cs ++ b, e⟩
      calc { t with tblSrc := ⟨b, e⟩ }.loadRun
          = ({ s with tblSrc := ⟨cs ++ b, e⟩ }.loadByte c >>= loadBytes (cs ++ b)) := by
            rw [hsplit, husrc, hbyte]; rfl
        _ = { s with tblSrc := ⟨s.tblSrc.units ++ b, e⟩ }.loadRun := by
            rw [State.loadRun, hs]
            exact (loadBytes_cons (s := { s with tblSrc := ⟨c :: cs ++ b, e⟩ }) hl c (cs ++ b)).symm
    · rw [loadBytes_stopped (by simp [State.loading, hum])] at h
      cases h
      cases hum.symm.trans ht

end Sys2Proof.Machine
end

section
/-! PROOFS. O11: where a command waits, going on with nothing new changes nothing. -/

namespace Sys2Proof.Machine

open Sys2Proof Host

/-! ### Each command, from its acceptance or from an earlier wait -/

theorem saveWrite_waits {s : State} {text : List Byte} {p : Point} (h : (s.saveWrite text).mode = .busy p) :
    (s.saveWrite text).resume = .ok (s.saveWrite text) := by
  have hzero : ∀ u : State, u.giveRoom (some 0) = u := fun u => by simp only [State.giveRoom, Sink.widen_zero]
  simpa only [hzero] using saveWrite_split h (some 0)

theorem encodeRun_waits {s t : State} {rest : Path} {p : Point} (h : s.encodeRun rest = .ok t) (ht : t.mode = .busy p) :
    t.resume = .ok t := by
  have hzero : ∀ u : State, u.feedSyms [] u.symSrc.ended (some 0) = u := fun u => by
    simp only [State.feedSyms, Sink.widen_zero, List.append_nil]
  obtain ⟨left, hw⟩ := encodeRun_wait h ht
  have hended : t.symSrc.ended = s.symSrc.ended := by rw [(encodeRun_frame h).1]
  have hsplit := hw.split [] t.symSrc.ended (some 0)
  rw [hzero, hended, hzero] at hsplit
  rw [resume_of_encode hw.mode, hsplit, h]

theorem decodeRun_waits {s t : State} {p : Point} (hm : s.mode = .busy .decode) (h : s.decodeRun = .ok t)
    (ht : t.mode = .busy p) : t.resume = .ok t := by
  have hzero : ∀ u : State, u.feedBits [] u.bitSrc.ended (some 0) = u := fun u => by
    simp only [State.feedBits, Sink.widen_zero, List.append_nil]
  have hw := decodeBits_wait rfl hm h ht
  have hended : t.bitSrc.ended = s.bitSrc.ended := by rw [decodeBits_frame h]
  have hsplit := hw.split [] t.bitSrc.ended (some 0)
  rw [hzero, hended, hzero] at hsplit
  rw [resume_of_decode hw.mode, hsplit, h]

theorem decodeProbe_waits {s : State} {p : Point} (h : s.decodeProbe.mode = .busy p) :
    s.decodeProbe.resume = .ok s.decodeProbe := by
  obtain ⟨hsrc, heq⟩ := decodeProbe_of_busy h
  have hm : s.decodeProbe.mode = .busy .decodeProbe := by rw [heq]
  rw [resume_of_decodeProbe hm, heq]
  simp only [State.decodeProbe, hsrc, Bool.false_eq_true, if_false]

theorem loadBytes_waits {s t : State} {p : Point} (hl : s.loading = true) (h : s.loadRun = .ok t)
    (ht : t.mode = .busy p) : t.resume = .ok t := by
  obtain ⟨htl, hsrc, -⟩ := loadBytes_wait rfl hl h ht
  rw [resume_of_loading htl, State.loadRun, hsrc, loadBytes_nil, State.loadEnd, hsrc]
  rfl

/-! ### The command that a step leaves waiting -/

/-- A command accepted in IDLE that waits changes nothing when it is resumed with nothing new. -/
theorem body_waits {i : Instr} {s t : State} {p : Point} (h : body i s = .ok t)
    (ht : t.mode = .busy p) : t.resume = .ok t := by
  cases i
  case nop => cases h; cases ht
  case build =>
    obtain rfl | ⟨u, r, -, rfl⟩ := buildBody_eq_ok h <;> cases ht
  case save =>
    obtain ⟨tr, -, rfl⟩ := saveBody_eq_ok h
    exact saveWrite_waits ht
  case load =>
    change s.loadBody = .ok t at h
    unfold State.loadBody at h
    split at h
    next => cases h; cases ht
    next => exact loadBytes_waits (s := { s with mode := .busy .loadPair }) rfl h ht
  case encode => exact encodeRun_waits h ht
  case decode =>
    obtain ⟨-, rfl⟩ | ⟨r, nd, -, -, -, h⟩ := decodeBody_cases h
    · exact decodeProbe_waits ht
    · exact decodeRun_waits rfl h ht
  case reserved6 => cases h; cases ht
  case reset => cases h; cases ht

/-- So does one that was resumed and waits again. -/
theorem resume_waits {s t : State} {p q : Point} (hm : s.mode = .busy p) (h : s.resume = .ok t) (ht : t.mode = .busy q) :
    t.resume = .ok t := by
  cases p
  case save rest =>
    rw [resume_of_save hm] at h
    cases h
    exact saveWrite_waits ht
  case encode rest => exact encodeRun_waits (resume_of_encode hm ▸ h) ht
  case decodeProbe =>
    rw [resume_of_decodeProbe hm] at h
    cases h
    exact decodeProbe_waits ht
  case decode => exact decodeRun_waits hm (resume_of_decode hm ▸ h) ht
  all_goals
    have hl : s.loading = true := (loading_of_busy hm).2 rfl
    exact loadBytes_waits hl (resume_of_loading hl ▸ h) ht

/-- In BUSY the same actions of the host are taken, whatever the point. -/
theorem takes_of_busy {s t : State} {p q : Point} (hs : s.mode = .busy p) (ht : t.mode = .busy q) :
    s.takes = t.takes := by
  funext a
  cases a <;> simp [State.takes, State.cmdReady, State.freqReady, hs, ht]

/-- Settles O11: the step after a wait is that of the waiting command, which goes on with nothing new. -/
theorem waitChangesNoState : Obligations.WaitChangesNoState := by
  refine ⟨fun i s t p hm h ht hq => ?_, fun s t p q hm hq h ht => ?_⟩
  · rw [exec_of_idle hm] at h
    rw [step_of_quiet hq, body_waits (toOutcome_eq_next.1 h) ht, toOutcome_ok]
  · have hr := step_quiet_eq_next hq h
    have hq' : t.quiet := by
      rw [State.quiet, ← takes_of_busy hm ht, (resume_script_freq hr).1]
      exact hq
    rw [step_of_quiet hq', resume_waits hm hr ht, toOutcome_ok]

end Sys2Proof.Machine
end

section
/-! PROOFS. O13: ENCODE of a stream that comes in pieces, to a sink with room for a part of the codes. -/

namespace Sys2Proof.Machine

open Sys2Proof Host

/-! ### The codes of a tree -/

theorem lookupCode_mem {l : List (Byte × Path)} {c : Byte} {p : Path} (h : lookupCode l c = some p) : (c, p) ∈ l := by
  induction l with
  | nil => cases h
  | cons q l ih =>
    obtain ⟨d, q⟩ := q
    simp only [lookupCode] at h
    split at h
    next hd =>
      cases hd
      cases h
      exact List.mem_cons_self ..
    next => exact List.mem_cons_of_mem _ (ih h)

theorem lookupCode_of_mem {l : List (Byte × Path)} {c : Byte} (h : c ∈ l.map Prod.fst) :
    ∃ p, lookupCode l c = some p := by
  induction l with
  | nil => cases h
  | cons q l ih =>
    obtain ⟨d, q⟩ := q
    simp only [lookupCode]
    split
    next => exact ⟨q, rfl⟩
    next hd => exact ih ((List.mem_cons.1 h).resolve_left (Ne.symm hd))

/-- A symbol of the tree has a code (R140). -/
theorem codeOf_of_mem {t : CodeTree} {c : Byte} (h : c ∈ t.symbols) : ∃ p, t.codeOf c = some p :=
  lookupCode_of_mem (t.table_symbols ▸ h)

@[simp] theorem codes_nil (t : CodeTree) : t.codes [] = [] := rfl

theorem codes_cons {t : CodeTree} {c : Byte} {p : Path} (h : t.codeOf c = some p) (cs : List Byte) :
    t.codes (c :: cs) = p ++ t.codes cs := by
  simp [CodeTree.codes, h]

@[simp] theorem codes_append (t : CodeTree) (cs ds : List Byte) : t.codes (cs ++ ds) = t.codes cs ++ t.codes ds := by
  simp [CodeTree.codes]

/-! ### A port that has room -/

@[simp] theorem Sink.took_nil {α : Type} (k : Sink α) : k.took [] = k := by
  obtain ⟨w, _ | n⟩ := k <;> simp

theorem Sink.took_took {α : Type} (k : Sink α) (us vs : List α) : (k.took us).took vs = k.took (us ++ vs) := by
  obtain ⟨w, _ | n⟩ := k <;> simp [Nat.sub_sub]

theorem Sink.hasRoom.mono {α : Type} {k : Sink α} {m n : Nat} (h : k.hasRoom n) (hm : m ≤ n) : k.hasRoom m :=
  fun r hr => hm.trans (h r hr)

/-- The room that is left after some of the units. -/
theorem Sink.hasRoom.took {α : Type} {k : Sink α} {us : List α} {n : Nat} (h : k.hasRoom (us.length + n)) :
    (k.took us).hasRoom n := by
  intro r hr
  obtain ⟨m, hm, rfl⟩ := Option.map_eq_some_iff.1 hr
  have := h m hm
  omega

/-! ### ENCODE of symbols of the tree -/

/-- A symbol of the tree: its code is offered to the sink (R141). -/
theorem encodeSyms_code {s : State} {l r : CodeTree} (ht : s.tree = .ok (.node l r)) (hm : s.mode = .busy (.encode []))
    {c : Byte} {p : Path} (hp : (CodeTree.node l r).codeOf c = some p) (cs : List Byte) :
    encodeSyms (c :: cs) s = encodeSyms cs ((s.symsLeft cs).writeCode p) := by
  have hsym : (s.symsLeft cs).encodeSym c = .ok ((s.symsLeft cs).writeCode p) :=
    encodeSym_of_code (s := s.symsLeft cs) ht hp
  rw [encodeSyms_cons (encodeReady_iff.2 hm)]
  exact congrArg (· >>= encodeSyms cs) hsym

/-- A code that the sink takes (R141). -/
theorem writeCode_of_hasRoom {s : State} {p : Path} (hm : s.mode = .busy (.encode [])) (h : s.bitSink.hasRoom p.length) :
    s.writeCode p = { s with bitSink := s.bitSink.took p } := by
  simp only [State.writeCode, Sink.push_of_hasRoom h, ← hm]

/-- Symbols of the tree and a sink with room for their codes: all of it is written, and ENCODE goes on behind them. -/
theorem encodeSyms_codes {cs : List Byte} {s : State} {l r : CodeTree} {rest : List Byte} (ht : s.tree = .ok (.node l r))
    (hm : s.mode = .busy (.encode [])) (hs : s.symSrc.units = cs ++ rest) (hc : ∀ c ∈ cs, c ∈ (CodeTree.node l r).symbols)
    (hroom : s.bitSink.hasRoom ((CodeTree.node l r).codes cs).length) :
    encodeSyms (cs ++ rest) s =
      encodeSyms rest { s.symsLeft rest with bitSink := s.bitSink.took ((CodeTree.node l r).codes cs) } := by
  induction cs generalizing s with
  | nil =>
    simp only [List.nil_append, codes_nil, Sink.took_nil] at hs ⊢
    rw [State.symsLeft, ← hs]
  | cons c cs ih =>
    obtain ⟨hcs, hcs'⟩ := List.forall_mem_cons.1 hc
    obtain ⟨p, hp⟩ := codeOf_of_mem hcs
    rw [codes_cons hp, List.length_append] at hroom
    have hwrite := writeCode_of_hasRoom (s := s.symsLeft (cs ++ rest)) hm (hroom.mono (Nat.le_add_right ..))
    rw [List.cons_append, encodeSyms_code ht hm hp, hwrite, codes_cons hp, ← Sink.took_took]
    exact ih (s := { s.symsLeft (cs ++ rest) with bitSink := s.bitSink.took p }) ht hm rfl hcs' hroom.took

/-- A sink with too little room takes exactly that many bits, and ENCODE waits with the rest of a code (R55). -/
theorem encodeSyms_short {cs : List Byte} {s : State} {l r : CodeTree} {n : Nat} (ht : s.tree = .ok (.node l r))
    (hm : s.mode = .busy (.encode [])) (hs : s.symSrc.units = cs) (hc : ∀ c ∈ cs, c ∈ (CodeTree.node l r).symbols)
    (hroom : s.bitSink.room = some n) (hn : n < ((CodeTree.node l r).codes cs).length) :
    ∃ rest left, encodeSyms cs s = .ok { s.symsLeft left with
        mode := .busy (.encode rest)
        bitSink := ⟨s.bitSink.written ++ ((CodeTree.node l r).codes cs).take n, some 0⟩ } ∧
      rest ≠ [] ∧ (∃ used, cs = used ++ left) ∧
      ((CodeTree.node l r).codes cs).drop n = rest ++ (CodeTree.node l r).codes left := by
  induction cs generalizing s n with
  | nil => simp at hn
  | cons c cs ih =>
    obtain ⟨hcs, hcs'⟩ := List.forall_mem_cons.1 hc
    obtain ⟨p, hp⟩ := codeOf_of_mem hcs
    rw [encodeSyms_code ht hm hp]
    simp only [codes_cons hp, List.length_append] at hn ⊢
    rcases Nat.lt_or_ge n p.length with hlt | hle
    · have hpush : (s.symsLeft cs).bitSink.push p = (⟨s.bitSink.written ++ p.take n, some 0⟩, p.drop n) :=
        Sink.push_of_lt hroom hlt
      have hne : p.drop n ≠ [] := by simpa using hlt
      refine ⟨p.drop n, cs, ?_, hne, ⟨[c], rfl⟩, List.drop_append_of_le_length hlt.le⟩
      rw [encodeSyms_stopped, List.take_append_of_le_length hlt.le]
      · simp only [State.writeCode, hpush]
      · rw [← Bool.not_eq_true, encodeReady_iff, State.writeCode_mode, hpush]
        simpa using hne
    · have hp_room : s.bitSink.hasRoom p.length := fun m hm => by
        cases hroom.symm.trans hm
        exact hle
      rw [writeCode_of_hasRoom (s := s.symsLeft cs) hm hp_room]
      obtain ⟨rest, left, hrun, hne, ⟨used, hused⟩, hdrop⟩ :=
        ih (s := { s.symsLeft cs with bitSink := s.bitSink.took p }) (n := n - p.length) ht hm rfl hcs'
          (congrArg (Option.map (· - p.length)) hroom) (by omega)
      refine ⟨rest, left, ?_, hne, ⟨c :: used, by rw [hused, List.cons_append]⟩, ?_⟩
      · refine hrun.trans ?_
        rw [List.take_append, List.take_of_length_le hle, ← List.append_assoc]
        rfl
      · rw [List.drop_append, List.drop_of_length_le hle, List.nil_append, hdrop]

/-- ENCODE in IDLE starts with no bit left over. -/
theorem encodeBody_eq (s : State) : s.encodeBody = encodeSyms s.symSrc.units { s with mode := .busy (.encode []) } := by
  simp only [State.encodeBody, State.encodeRun, State.writeCode, Sink.push_nil]

theorem exec_encode_of_idle {s : State} (hm : s.mode = .idle) :
    exec .encode s = toOutcome (encodeSyms s.symSrc.units { s with mode := .busy (.encode []) }) := by
  rw [exec_of_idle hm, ← encodeBody_eq]
  rfl

/-- With neither a symbol nor end-of-stream presented, ENCODE waits (R55). -/
theorem encodeSyms_nil_waits {s : State} (h : s.symSrc.ended = false) : encodeSyms [] s = .ok s := by
  simp only [encodeSyms, h, Bool.and_false, Bool.false_eq_true, if_false]

/-- Settles O13: the split of a wait, a sink that is too short, and the two waits for a symbol. -/
theorem encodeOfASplitStream : Obligations.EncodeOfASplitStream := by
  refine ⟨fun s t a b e₀ e more p hm hs h ht => ?_, fun s l r cs e n hm htr hc hsrc hroom hn => ?_,
    fun s l r cs hm htr hc hsrc hroom => ?_, fun s hm hsrc => ?_⟩
  · replace h : State.encodeRun { s with symSrc := ⟨a, e₀⟩ } [] = .ok t :=
      toOutcome_eq_next.1 ((exec_of_idle (s := { s with symSrc := ⟨a, e₀⟩ }) hm .encode).symm.trans h)
    obtain ⟨left, hw⟩ := encodeRun_wait h ht
    refine ⟨hw.consumed, ?_⟩
    have hq : (t.feedSyms b e more).quiet := quiet_of_script_nil (by rw [(encodeRun_frame h).1]; exact hs)
    change step (t.feedSyms b e more) = exec .encode (State.feedSyms { s with symSrc := ⟨a, e₀⟩ } b e more)
    rw [step_of_quiet hq, resume_of_encode (s := t.feedSyms b e more) hw.mode, hw.split,
      exec_of_idle (s := State.feedSyms { s with symSrc := ⟨a, e₀⟩ } b e more) hm]
    rfl
  · obtain ⟨hunits, hended⟩ : s.symSrc.units = cs ∧ s.symSrc.ended = e := by rw [hsrc]; exact ⟨rfl, rfl⟩
    obtain ⟨rest, left, hrun, hne, hused, hdrop⟩ := encodeSyms_short (s := { s with mode := .busy (.encode []) })
      htr rfl hunits hc hroom hn
    refine ⟨rest, left, ?_, hne, hused, hdrop⟩
    rw [exec_encode_of_idle hm, hunits, hrun]
    simp only [State.symsLeft, hended, toOutcome_ok]
  · obtain ⟨hunits, hended⟩ : s.symSrc.units = cs ++ [] ∧ s.symSrc.ended = false := by rw [hsrc]; simp
    rw [exec_encode_of_idle hm, hunits,
      encodeSyms_codes (s := { s with mode := .busy (.encode []) }) htr rfl hunits hc hroom, encodeSyms_nil_waits]
    · simp only [State.symsLeft, hended, toOutcome_ok]
    · exact hended
  · obtain ⟨hunits, hended⟩ : s.symSrc.units = [] ∧ s.symSrc.ended = false := by rw [hsrc]; exact ⟨rfl, rfl⟩
    rw [exec_encode_of_idle hm, hunits, encodeSyms_nil_waits, toOutcome_ok]
    exact hended

end Sys2Proof.Machine
end

section
/-! PROOFS. O14: DECODE of a stream that comes in pieces, to a sink with room for a part of the symbols. -/

namespace Sys2Proof.Machine

open Sys2Proof Host

/-! ### Paths in a tree -/

@[simp] theorem descend_nil (t : CodeTree) : t.descend [] = some t := by
  cases t <;> rfl

/-- Nothing but the empty tree lies below it. -/
theorem eq_empty_of_descend {q : Path} {y : CodeTree} (h : CodeTree.empty.descend q = some y) : y = .empty := by
  cases q <;> cases h
  rfl

/-- A path into a tree goes to one child of a node, and on from there. -/
theorem descend_cons {x y : CodeTree} {b : Bool} {q : Path} (h : x.descend (b :: q) = some y) :
    ∃ l r, x = .node l r ∧ (if b then r else l).descend q = some y := by
  cases x with
  | empty => cases h
  | leaf c => cases h
  | node l r =>
    refine ⟨l, r, rfl, ?_⟩
    cases b <;> exact h

/-- The path of a table entry leads to its leaf (R121). -/
theorem descend_of_mem_table {t : CodeTree} {c : Byte} {p : Path} (h : (c, p) ∈ t.table) :
    t.descend p = some (.leaf c) := by
  induction t generalizing p with
  | empty => cases h
  | leaf d =>
    cases List.mem_singleton.1 h
    rfl
  | node l r hl hr =>
    obtain ⟨b, q, rfl, hq⟩ := CodeTree.mem_table_node.1 h
    cases b
    · exact hl hq
    · exact hr hq

/-- The code of a symbol leads to a leaf that holds it (R140). -/
theorem descend_of_codeOf {t : CodeTree} {c : Byte} {p : Path} (h : t.codeOf c = some p) : t.descend p = some (.leaf c) :=
  descend_of_mem_table (lookupCode_mem h)

/-! ### DECODE along a path and over whole codes -/

/-- The bits of a path take DECODE to the entry the path leads to. -/
theorem decodeBits_walk {q : Path} {s : State} {x y : CodeTree} {rest : List Bool} (hx : s.here = .ok x)
    (hq : x.descend q = some y) (hy : y ≠ .empty) (hm : s.mode = .busy .decode) (hs : s.bitSrc.units = q ++ rest) :
    ∃ cur, walk s.arena (some s.cur) q = some cur ∧ treeAt s.nodeCount s.arena (some cur) = .ok y ∧
      decodeBits (q ++ rest) s = decodeBits rest { s.bitsLeft rest with cur := cur } := by
  induction q generalizing s x with
  | nil =>
    obtain rfl : x = y := Option.some.inj ((descend_nil x).symm.trans hq)
    refine ⟨s.cur, walk_nil .., hx, ?_⟩
    rw [State.bitsLeft, show rest = s.bitSrc.units from hs.symm]
    rfl
  | cons b q ih =>
    obtain ⟨l, r, rfl, hq'⟩ := descend_cons hq
    obtain ⟨nd, hnd, ⟨c, -, hc⟩ | ⟨l', r', hsym, hlr, hchild⟩⟩ := treeAt_entry hx
    · cases hc
    cases hlr
    cases hb : nd.child b with
    | none =>
      have hempty := hchild b
      rw [hb, treeAt_none] at hempty
      rw [← Except.ok.inj hempty] at hq'
      exact absurd (eq_empty_of_descend hq') hy
    | some n =>
      have hn : treeAt s.nodeCount s.arena (some n) = .ok (if b then r else l) := by rw [← hb, hchild]
      obtain ⟨cur, hwalk, htree, hrun⟩ := ih (s := { s.bitsLeft (q ++ rest) with cur := n }) hn hq' hm rfl
      refine ⟨cur, (walk_cons (readNode_eq_ok.1 hnd) b q).trans (hb ▸ hwalk), htree, ?_⟩
      have hbit : (s.bitsLeft (q ++ rest)).decodeBit b = .ok { s.bitsLeft (q ++ rest) with cur := n } :=
        decodeBit_of_child (s := s.bitsLeft (q ++ rest)) hnd hb
      have hm' : (s.bitsLeft (q ++ rest)).mode ≠ .fault := by simp [State.bitsLeft, hm]
      calc decodeBits (b :: q ++ rest) s
          = ((s.bitsLeft (q ++ rest)).decodeBit b >>= fun u =>
              if u.mode = .fault then .ok u else decodeBits (q ++ rest) u) := by
            rw [List.cons_append, decodeBits_cons, decodeTop_of_node hnd hsym]; rfl
        _ = decodeBits (q ++ rest) { s.bitsLeft (q ++ rest) with cur := n } := by rw [hbit, ok_bind, if_neg hm']
        _ = decodeBits rest { s.bitsLeft rest with cur := cur } := hrun

/-- The code of a symbol takes DECODE from the root to a leaf that holds it. -/
theorem decodeBits_code {s : State} {l r : CodeTree} (ht : s.tree = .ok (.node l r)) (hr : s.root = some s.cur)
    (hm : s.mode = .busy .decode) {c : Byte} {p : Path} (hp : (CodeTree.node l r).codeOf c = some p) {rest : List Bool}
    (hs : s.bitSrc.units = p ++ rest) :
    ∃ cur nd, s.arena[cur.val]? = some nd ∧ nd.sym = .symbol c ∧
      decodeBits (p ++ rest) s = decodeBits rest { s.bitsLeft rest with cur := cur } := by
  have hhere : s.here = .ok (.node l r) := (here_of_root hr).trans ht
  obtain ⟨cur, -, htree, hrun⟩ := decodeBits_walk hhere (descend_of_codeOf hp) nofun hm hs
  obtain ⟨nd, hnd, ⟨d, hd, hc⟩ | ⟨x, y, -, hxy, -⟩⟩ := treeAt_entry htree
  · cases hc
    exact ⟨cur, nd, readNode_eq_ok.1 hnd, hd, hrun⟩
  · cases hxy

/-- Whole codes and a sink with room for their symbols: the symbols are emitted, and DECODE is at the root again (R150). -/
theorem decodeBits_codes {cs : List Byte} {s : State} {l r : CodeTree} {rest : List Bool} (ht : s.tree = .ok (.node l r))
    (hr : s.root = some s.cur) (hm : s.mode = .busy .decode) (hc : ∀ c ∈ cs, c ∈ (CodeTree.node l r).symbols)
    (hs : s.bitSrc.units = (CodeTree.node l r).codes cs ++ rest) (hroom : s.symSink.hasRoom cs.length) :
    decodeBits ((CodeTree.node l r).codes cs ++ rest) s =
      decodeBits rest { s.bitsLeft rest with symSink := s.symSink.took cs } := by
  induction cs generalizing s with
  | nil =>
    simp only [List.nil_append, codes_nil, Sink.took_nil] at hs ⊢
    rw [State.bitsLeft, ← hs]
  | cons c cs ih =>
    obtain ⟨hcs, hcs'⟩ := List.forall_mem_cons.1 hc
    obtain ⟨p, hp⟩ := codeOf_of_mem hcs
    rw [codes_cons hp, List.append_assoc] at hs ⊢
    obtain ⟨cur, nd, hnd, hsym, hrun⟩ := decodeBits_code ht hr hm hp hs
    obtain ⟨r', rd, hr', hrd, hrs⟩ := root_of_node ht
    obtain rfl : s.cur = r' := Option.some.inj (hr.symm.trans hr')
    rw [List.length_cons, Nat.add_comm] at hroom
    have hpush : s.symSink.push [c] = (s.symSink.took [c], []) :=
      Sink.push_of_hasRoom (hroom.mono (Nat.le_add_right ..))
    have htop : State.decodeTop { s.bitsLeft ((CodeTree.node l r).codes cs ++ rest) with cur := cur } =
        .ok (some { s.bitsLeft ((CodeTree.node l r).codes cs ++ rest) with symSink := s.symSink.took [c] }) := by
      rw [decodeTop_of_leaf (s := { s.bitsLeft ((CodeTree.node l r).codes cs ++ rest) with cur := cur })
        (readNode_eq_ok.2 hnd) hsym hr hrd hrs]
      simp only [State.bitsLeft, hpush, if_true]
    have htook : s.symSink.took (c :: cs) = (s.symSink.took [c]).took cs := (Sink.took_took s.symSink [c] cs).symm
    rw [hrun, decodeBits_of_top htop, htook]
    exact ih (s := { s.bitsLeft ((CodeTree.node l r).codes cs ++ rest) with symSink := s.symSink.took [c] }) ht hr hm
      hcs' rfl hroom.took

/-- Where the head of the loop waits, so does the loop. -/
theorem decodeBits_of_top_none {s : State} (h : s.decodeTop = .ok none) (bs : List Bool) : decodeBits bs s = .ok s := by
  cases bs with
  | nil => rw [decodeBits_nil, h]; rfl
  | cons b bs => rw [decodeBits_cons, h]; rfl

/-- At a leaf with a sink that takes no symbol, DECODE waits (R55). -/
theorem decodeBits_waits_at_leaf {s : State} {l r : CodeTree} {nd : Node} {c : Byte} (ht : s.tree = .ok (.node l r))
    (hnd : s.arena[s.cur.val]? = some nd) (hs : nd.sym = .symbol c) (hroom : s.symSink.room = some 0) (bs : List Bool) :
    decodeBits bs s = .ok s := by
  obtain ⟨i, rd, hi, hrd, hrs⟩ := root_of_node ht
  refine decodeBits_of_top_none ?_ bs
  rw [decodeTop_of_leaf (readNode_eq_ok.2 hnd) hs hi hrd hrs, Sink.push_of_lt (n := 0) hroom (by simp)]
  rfl

/-- At a node that is no leaf, with neither a bit nor end-of-stream presented, DECODE waits (R55). -/
theorem decodeBits_nil_waits {s : State} {nd : Node} (hnd : readNode s.arena s.cur = .ok nd) (hs : nd.sym = .sentinel)
    (he : s.bitSrc.ended = false) : decodeBits [] s = .ok s := by
  rw [decodeBits_nil, decodeTop_of_node hnd hs, ok_bind]
  simp only [State.decodeEnd, he, Bool.false_eq_true, if_false]

/-! ### DECODE in IDLE -/

/-- No tree, or a single leaf: DECODE stays at its first tests (R150). -/
def State.Probes (s : State) : Prop :=
  s.root = none ∨ ∃ r nd, s.root = some r ∧ readNode s.arena r = .ok nd ∧ nd.isLeaf = true

theorem decodeBody_of_probes {s : State} (h : s.Probes) : s.decodeBody = .ok s.decodeProbe := by
  unfold State.decodeBody
  split
  next => rfl
  next r hr =>
    obtain hn | ⟨r', nd, hr', hnd, hl⟩ := h
    · cases hn.symm.trans hr
    · cases hr'.symm.trans hr
      rw [hnd, ok_bind, if_pos hl]

theorem decodeBody_of_inner {s : State} {r : Idx} {nd : Node} (hr : s.root = some r) (hnd : readNode s.arena r = .ok nd)
    (hl : nd.isLeaf = false) : s.decodeBody = State.decodeRun { s with cur := r, mode := .busy .decode } := by
  unfold State.decodeBody
  split
  next hn => cases hn.symm.trans hr
  next r' hr' =>
    cases hr'.symm.trans hr
    rw [hnd, ok_bind, hl]
    rfl

/-- The first tests look at the input and the root, not at the mode. -/
theorem decodeProbe_congr {s t : State} (h : t = { s with mode := t.mode }) : t.decodeProbe = s.decodeProbe := by
  rw [h]
  rfl

theorem decodeProbe_waits_of_empty {s : State} (h : s.bitSrc = ⟨[], false⟩) :
    s.decodeProbe = { s with mode := .busy .decodeProbe } := by
  simp only [State.decodeProbe, h, Bool.false_eq_true, if_false]

/-- DECODE in IDLE that waits goes on as if all bits and all room had been there before. -/
theorem decodeBody_split {s t : State} {p : Point} (h : s.decodeBody = .ok t) (ht : t.mode = .busy p) :
    (s.symSink.room = none → t.bitSrc = ⟨[], false⟩) ∧
    ∀ b e more, (t.feedBits b e more).resume = (s.feedBits b e more).decodeBody := by
  obtain ⟨hprobe, rfl⟩ | ⟨r, nd, hr, hnd, hl, hrun⟩ := decodeBody_cases h
  · obtain ⟨hsrc, heq⟩ := decodeProbe_of_busy ht
    rw [heq]
    refine ⟨fun _ => hsrc, fun b e more => ?_⟩
    rw [resume_of_decodeProbe rfl, decodeBody_of_probes (s := s.feedBits b e more) hprobe]
    exact congrArg Except.ok (decodeProbe_congr rfl)
  · have hw := decodeBits_wait rfl rfl hrun ht
    refine ⟨hw.consumed, fun b e more => ?_⟩
    rw [resume_of_decode (s := t.feedBits b e more) hw.mode, hw.split,
      decodeBody_of_inner (s := s.feedBits b e more) hr hnd hl]
    rfl

/-- DECODE in IDLE of a tree with an inner root. -/
theorem exec_decode_of_node {s : State} {l r : CodeTree} (hm : s.mode = .idle) (ht : s.tree = .ok (.node l r)) {i : Idx}
    (hi : s.root = some i) :
    exec .decode s = toOutcome (decodeBits s.bitSrc.units { s with cur := i, mode := .busy .decode }) := by
  rw [exec_of_idle hm]
  exact congrArg toOutcome (decodeBody_of_node ht hi)

/-- Settles O14: the split of a wait, a sink that is too short, and the waits for a bit in the loop and before it. -/
theorem decodeOfASplitStream : Obligations.DecodeOfASplitStream := by
  refine ⟨fun s t a b e₀ e more p hm hs h ht => ?_, fun s l r pre post c e hm htr hc hsrc hroom => ?_,
    fun s l r l' r' cs q hm htr hc hq hsrc hroom => ?_, fun s d hm hsrc hroot => ?_⟩
  · replace h : State.decodeBody { s with bitSrc := ⟨a, e₀⟩ } = .ok t :=
      toOutcome_eq_next.1 ((exec_of_idle (s := { s with bitSrc := ⟨a, e₀⟩ }) hm .decode).symm.trans h)
    obtain ⟨hconsumed, hsplit⟩ := decodeBody_split h ht
    refine ⟨hconsumed, ?_⟩
    have hq : (t.feedBits b e more).quiet := quiet_of_script_nil (by rw [(decodeBody_frame h).1]; exact hs)
    change step (t.feedBits b e more) = exec .decode (State.feedBits { s with bitSrc := ⟨a, e₀⟩ } b e more)
    rw [step_of_quiet hq, hsplit, exec_of_idle (s := State.feedBits { s with bitSrc := ⟨a, e₀⟩ } b e more) hm]
    rfl
  · obtain ⟨i, rd, hi, hrd, hrs⟩ := root_of_node htr
    obtain ⟨hpre, hc', -⟩ : (∀ d ∈ pre, d ∈ (CodeTree.node l r).symbols) ∧ c ∈ (CodeTree.node l r).symbols ∧
        ∀ d ∈ post, d ∈ (CodeTree.node l r).symbols := by
      simpa only [List.forall_mem_append, List.forall_mem_cons] using hc
    obtain ⟨p, hp⟩ := codeOf_of_mem hc'
    obtain ⟨hunits, hended⟩ : s.bitSrc.units = (CodeTree.node l r).codes pre ++ (p ++ (CodeTree.node l r).codes post) ∧
        s.bitSrc.ended = e := by
      rw [hsrc, codes_append, codes_cons hp]
      exact ⟨rfl, rfl⟩
    have hroom' : s.symSink.hasRoom pre.length := fun m hm => (Option.some.inj (hroom.symm.trans hm)).le
    have htook : s.symSink.took pre = ⟨s.symSink.written ++ pre, some 0⟩ := by simp [Sink.took, hroom]
    have hcodes := decodeBits_codes (s := { s with cur := i, mode := .busy .decode }) htr hi rfl hpre hunits hroom'
    obtain ⟨cur, nd, hnd, hsym, hcode⟩ := decodeBits_code
      (s := { s.bitsLeft (p ++ (CodeTree.node l r).codes post) with
        cur := i, mode := .busy .decode, symSink := s.symSink.took pre }) htr hi rfl hp rfl
    have hwait := decodeBits_waits_at_leaf
      (s := { s.bitsLeft ((CodeTree.node l r).codes post) with
        cur := cur, mode := .busy .decode, symSink := s.symSink.took pre }) htr hnd hsym (by rw [htook])
      ((CodeTree.node l r).codes post)
    refine ⟨cur, nd, ?_, hnd, hsym⟩
    rw [exec_decode_of_node hm htr hi, hunits]
    refine (congrArg toOutcome (hcodes.trans (hcode.trans hwait))).trans ?_
    simp only [State.bitsLeft, hended, htook, toOutcome_ok]
  · obtain ⟨i, rd, hi, hrd, hrs⟩ := root_of_node htr
    obtain ⟨hunits, hended⟩ : s.bitSrc.units = (CodeTree.node l r).codes cs ++ (q ++ []) ∧ s.bitSrc.ended = false := by
      rw [hsrc, List.append_nil]
      exact ⟨rfl, rfl⟩
    have hcodes := decodeBits_codes (s := { s with cur := i, mode := .busy .decode }) htr hi rfl hc hunits hroom
    have hhere : State.here { s with cur := i } = .ok (.node l r) := (here_of_root hi).trans htr
    obtain ⟨cur, hwalk, htree, hrun⟩ := decodeBits_walk
      (s := { s.bitsLeft (q ++ []) with cur := i, mode := .busy .decode, symSink := s.symSink.took cs }) hhere hq nofun rfl
      rfl
    obtain ⟨nd, hnd, ⟨d, -, hd⟩ | ⟨x, y, hsym, -⟩⟩ := treeAt_entry htree
    · cases hd
    have hwait := decodeBits_nil_waits
      (s := { s.bitsLeft [] with cur := cur, mode := .busy .decode, symSink := s.symSink.took cs }) hnd hsym hended
    refine ⟨cur, hi ▸ hwalk, ?_⟩
    rw [exec_decode_of_node hm htr hi, hunits]
    refine (congrArg toOutcome (hcodes.trans (hrun.trans hwait))).trans ?_
    simp only [State.bitsLeft, hended, toOutcome_ok]
  · have hprobe : s.decodeBody = .ok s.decodeProbe := decodeBody_of_probe (hroot.imp root_of_empty.2 fun h => ⟨d, h⟩)
    rw [exec_of_idle hm, show body .decode s = s.decodeBody from rfl, hprobe, decodeProbe_waits_of_empty hsrc,
      toOutcome_ok]

end Sys2Proof.Machine
end

section
/-! PROOFS. O12, the lines of a table: LOAD's walk makes a node only for a path that no node has yet, so lines whose paths
have at most 511 prefixes between them fill no more than the arena. -/

namespace Sys2Proof.Machine

open Sys2Proof Host

/-! ### Walks in a growing arena -/

/-- Every child of an arena is one of another arena, at the same entry under the same bit. -/
def KeepsChildren (arena arena' : List Node) : Prop :=
  ∀ (i : Nat) (nd : Node) (b : Bool) (c : Idx), arena[i]? = some nd → nd.child b = some c →
    ∃ nd', arena'[i]? = some nd' ∧ nd'.child b = some c

/-- A walk that arrives still arrives, at the same entry. -/
theorem walk_of_keepsChildren {arena arena' : List Node} (h : KeepsChildren arena arena') {l : Link} {p : Path} {k : Idx}
    (hw : walk arena l p = some k) : walk arena' l p = some k := by
  induction p generalizing l with
  | nil => simpa using hw
  | cons b p ih =>
    cases l with
    | none => simp at hw
    | some i =>
      cases hi : arena[i.val]? with
      | none => simp [walk, hi] at hw
      | some nd =>
        rw [walk_cons hi] at hw
        cases hb : nd.child b with
        | none => simp [hb] at hw
        | some c =>
          obtain ⟨nd', hi', hb'⟩ := h i nd b c hi hb
          rw [walk_cons hi', hb']
          exact ih (hb ▸ hw)

theorem keepsChildren_append (arena : List Node) (nd : Node) : KeepsChildren arena (arena ++ [nd]) :=
  fun _ x _ _ hi hb => ⟨x, getElem?_append_singleton_eq_some.2 (.inl hi), hb⟩

/-- A record that keeps the children of the one it replaces. -/
theorem keepsChildren_set {arena : List Node} {i : Nat} {nd nd' : Node} (hi : arena[i]? = some nd)
    (h : ∀ b c, nd.child b = some c → nd'.child b = some c) : KeepsChildren arena (arena.set i nd') := by
  intro j x b c hj hb
  rw [List.getElem?_set]
  split
  next hij =>
    subst hij
    cases hi.symm.trans hj
    rw [if_pos (List.getElem?_eq_some_iff.1 hi).1]
    exact ⟨nd', rfl, h b c hb⟩
  next => exact ⟨x, hj, hb⟩

theorem Node.child_setChild_same (nd : Node) (b : Bool) (l : Link) : (nd.setChild b l).child b = l := by
  cases b <;> rfl

/-- A child written where there was none loses no child. -/
theorem Node.child_setChild {nd : Node} {b : Bool} (hb : nd.child b = none) (l : Link) {d : Bool} {c : Idx}
    (hd : nd.child d = some c) : (nd.setChild b l).child d = some c := by
  have hne : d ≠ b := by
    rintro rfl
    cases hb.symm.trans hd
  obtain rfl : d = !b := Bool.eq_not.2 hne
  cases b <;> exact hd

/-- A new child loses no child, and is where its bit leads. -/
theorem toNewChild_walk {s : State} {nd : Node} {b : Bool} {n : Idx} (hi : s.arena[s.cur.val]? = some nd)
    (hb : nd.child b = none) :
    KeepsChildren s.arena (s.toNewChild nd b n).arena ∧
      walk (s.toNewChild nd b n).arena (some s.cur) [b] = some n := by
  have hi' : (s.arena ++ [bareNode])[s.cur.val]? = some nd := getElem?_append_singleton_eq_some.2 (.inl hi)
  have hset := keepsChildren_set hi' fun d c => Node.child_setChild hb (some n) (d := d) (c := c)
  constructor
  · intro i x d c hx hd
    obtain ⟨x', hx', hd'⟩ := keepsChildren_append s.arena bareNode i x d c hx hd
    exact hset i x' d c hx' hd'
  · have hself : (s.toNewChild nd b n).arena[s.cur.val]? = some (nd.setChild b (some n)) := by
      simp only [State.toNewChild, List.getElem?_set_self (List.getElem?_eq_some_iff.1 hi').1]
    rw [walk_cons hself, Node.child_setChild_same, walk_nil]

/-! ### The nodes that LOAD has made -/

/-- LOAD's nodes are reached by distinct paths, all of them among `ws`. -/
def NodesWithin (ws : List Path) (s : State) : Prop :=
  ∃ ps : List Path, ps.Nodup ∧ ps ⊆ ws ∧ ps.length = s.nodeCount ∧ ∀ q ∈ ps, walk s.arena s.root q ≠ none

/-- One more node, at a path where there was none. -/
theorem NodesWithin.grow {ws : List Path} {s t : State} {p : Path} (h : NodesWithin ws s) (hp : p ∈ ws)
    (hnone : walk s.arena s.root p = none) (hcount : t.nodeCount = s.nodeCount + 1)
    (hkeep : ∀ q, walk s.arena s.root q ≠ none → walk t.arena t.root q ≠ none) (hnew : walk t.arena t.root p ≠ none) :
    NodesWithin ws t := by
  obtain ⟨ps, hnd, hsub, hlen, hwalk⟩ := h
  refine ⟨p :: ps, List.nodup_cons.2 ⟨fun hmem => hwalk p hmem hnone, hnd⟩, List.cons_subset.2 ⟨hp, hsub⟩, ?_, ?_⟩
  · rw [List.length_cons, hlen, hcount]
  · exact List.forall_mem_cons.2 ⟨hnew, fun q hq => hkeep q (hwalk q hq)⟩

/-- The same number of nodes, in an arena where every walk that arrived still does. -/
theorem NodesWithin.keep {ws : List Path} {s t : State} (h : NodesWithin ws s) (hcount : t.nodeCount = s.nodeCount)
    (hkeep : ∀ q, walk s.arena s.root q ≠ none → walk t.arena t.root q ≠ none) : NodesWithin ws t := by
  obtain ⟨ps, hnd, hsub, hlen, hwalk⟩ := h
  exact ⟨ps, hnd, hsub, hlen.trans hcount.symm, fun q hq => hkeep q (hwalk q hq)⟩

/-- A path of `ws` that leads to no node leaves room for one. -/
theorem NodesWithin.nodeCount_lt {ws : List Path} {s : State} {p : Path} (h : NodesWithin ws s) (hp : p ∈ ws)
    (hnone : walk s.arena s.root p = none) : s.nodeCount < ws.length := by
  obtain ⟨ps, hnd, hsub, hlen, hwalk⟩ := h
  have hnd' : (p :: ps).Nodup := List.nodup_cons.2 ⟨fun hmem => hwalk p hmem hnone, hnd⟩
  have hle := (List.subperm_of_subset hnd' (List.cons_subset.2 ⟨hp, hsub⟩)).length_le
  rw [List.length_cons, hlen] at hle
  exact hle

theorem walk_ne_none_of_keepsChildren {arena arena' : List Node} (h : KeepsChildren arena arena') {l : Link} {p : Path}
    (hw : walk arena l p ≠ none) : walk arena' l p ≠ none := by
  obtain ⟨k, hk⟩ := Option.ne_none_iff_exists'.1 hw
  rw [walk_of_keepsChildren h hk]
  simp

/-! ### A path line -/

/-- LOAD stands in a path line, at the end of the path `p` read so far. -/
structure OnPath (ws : List Path) (p : Path) (s : State) : Prop where
  inv : s.Inv
  mode : s.mode = .busy .loadPath
  here : walk s.arena s.root p = some s.cur
  within : NodesWithin ws s

/-- A path line starts at the root, which is there or has the arena's first entry (R126). -/
theorem startPath_onPath {ws : List Path} {s : State} (hrun : s.Running) (ho : parentsFirst s.arena)
    (hv : s.val.toNat ≤ 255) (hw : NodesWithin ws s) (hnil : [] ∈ ws) :
    ∃ t, s.startPath = .ok t ∧ OnPath ws [] t ∧ t.tblSrc = s.tblSrc := by
  obtain ⟨t, ht, hinv⟩ := startPath_inv hrun ho hv
  refine ⟨t, ht, ?_⟩
  cases hr : s.root with
  | some r =>
    cases (startPath_of_root hr).symm.trans ht
    exact ⟨⟨hinv, rfl, (walk_nil ..).trans hr, hw.keep rfl fun _ => id⟩, rfl⟩
  | none =>
    have hcap : s.arena.length < Config.nodeCap := by simp [arenaInv_empty hrun.arena hr]
    cases (startPath_of_no_root hr hcap).symm.trans ht
    have hgrow := hw.grow (t := { s with
      arena := s.arena ++ [bareNode], root := some ⟨s.arena.length, hcap⟩, cur := ⟨s.arena.length, hcap⟩
      mode := .busy .loadPath }) hnil (by rw [hr, walk_nil]) (by simp [State.nodeCount])
      (fun q hq => absurd (by rw [hr, walk_none]) hq) (by simp)
    exact ⟨⟨hinv, rfl, walk_nil .., hgrow⟩, rfl⟩

/-- A path character whose path is one of `ws` finds its node, or a free entry for it (R126). -/
theorem OnPath.loadStep {ws : List Path} {p : Path} {s : State} (h : OnPath ws p s) (hws : ws.length ≤ Config.nodeCap)
    {b : Bool} (hp : p ++ [b] ∈ ws) (c : Byte) :
    ∃ t, s.loadStep b c = .ok t ∧ OnPath ws (p ++ [b]) t ∧ t.tblSrc = s.tblSrc := by
  obtain ⟨hinv, hm, hcur, hw⟩ := h
  obtain ⟨-, hlt, -⟩ := (pointOk_loadPath hm).1 (pointOk_of_inv hinv)
  obtain ⟨t, ht, htinv⟩ := loadStep_inv hinv hm b c
  refine ⟨t, ht, ?_⟩
  have hnd := readNode_of_lt hlt
  have hstep : walk s.arena s.root (p ++ [b]) = s.arena[s.cur.val].child b := by
    rw [walk_append, hcur, walk_cons (readNode_eq_ok.1 hnd), walk_nil]
  cases hb : s.arena[s.cur.val].child b with
  | some n =>
    cases (loadStep_of_child hnd hb c).symm.trans ht
    exact ⟨⟨htinv, hm, hstep.trans hb, hw.keep rfl fun _ => id⟩, rfl⟩
  | none =>
    have hnone := hstep.trans hb
    have hcap : s.arena.length < Config.nodeCap := (hw.nodeCount_lt hp hnone).trans_le hws
    cases (loadStep_of_nil hnd hb hcap c).symm.trans ht
    obtain ⟨hkeep, hnew⟩ := toNewChild_walk (n := ⟨s.arena.length, hcap⟩) (readNode_eq_ok.1 hnd) hb
    have hhere : walk (s.toNewChild s.arena[s.cur.val] b ⟨s.arena.length, hcap⟩).arena s.root (p ++ [b]) =
        some ⟨s.arena.length, hcap⟩ := by
      rw [walk_append, walk_of_keepsChildren hkeep hcur, hnew]
    refine ⟨⟨htinv, hm, hhere, hw.grow hp hnone ?_ (fun q => walk_ne_none_of_keepsChildren hkeep) ?_⟩, rfl⟩
    · simp [State.toNewChild, State.nodeCount]
    · exact fun h => by cases hhere.symm.trans h

/-- The line feed of a path line makes no node and loses none (R126). -/
theorem OnPath.placeLeaf {ws : List Path} {p : Path} {s : State} (h : OnPath ws p s) :
    ∃ t, s.placeLeaf = .ok t ∧ t.Inv ∧ t.mode = .busy .loadPair ∧ NodesWithin ws t ∧ t.tblSrc = s.tblSrc := by
  obtain ⟨hinv, hm, -, hw⟩ := h
  obtain ⟨-, hlt, -⟩ := (pointOk_loadPath hm).1 (pointOk_of_inv hinv)
  obtain ⟨t, ht, htinv⟩ := placeLeaf_inv hinv hm
  refine ⟨t, ht, htinv, ?_⟩
  obtain ⟨nd, hnd, heq⟩ := bind_eq_ok.1 ht
  cases heq
  have hkeep : KeepsChildren s.arena (s.arena.set s.cur.val { nd with sym := .symbol (s.val.setWidth 8) }) :=
    keepsChildren_set (readNode_eq_ok.1 hnd) fun _ _ => id
  exact ⟨rfl, hw.keep (List.length_set ..) fun q => walk_ne_none_of_keepsChildren hkeep, rfl⟩

/-! ### Bytes in a row -/

/-- LOAD has consumed its input up to `cs`. -/
def State.bytesLeft (s : State) (cs : List Byte) : State := { s with tblSrc := { s.tblSrc with units := cs } }

/-- One byte of LOAD that answers. -/
theorem loadBytes_step {s t : State} {c : Byte} {cs : List Byte} (hl : s.loading = true)
    (h : (s.bytesLeft cs).loadByte c = .ok t) : loadBytes (c :: cs) s = loadBytes cs t :=
  (loadBytes_cons hl c cs).trans (congrArg (· >>= loadBytes cs) h)

theorem loadByte_of_loadPath {s : State} (h : s.mode = .busy .loadPath) (c : Byte) : s.loadByte c = s.loadPathByte c := by
  simp only [State.loadByte, h]

theorem loadByte_of_loadSym {s : State} (h : s.mode = .busy .loadSym) (c : Byte) : s.loadByte c = s.loadSymByte c := by
  simp only [State.loadByte, h]

theorem loadByte_of_loadPair {s : State} (h : s.mode = .busy .loadPair) (c : Byte) :
    s.loadByte c = { s with val := 0, ndig := 0 }.loadSymByte c := by
  simp only [State.loadByte, h]

/-- LOAD reads `text` and goes on with the bytes behind it from `t`, at a pair boundary. -/
structure ReadsTo (ws : List Path) (s : State) (text rest : List Byte) (t : State) : Prop where
  run : loadBytes (text ++ rest) s = loadBytes rest t
  inv : t.Inv
  mode : t.mode = .busy .loadPair
  within : NodesWithin ws t
  tblSrc : t.tblSrc = ⟨rest, s.tblSrc.ended⟩

/-- The rest of a path line whose path has its prefixes among `ws` (R126). -/
theorem OnPath.readsTo {ws : List Path} {q p : Path} {s : State} (h : OnPath ws p s) (hws : ws.length ≤ Config.nodeCap)
    (hp : ∀ pre, pre <+: p ++ q → pre ∈ ws) (rest : List Byte) : ∃ t, ReadsTo ws s (q.map pathChar ++ [LF]) rest t := by
  have hl : s.loading = true := (loading_of_busy h.mode).2 rfl
  have hon : ∀ cs, OnPath ws p (s.bytesLeft cs) := fun _ => ⟨h.inv, h.mode, h.here, h.within⟩
  induction q generalizing p s with
  | nil =>
    obtain ⟨t, ht, htinv, hm, hw, hsrc⟩ := (hon rest).placeLeaf
    have hbyte := (loadByte_of_loadPath (hon rest).mode LF).trans ((loadPathByte_LF _).trans ht)
    exact ⟨t, loadBytes_step hl hbyte, htinv, hm, hw, hsrc⟩
  | cons b q ih =>
    have hb : p ++ [b] ∈ ws := hp _ ⟨q, by simp⟩
    have hstart := hon (q.map pathChar ++ [LF] ++ rest)
    obtain ⟨u, hu, hu_on, husrc⟩ := hstart.loadStep hws hb (pathChar b)
    obtain ⟨t, hrun, htinv, hm, hw, hsrc⟩ := ih hu_on (fun pre hpre => hp pre (by simpa using hpre))
      ((loading_of_busy hu_on.mode).2 rfl) fun _ => ⟨hu_on.inv, hu_on.mode, hu_on.here, hu_on.within⟩
    have hbyte := (loadByte_of_loadPath hstart.mode (pathChar b)).trans ((loadPathByte_pathChar _ b).trans hu)
    exact ⟨t, (loadBytes_step hl hbyte).trans hrun, htinv, hm, hw, by rw [hsrc, husrc]; rfl⟩

end Sys2Proof.Machine
end

section
/-! PROOFS. O12: a symbol line, the lines of a table one after the other, and the split of LOAD's text. -/

namespace Sys2Proof.Machine

open Sys2Proof Host

/-! ### A symbol line -/

/-- One digit more in a value of up to two digits (R79). -/
theorem addDigit_toNat {v : BitVec 10} {c : Byte} (hv : v.toNat < 100) (hc : isDigit c = true) :
    (addDigit v c).toNat = v.toNat * 10 + (c.toNat - digit0.toNat) := by
  obtain ⟨h0, h9⟩ : 48 ≤ c.toNat ∧ c.toNat ≤ 57 := by simpa [isDigit, BitVec.le_def] using hc
  have hd : ((c - digit0).setWidth 10).toNat = c.toNat - 48 := by
    simp [BitVec.toNat_sub]
    omega
  have hmul : (v * 10#10).toNat = v.toNat * 10 := by
    rw [BitVec.toNat_mul]
    exact Nat.mod_eq_of_lt (by simp; omega)
  rw [addDigit, BitVec.toNat_add, hmul, hd]
  exact Nat.mod_eq_of_lt (by omega)

/-- The digits of a symbol line, up to three of them, leave their value and their number (R79, R125). -/
theorem loadBytes_digits {ds : List Byte} {s : State} (hm : s.mode = .busy .loadSym) (hd : ∀ d ∈ ds, isDigit d = true)
    (hn : s.ndig.toNat + ds.length ≤ 3) (hv : s.val.toNat < 10 ^ s.ndig.toNat) {rest : List Byte}
    (hs : s.tblSrc.units = ds ++ rest) :
    ∃ v n, loadBytes (ds ++ rest) s = loadBytes rest { s with val := v, ndig := n, tblSrc := ⟨rest, s.tblSrc.ended⟩ } ∧
      v.toNat = ds.foldl (fun v c => v * 10 + (c.toNat - digit0.toNat)) s.val.toNat ∧
      n.toNat = s.ndig.toNat + ds.length := by
  induction ds generalizing s with
  | nil =>
    refine ⟨s.val, s.ndig, ?_, rfl, rfl⟩
    rw [show rest = s.tblSrc.units from hs.symm]
    rfl
  | cons d ds ih =>
    obtain ⟨hd0, hds⟩ := List.forall_mem_cons.1 hd
    rw [List.length_cons] at hn
    have hn3 : s.ndig ≠ 3#2 := fun h => by simp [h] at hn
    have hsucc : (s.ndig + 1).toNat = s.ndig.toNat + 1 := by
      rw [BitVec.toNat_add]
      exact Nat.mod_eq_of_lt (by simp; omega)
    have hval : (addDigit s.val d).toNat = s.val.toNat * 10 + (d.toNat - digit0.toNat) :=
      addDigit_toNat (hv.trans_le (Nat.pow_le_pow_right (n := 10) (by decide) (by omega : s.ndig.toNat ≤ 2))) hd0
    have hbyte : (s.bytesLeft (ds ++ rest)).loadByte d = .ok { s.bytesLeft (ds ++ rest) with
        val := addDigit s.val d, ndig := s.ndig + 1, mode := .busy .loadSym } :=
      (loadByte_of_loadSym (s := s.bytesLeft (ds ++ rest)) hm d).trans (loadSymByte_digit hd0 hn3)
    obtain ⟨v, n, hrun, hv', hn'⟩ := ih (s := { s.bytesLeft (ds ++ rest) with
      val := addDigit s.val d, ndig := s.ndig + 1, mode := .busy .loadSym }) rfl hds (by simp only [hsucc]; omega)
      (addDigit_lt hv hn3 hd0) rfl
    refine ⟨v, n, ?_, ?_, ?_⟩
    · refine (loadBytes_step ((loading_of_busy hm).2 rfl) hbyte).trans (hrun.trans ?_)
      rw [← hm]
      rfl
    · rw [hv', hval, List.foldl_cons]
    · rw [hn', hsucc, List.length_cons]
      omega

/-- A symbol line is read the same wherever its bytes are looked at. -/
theorem loadSymByte_mode (s : State) (m : Mode) (c : Byte) : { s with mode := m }.loadSymByte c = s.loadSymByte c := by
  have hstart : { s with mode := m }.startPath = s.startPath := by
    obtain hr | ⟨r, hr⟩ := Option.eq_none_or_eq_some s.root
    · by_cases hcap : s.arena.length < Config.nodeCap
      · rw [startPath_of_no_root hr hcap, startPath_of_no_root (s := { s with mode := m }) hr hcap]
      · rw [startPath_of_full hr hcap, startPath_of_full (s := { s with mode := m }) hr hcap]
    · rw [startPath_of_root hr, startPath_of_root (s := { s with mode := m }) hr]
  unfold State.loadSymByte
  rw [hstart]
  rfl

/-- At a pair boundary the first byte opens a symbol line (R124). -/
theorem loadBytes_of_loadPair {s : State} (hm : s.mode = .busy .loadPair) (c : Byte) (cs : List Byte) :
    loadBytes (c :: cs) s =
      loadBytes (c :: cs) { s.bytesLeft (c :: cs) with val := 0, ndig := 0, mode := .busy .loadSym } := by
  have hbyte : (s.bytesLeft cs).loadByte c =
      State.loadByte { s.bytesLeft cs with val := 0, ndig := 0, mode := .busy .loadSym } c :=
    (loadByte_of_loadPair (s := s.bytesLeft cs) hm c).trans
      (loadSymByte_mode { s.bytesLeft cs with val := 0, ndig := 0 } (.busy .loadSym) c).symm
  rw [loadBytes_cons ((loading_of_busy hm).2 rfl), loadBytes_cons (s := { s.bytesLeft (c :: cs) with
    val := 0, ndig := 0, mode := .busy .loadSym }) rfl]
  exact congrArg (· >>= loadBytes cs) hbyte

/-- A symbol line that holds a symbol ends at the start of a path line (R125). -/
theorem loadBytes_symbolLine {ds : List Byte} {s : State} (hm : s.mode = .busy .loadPair) (hds : isNumeral ds)
    (rest : List Byte) :
    ∃ v n, v.toNat = decValue ds ∧ loadBytes (ds ++ LF :: rest) s =
      (State.startPath { s.bytesLeft rest with val := v, ndig := n, mode := .busy .loadSym } >>= loadBytes rest) := by
  obtain ⟨hd, h1, h3, hval⟩ := hds
  cases ds with
  | nil => simp at h1
  | cons d ds =>
    obtain ⟨v, n, hrun, hv, hn⟩ := loadBytes_digits
      (s := { s.bytesLeft (d :: ds ++ LF :: rest) with val := 0, ndig := 0, mode := .busy .loadSym }) (rest := LF :: rest)
      rfl hd (by simpa using h3) (by simp) rfl
    have hv' : v.toNat = decValue (d :: ds) := hv
    have hend : ¬ (n = 0 ∨ 255#10 < v) := by
      rintro (h | h)
      · simp [h] at hn
      · rw [BitVec.lt_def] at h
        simp at h
        omega
    refine ⟨v, n, hv', ((loadBytes_of_loadPair hm d (ds ++ LF :: rest)).trans hrun).trans ?_⟩
    rw [loadBytes_cons rfl]
    exact congrArg (· >>= loadBytes rest) ((loadByte_of_loadSym rfl LF).trans (loadSymByte_LF hend))

/-! ### The lines of a table -/

/-- A pair whose path has its prefixes among `ws` (R124). -/
theorem line_readsTo {ws : List Path} {s : State} {q : List Byte × Path} (hinv : s.Inv) (hm : s.mode = .busy .loadPair)
    (hw : NodesWithin ws s) (hws : ws.length ≤ Config.nodeCap) (hq : isNumeral q.1) (hp : ∀ pre, pre <+: q.2 → pre ∈ ws)
    (rest : List Byte) : ∃ t, ReadsTo ws s (lineText q) rest t := by
  obtain ⟨v, n, hv, hrun⟩ := loadBytes_symbolLine hm hq (q.2.map pathChar ++ [LF] ++ rest)
  obtain ⟨-, -, -, hval⟩ := hq
  obtain ⟨u, hu, hon, husrc⟩ := startPath_onPath (ws := ws)
    (s := { s.bytesLeft (q.2.map pathChar ++ [LF] ++ rest) with val := v, ndig := n, mode := .busy .loadSym })
    (running_of_inv hinv (by simp [hm]) :) ((pointOk_loadPair hm).1 (pointOk_of_inv hinv)) (hv.trans_le hval) hw
    (hp [] (List.nil_prefix ..))
  obtain ⟨t, ht, htinv, htm, htw, htsrc⟩ := hon.readsTo hws hp rest
  refine ⟨t, ?_, htinv, htm, htw, by rw [htsrc, husrc]; rfl⟩
  have htext : lineText q ++ rest = q.1 ++ LF :: (q.2.map pathChar ++ [LF] ++ rest) := by simp [lineText]
  rw [htext, hrun, hu, ok_bind, ht]

/-- Pairs whose paths have their prefixes among `ws`, one after the other (R124). -/
theorem lines_readTo {ws : List Path} {lines : List (List Byte × Path)} {s : State} (hinv : s.Inv)
    (hm : s.mode = .busy .loadPair) (hw : NodesWithin ws s) (hws : ws.length ≤ Config.nodeCap)
    (hq : ∀ q ∈ lines, isNumeral q.1) (hp : ∀ q ∈ lines, ∀ pre, pre <+: q.2 → pre ∈ ws) {rest : List Byte}
    (hs : s.tblSrc.units = lines.flatMap lineText ++ rest) : ∃ t, ReadsTo ws s (lines.flatMap lineText) rest t := by
  induction lines generalizing s with
  | nil => exact ⟨s, rfl, hinv, hm, hw, by rw [show rest = s.tblSrc.units from hs.symm]⟩
  | cons q lines ih =>
    obtain ⟨hq0, hqs⟩ := List.forall_mem_cons.1 hq
    obtain ⟨hp0, hps⟩ := List.forall_mem_cons.1 hp
    obtain ⟨u, hu⟩ := line_readsTo hinv hm hw hws hq0 hp0 (lines.flatMap lineText ++ rest)
    obtain ⟨t, ht⟩ := ih hu.inv hu.mode hu.within hqs hps (by rw [hu.tblSrc])
    refine ⟨t, ?_, ht.inv, ht.mode, ht.within, by rw [ht.tblSrc, hu.tblSrc]⟩
    rw [List.flatMap_cons, List.append_assoc, hu.run, ht.run]

/-- The prefixes of a line's path are paths that LOAD makes a node for. -/
theorem mem_nodePaths {lines : List (List Byte × Path)} {p : Path} :
    p ∈ nodePaths lines ↔ ∃ q ∈ lines, p <+: q.2 := by
  simp [nodePaths]

theorem loadBody_of_no_root {s : State} (hr : s.root = none) :
    s.loadBody = State.loadRun { s with mode := .busy .loadPair } := by
  simp only [State.loadBody, hr]

/-- LOAD in IDLE that waits goes on as if all of the text had been there before. -/
theorem loadBody_split {s t : State} {p : Point} (h : s.loadBody = .ok t) (ht : t.mode = .busy p) :
    t.tblSrc = ⟨[], false⟩ ∧
    ∀ b e, State.resume { t with tblSrc := ⟨b, e⟩ } = State.loadBody { s with tblSrc := ⟨s.tblSrc.units ++ b, e⟩ } := by
  obtain hr | ⟨r, hr⟩ := Option.eq_none_or_eq_some s.root
  · rw [loadBody_of_no_root hr] at h
    obtain ⟨hl, hsrc, hsplit⟩ := loadBytes_wait (s := { s with mode := .busy .loadPair }) rfl rfl h ht
    refine ⟨hsrc, fun b e => ?_⟩
    rw [resume_of_loading (s := { t with tblSrc := ⟨b, e⟩ }) hl]
    exact (hsplit b e).trans (loadBody_of_no_root (s := { s with tblSrc := ⟨s.tblSrc.units ++ b, e⟩ }) hr).symm
  · simp only [State.loadBody, hr] at h
    cases h
    cases ht

/-- Settles O12: the split of a wait, and whole pairs, which leave LOAD at a pair boundary. -/
theorem loadOfASplitStream : Obligations.LoadOfASplitStream := by
  refine ⟨fun s t a b e p hm hs h ht => ?_, fun s lines hinv hm hr hq hcap hsrc => ?_⟩
  · replace h : State.loadBody { s with tblSrc := ⟨a, false⟩ } = .ok t :=
      toOutcome_eq_next.1 ((exec_of_idle (s := { s with tblSrc := ⟨a, false⟩ }) hm .load).symm.trans h)
    obtain ⟨hconsumed, hsplit⟩ := loadBody_split h ht
    refine ⟨hconsumed, ?_⟩
    have hq : State.quiet { t with tblSrc := ⟨b, e⟩ } :=
      quiet_of_script_nil (s := { t with tblSrc := ⟨b, e⟩ }) (by rw [(loadBody_frame h).1]; exact hs)
    rw [step_of_quiet hq, hsplit, exec_of_idle (s := { s with tblSrc := ⟨a ++ b, e⟩ }) hm]
    rfl
  · obtain ⟨hunits, hended⟩ : s.tblSrc.units = lines.flatMap lineText ++ [] ∧ s.tblSrc.ended = false := by
      rw [hsrc]
      simp
    have hrun := running_of_inv hinv (by simp [hm])
    have hempty : s.arena = [] := arenaInv_empty hrun.arena hr
    have hstart : State.Inv { s with mode := .busy .loadPair } :=
      State.Running.inv (s := { s with mode := .busy .loadPair }) hrun (by simp)
        ((pointOk_loadPair rfl).2 (by simp [hempty, parentsFirst]))
    have hnone : NodesWithin (nodePaths lines) { s with mode := .busy .loadPair } :=
      ⟨[], List.nodup_nil, List.nil_subset _, by simp [State.nodeCount, hempty], by simp⟩
    obtain ⟨t, ht⟩ := lines_readTo hstart rfl hnone hcap hq (fun q hq pre hpre => mem_nodePaths.2 ⟨q, hq, hpre⟩) hunits
    have hbody : s.loadBody = .ok t := by
      rw [loadBody_of_no_root hr, State.loadRun, hunits, ht.run, loadBytes_nil, State.loadEnd, ht.tblSrc]
      simp [hended]
    obtain ⟨-, -, herr, hinfo, -⟩ := hrun
    obtain ⟨-, -, hterr, htinfo, -⟩ := running_of_inv ht.inv (by simp [ht.mode])
    refine ⟨t, (exec_of_idle hm .load).trans (congrArg toOutcome hbody), ?_⟩
    simpa only [ht.mode, ht.tblSrc, hended, hterr, herr, htinfo, hinfo] using (loadBody_frame hbody).1

end Sys2Proof.Machine
end

section
/-! PROOFS. O43, the nodes: LOAD's arena is the trie of the paths read so far, its entries in the order in which their paths
first came up, each with the symbol placed there last. -/

namespace Sys2Proof.Machine

open Sys2Proof Host

/-! ### The symbols that pairs place -/

theorem placedAt_append_same (lines : List (List Byte × Path)) (ds : List Byte) (p : Path) :
    placedAt (lines ++ [(ds, p)]) p = .symbol (BitVec.ofNat 8 (decValue ds)) := by
  simp [placedAt]

theorem placedAt_append_of_ne (lines : List (List Byte × Path)) (ds : List Byte) {p q : Path} (h : q ≠ p) :
    placedAt (lines ++ [(ds, p)]) q = placedAt lines q := by
  simp [placedAt, h.symm]

/-- A path that is a beginning of no pair's path holds no symbol. -/
theorem placedAt_of_notMem {lines : List (List Byte × Path)} {p : Path} (h : p ∉ nodePaths lines) :
    placedAt lines p = .sentinel := by
  have hnone : lines.reverse.find? (fun q => q.2 == p) = none := by
    refine List.find?_eq_none.2 fun q hq heq => h (mem_nodePaths.2 ⟨q, List.mem_reverse.1 hq, ?_⟩)
    rw [eq_of_beq heq]
  simp only [placedAt, hnone]

/-- More lines ask for no node less. -/
theorem nodePaths_subset_append (lines more : List (List Byte × Path)) : nodePaths lines ⊆ nodePaths (lines ++ more) :=
  fun _ hp => by
    obtain ⟨q, hq, hpq⟩ := mem_nodePaths.1 hp
    exact mem_nodePaths.2 ⟨q, List.mem_append_left more hq, hpq⟩

/-- One step further on a line's path asks for one node more. -/
theorem mem_nodePaths_concat {lines : List (List Byte × Path)} {ds : List Byte} {p q : Path} {b : Bool} :
    q ∈ nodePaths (lines ++ [(ds, p ++ [b])]) ↔ q ∈ nodePaths (lines ++ [(ds, p)]) ∨ q = p ++ [b] := by
  simp only [mem_nodePaths, List.mem_append, List.mem_singleton, or_and_right, exists_or, exists_eq_left,
    List.prefix_concat_iff]
  rw [or_comm (a := q = p ++ [b]), or_assoc]

/-! ### The trie of a list of paths -/

/-- The `i`-th entry is the one that the `i`-th path leads to, no path outside the list leads anywhere, and each entry holds
what `lines` place at its path. -/
structure Trie (ps : List Path) (lines : List (List Byte × Path)) (s : State) : Prop where
  nodup : ps.Nodup
  count : s.nodeCount = ps.length
  entry : ∀ (p : Path) (i : Idx), walk s.arena s.root p = some i ↔ ps[i.val]? = some p
  placed : ∀ (p : Path) (i : Idx) (nd : Node), walk s.arena s.root p = some i → s.arena[i.val]? = some nd →
    nd.sym = placedAt lines p

theorem Trie.empty {s : State} (ha : s.arena = []) (hr : s.root = none) : Trie [] [] s where
  nodup := List.nodup_nil
  count := by simp [State.nodeCount, ha]
  entry := by simp [hr]
  placed := by simp [hr]

theorem Trie.idx_lt {ps : List Path} {lines : List (List Byte × Path)} {s : State} (h : Trie ps lines s) {p : Path} {i : Idx}
    (hw : walk s.arena s.root p = some i) : i.val < s.arena.length := by
  obtain ⟨hi, -⟩ := List.getElem?_eq_some_iff.1 ((h.entry p i).1 hw)
  exact hi.trans_eq h.count.symm

/-- Two paths do not lead to one entry. -/
theorem Trie.path_unique {ps : List Path} {lines : List (List Byte × Path)} {s : State} (h : Trie ps lines s) {p q : Path}
    {i : Idx} (hp : walk s.arena s.root p = some i) (hq : walk s.arena s.root q = some i) : q = p :=
  Option.some.inj (((h.entry q i).1 hq).symm.trans ((h.entry p i).1 hp))

/-- The paths that lead to an entry are those of the list, in an arena that fits its capacity. -/
theorem Trie.walk_isSome_iff {ps : List Path} {lines : List (List Byte × Path)} {s : State} (h : Trie ps lines s)
    (hcap : s.nodeCount ≤ Config.nodeCap) {p : Path} : (walk s.arena s.root p).isSome = true ↔ p ∈ ps := by
  constructor
  · intro hw
    obtain ⟨i, hi⟩ := Option.isSome_iff_exists.1 hw
    exact List.mem_of_getElem? ((h.entry p i).1 hi)
  · intro hp
    obtain ⟨i, hi⟩ := List.mem_iff_getElem?.1 hp
    have hlt : i < Config.nodeCap :=
      ((List.getElem?_eq_some_iff.1 hi).1.trans_eq h.count.symm).trans_le hcap
    exact Option.isSome_iff_exists.2 ⟨⟨i, hlt⟩, (h.entry p ⟨i, hlt⟩).2 hi⟩

/-- A node has the child under a bit exactly where the list goes on with that bit. -/
theorem Trie.child_isSome_iff {ps : List Path} {lines : List (List Byte × Path)} {s : State} (h : Trie ps lines s)
    (hcap : s.nodeCount ≤ Config.nodeCap) {p : Path} {i : Idx} (hp : walk s.arena s.root p = some i) {nd : Node}
    (hnd : s.arena[i.val]? = some nd) (b : Bool) : (nd.child b).isSome = true ↔ p ++ [b] ∈ ps := by
  rw [← h.walk_isSome_iff hcap, walk_append, hp, walk_cons hnd, walk_nil]

/-- A trie is read off the root and the arena. -/
theorem Trie.congr {ps : List Path} {lines : List (List Byte × Path)} {s t : State} (h : Trie ps lines s)
    (hr : t.root = s.root) (ha : t.arena = s.arena) : Trie ps lines t where
  nodup := h.nodup
  count := (congrArg List.length ha).trans h.count
  entry := by rw [hr, ha]; exact h.entry
  placed := by rw [hr, ha]; exact h.placed

/-! ### The line feed writes a `sym` -/

/-- A walk reads no `sym`. -/
theorem walk_set_sym {arena : List Node} {i : Nat} {nd : Node} (hi : arena[i]? = some nd) (x : NodeSym) (l : Link)
    (p : Path) : walk (arena.set i { nd with sym := x }) l p = walk arena l p := by
  have hself : (arena.set i { nd with sym := x })[i]? = some { nd with sym := x } :=
    List.getElem?_set_self (List.getElem?_eq_some_iff.1 hi).1
  induction p generalizing l with
  | nil => simp
  | cons b p ih =>
    cases l with
    | none => simp
    | some j =>
      by_cases hij : i = j.val
      · subst hij
        rw [walk_cons hi, walk_cons hself, ih]
        rfl
      · simp only [walk, List.getElem?_set_ne hij, ih]

/-- The symbol is placed at the path of the current node, and nowhere else. -/
theorem Trie.set_sym {ps : List Path} {lines : List (List Byte × Path)} {s t : State} (h : Trie ps lines s) {p : Path}
    (hp : walk s.arena s.root p = some s.cur) {nd : Node} (hnd : s.arena[s.cur.val]? = some nd) (ds : List Byte)
    (hr : t.root = s.root)
    (ha : t.arena = s.arena.set s.cur.val { nd with sym := .symbol (BitVec.ofNat 8 (decValue ds)) }) :
    Trie ps (lines ++ [(ds, p)]) t := by
  have hwalk : ∀ q, walk t.arena t.root q = walk s.arena s.root q := fun q => by rw [hr, ha, walk_set_sym hnd]
  refine ⟨h.nodup, ?_, fun q i => by rw [hwalk, h.entry], fun q i x hq hx => ?_⟩
  · rw [← h.count, State.nodeCount, ha, List.length_set]
  · rw [hwalk] at hq
    rw [ha] at hx
    by_cases hi : s.cur = i
    · subst hi
      rw [List.getElem?_set_self (h.idx_lt hp)] at hx
      cases hx
      rw [h.path_unique hp hq, placedAt_append_same]
    · rw [List.getElem?_set_ne (Fin.val_ne_of_ne hi)] at hx
      have hne : q ≠ p := by
        rintro rfl
        exact hi (Option.some.inj (hp.symm.trans hq))
      rw [placedAt_append_of_ne lines ds hne]
      exact h.placed q i x hq hx

/-! ### A new child -/

theorem toNewChild_getElem? {s : State} {nd : Node} {b : Bool} {n : Idx} (hlt : s.cur.val < s.arena.length) (i : Nat) :
    (s.toNewChild nd b n).arena[i]? =
      if s.cur.val = i then some (nd.setChild b (some n)) else (s.arena ++ [bareNode])[i]? := by
  have hlt' : s.cur.val < (s.arena ++ [bareNode]).length := by
    rw [List.length_append]
    exact Nat.lt_add_right _ hlt
  by_cases hi : s.cur.val = i
  · subst hi
    rw [if_pos rfl]
    exact List.getElem?_set_self hlt'
  · rw [if_neg hi]
    exact List.getElem?_set_ne hi

/-- Beside the new child, the children are those that were there. -/
theorem toNewChild_child {s : State} {nd : Node} {b : Bool} {n : Idx} (hnd : s.arena[s.cur.val]? = some nd) {i : Nat}
    {x : Node} {d : Bool} {c : Idx} (hx : (s.toNewChild nd b n).arena[i]? = some x) (hc : x.child d = some c) :
    (∃ x', s.arena[i]? = some x' ∧ x'.child d = some c) ∨ (i = s.cur.val ∧ d = b ∧ c = n) := by
  rw [toNewChild_getElem? (List.getElem?_eq_some_iff.1 hnd).1] at hx
  split at hx
  next hi =>
    subst hi
    cases hx
    by_cases hd : d = b
    · subst hd
      rw [Node.child_setChild_same] at hc
      exact .inr ⟨rfl, rfl, (Option.some.inj hc).symm⟩
    · obtain rfl : d = !b := Bool.eq_not.2 hd
      exact .inl ⟨nd, hnd, by cases b <;> exact hc⟩
  next =>
    obtain hx | ⟨-, rfl⟩ := getElem?_append_singleton_eq_some.1 hx
    · exact .inl ⟨x, hx, hc⟩
    · cases d <;> cases hc

/-- A walk of the last step of a path. -/
theorem walk_concat_eq_some {arena : List Node} {l : Link} {p : Path} {b : Bool} {i : Idx} :
    walk arena l (p ++ [b]) = some i ↔
      ∃ (j : Idx) (nd : Node), walk arena l p = some j ∧ arena[j.val]? = some nd ∧ nd.child b = some i := by
  rw [walk_append]
  cases hl : walk arena l p with
  | none => simp
  | some j => cases hj : arena[j.val]? <;> simp [walk, hj]

/-- A new child makes one walk more, which leads to it. -/
theorem Trie.walk_toNewChild_iff {ps : List Path} {lines : List (List Byte × Path)} {s : State} (h : Trie ps lines s)
    {p : Path} (hp : walk s.arena s.root p = some s.cur) {nd : Node} (hnd : s.arena[s.cur.val]? = some nd) {b : Bool}
    (hb : nd.child b = none) {n : Idx} (hn : n.val = s.arena.length) {q : Path} {i : Idx} :
    walk (s.toNewChild nd b n).arena s.root q = some i ↔
      walk s.arena s.root q = some i ∨ (q = p ++ [b] ∧ i = n) := by
  obtain ⟨hkeep, hnew⟩ := toNewChild_walk (n := n) hnd hb
  constructor
  · induction q using List.reverseRecOn generalizing i with
    | nil => exact fun hw => .inl (by simpa using hw)
    | append_singleton q d ih =>
      intro hw
      obtain ⟨j, x, hj, hx, hc⟩ := walk_concat_eq_some.1 hw
      obtain hold | ⟨-, rfl⟩ := ih hj
      · obtain ⟨x', hx', hc'⟩ | ⟨hcur, rfl, rfl⟩ := toNewChild_child hnd hx hc
        · exact .inl (walk_concat_eq_some.2 ⟨j, x', hold, hx', hc'⟩)
        · obtain rfl : j = s.cur := Fin.ext hcur
          exact .inr ⟨by rw [h.path_unique hp hold], rfl⟩
      · obtain ⟨x', hx', -⟩ | ⟨hcur, -⟩ := toNewChild_child hnd hx hc
        · exact absurd (List.getElem?_eq_some_iff.1 hx').1 (by omega)
        · have := h.idx_lt hp
          omega
  · rintro (hq | ⟨rfl, rfl⟩)
    · exact walk_of_keepsChildren hkeep hq
    · rw [walk_append, walk_of_keepsChildren hkeep hp, hnew]

/-- A new child is the next entry of the trie, with the next path. -/
theorem Trie.toNewChild {ps : List Path} {lines : List (List Byte × Path)} {s : State} (h : Trie ps lines s)
    {p : Path} (hp : walk s.arena s.root p = some s.cur) {nd : Node} (hnd : s.arena[s.cur.val]? = some nd) {b : Bool}
    (hb : nd.child b = none) {n : Idx} (hn : n.val = s.arena.length) (hsym : placedAt lines (p ++ [b]) = .sentinel) :
    Trie (ps ++ [p ++ [b]]) lines (s.toNewChild nd b n) := by
  have hwalk : ∀ q i, walk (s.toNewChild nd b n).arena (s.toNewChild nd b n).root q = some i ↔ _ :=
    fun q i => h.walk_toNewChild_iff hp hnd hb hn
  have hnone : p ++ [b] ∉ ps := by
    rw [← h.child_isSome_iff (hn ▸ n.isLt.le :) hp hnd, hb]
    exact Bool.false_ne_true
  refine ⟨?_, ?_, fun q i => ?_, fun q i x hq hx => ?_⟩
  · exact List.nodup_append'.2 ⟨h.nodup, List.nodup_singleton _, by simpa using hnone⟩
  · simp [State.nodeCount, State.toNewChild, ← h.count]
  · have hi : i = n ↔ i.val = ps.length := by rw [Fin.ext_iff, hn, ← h.count]
    rw [hwalk, h.entry, hi]
    grind
  · rw [toNewChild_getElem? (h.idx_lt hp)] at hx
    obtain hq | ⟨rfl, rfl⟩ := (hwalk q i).1 hq
    · by_cases hi : s.cur = i
      · subst hi
        cases (if_pos rfl).symm.trans hx
        rw [← h.placed q s.cur nd hq hnd]
        cases b <;> rfl
      · rw [if_neg (Fin.val_ne_of_ne hi), List.getElem?_append_left (h.idx_lt hq)] at hx
        exact h.placed q i x hq hx
    · have hne : s.cur.val ≠ i.val := (hn ▸ h.idx_lt hp).ne
      rw [if_neg hne, hn, List.getElem?_concat_length] at hx
      rw [← Option.some.inj hx, hsym]

end Sys2Proof.Machine
end

section
/-! PROOFS. O43, the lines: the nodes LOAD has made after some pairs and a part of another path line, and the two ends of
LOAD over a table of any shape. -/

namespace Sys2Proof.Machine

open Sys2Proof Host

/-! ### The nodes of some lines -/

/-- LOAD has made exactly the nodes that `all` ask for, and each holds what `lines` place there. -/
def MadeBy (all lines : List (List Byte × Path)) (s : State) : Prop :=
  ∃ ps, Trie ps lines s ∧ ∀ p, p ∈ ps ↔ p ∈ nodePaths all

theorem MadeBy.nodeCount {all lines : List (List Byte × Path)} {s : State} (h : MadeBy all lines s) :
    s.nodeCount = (nodePaths all).length := by
  obtain ⟨ps, ht, hps⟩ := h
  rw [ht.count]
  exact ((List.perm_ext_iff_of_nodup ht.nodup (List.nodup_dedup _)).2 hps).length_eq

theorem MadeBy.walk_isSome_iff {all lines : List (List Byte × Path)} {s : State} (h : MadeBy all lines s)
    (hcap : s.nodeCount ≤ Config.nodeCap) {p : Path} : (walk s.arena s.root p).isSome = true ↔ p ∈ nodePaths all := by
  obtain ⟨ps, ht, hps⟩ := h
  rw [ht.walk_isSome_iff hcap, hps]

/-- Every entry that a path leads to holds what the lines place there. -/
theorem MadeBy.entry {all lines : List (List Byte × Path)} {s : State} (h : MadeBy all lines s) {p : Path} {i : Idx}
    (hw : walk s.arena s.root p = some i) : ∃ nd, s.arena[i.val]? = some nd ∧ nd.sym = placedAt lines p := by
  obtain ⟨ps, ht, -⟩ := h
  have hi := List.getElem?_eq_getElem (ht.idx_lt hw)
  exact ⟨_, hi, ht.placed p i _ hw hi⟩

theorem MadeBy.within {ws : List Path} {all lines : List (List Byte × Path)} {s : State} (h : MadeBy all lines s)
    (hcap : s.nodeCount ≤ Config.nodeCap) (hws : nodePaths all ⊆ ws) : NodesWithin ws s :=
  ⟨nodePaths all, List.nodup_dedup _, hws, h.nodeCount.symm, fun _ hq =>
    Option.isSome_iff_ne_none.1 ((h.walk_isSome_iff hcap).2 hq)⟩

/-- The nodes are read off the root and the arena. -/
theorem MadeBy.congr {all lines : List (List Byte × Path)} {s t : State} (h : MadeBy all lines s) (hr : t.root = s.root)
    (ha : t.arena = s.arena) : MadeBy all lines t := by
  obtain ⟨ps, ht, hps⟩ := h
  exact ⟨ps, ht.congr hr ha, hps⟩

/-! ### Along a line -/

/-- LOAD stands at a pair boundary, after `lines`. -/
structure AtPair (lines : List (List Byte × Path)) (s : State) : Prop where
  inv : s.Inv
  mode : s.mode = .busy .loadPair
  made : MadeBy lines lines s

/-- LOAD stands in a path line, after `lines`, the symbol line `ds` and the path `p`. -/
structure OnLine (ws : List Path) (lines : List (List Byte × Path)) (ds : List Byte) (p : Path) (s : State) : Prop
    extends OnPath ws p s where
  made : MadeBy (lines ++ [(ds, p)]) lines s
  val : s.val.toNat = decValue ds

/-- Where LOAD stands does not depend on the input that is left. -/
theorem OnLine.bytesLeft {ws : List Path} {lines : List (List Byte × Path)} {ds : List Byte} {p : Path} {s : State}
    (h : OnLine ws lines ds p s) (cs : List Byte) : OnLine ws lines ds p (s.bytesLeft cs) :=
  ⟨⟨h.inv, h.mode, h.here, h.within⟩, h.made.congr rfl rfl, h.val⟩

/-- LOAD consumes `text` and goes on with the bytes behind it from `t`. -/
structure Consumes (s : State) (text rest : List Byte) (t : State) : Prop where
  run : loadBytes (text ++ rest) s = loadBytes rest t
  tblSrc : t.tblSrc = ⟨rest, s.tblSrc.ended⟩

theorem Consumes.trans {s u t : State} {a b rest : List Byte} (h : Consumes s a (b ++ rest) u) (h' : Consumes u b rest t) :
    Consumes s (a ++ b) rest t where
  run := by rw [List.append_assoc, h.run, h'.run]
  tblSrc := by rw [h'.tblSrc, h.tblSrc]

/-- One node at the root is the trie of the empty path. -/
theorem Trie.root {lines : List (List Byte × Path)} {s : State} (ha : s.arena = [bareNode]) (hr : s.root = some 0)
    (hsym : placedAt lines [] = .sentinel) : Trie [[]] lines s where
  nodup := List.nodup_singleton _
  count := by simp [State.nodeCount, ha]
  entry p i := by
    rw [hr, ha, List.getElem?_singleton]
    cases p with
    | nil =>
      rw [walk_nil, Option.some.injEq, eq_comm, Fin.ext_iff]
      simp
    | cons b p => cases b <;> simp [walk, Node.child]
  placed p i nd hw hnd := by
    cases p with
    | nil =>
      have hi : (0 : Idx) = i := by simpa [hr] using hw
      subst hi
      have hbare : bareNode = nd := by simpa [ha] using hnd
      rw [← hbare, hsym]
    | cons b p => cases b <;> simp [hr, ha, walk, Node.child] at hw

/-- A path line starts at the root, which is there or is made. -/
theorem startPath_onLine {ws : List Path} {lines : List (List Byte × Path)} {ds : List Byte} {s : State} (hrun : s.Running)
    (ho : parentsFirst s.arena) (hmade : MadeBy lines lines s) (hv : s.val.toNat = decValue ds) (hds : decValue ds ≤ 255)
    (hsub : nodePaths lines ⊆ ws) (hnil : [] ∈ ws) :
    ∃ t, s.startPath = .ok t ∧ OnLine ws lines ds [] t ∧ t.tblSrc = s.tblSrc := by
  have hcount := (arenaInv_linked hrun.arena).cap
  obtain ⟨t, ht, hon, hsrc⟩ := startPath_onPath hrun ho (hv.trans_le hds) (hmade.within hcount hsub) hnil
  obtain ⟨ps, htrie, hps⟩ := hmade
  have hroot : ∀ p, p ∈ nodePaths (lines ++ [(ds, [])]) ↔ p ∈ nodePaths lines ∨ p = [] := fun p => by
    simp only [mem_nodePaths, List.mem_append, List.mem_singleton, or_and_right, exists_or, exists_eq_left, List.prefix_nil]
  cases hr : s.root with
  | some r =>
    cases (startPath_of_root hr).symm.trans ht
    have hmem : [] ∈ nodePaths lines := (hps []).1 (List.mem_of_getElem? ((htrie.entry [] r).1 (by rw [walk_nil, hr])))
    refine ⟨_, ht, ⟨hon, ⟨ps, htrie.congr rfl rfl, fun p => ?_⟩, hv⟩, hsrc⟩
    rw [hps, hroot, or_iff_left_of_imp (by rintro rfl; exact hmem)]
  | none =>
    have ha := arenaInv_empty hrun.arena hr
    cases (startPath_of_no_root hr (by simp [ha])).symm.trans ht
    obtain rfl : ps = [] := List.eq_nil_of_length_eq_zero (by rw [← htrie.count, State.nodeCount, ha]; rfl)
    have hsym : placedAt lines [] = .sentinel := placedAt_of_notMem fun h => by simpa using (hps []).2 h
    refine ⟨_, ht, ⟨hon, ⟨[[]], Trie.root (by simp [ha]) (by simp [ha]) hsym, fun p => ?_⟩, hv⟩, hsrc⟩
    rw [hroot, ← hps]
    simp

/-- A path character whose path is one of `ws` (R126). -/
theorem OnLine.loadStep {ws : List Path} {lines : List (List Byte × Path)} {ds : List Byte} {p : Path} {s : State}
    (h : OnLine ws lines ds p s) (hws : ws.length ≤ Config.nodeCap) {b : Bool} (hp : p ++ [b] ∈ ws) (c : Byte) :
    ∃ t, s.loadStep b c = .ok t ∧ OnLine ws lines ds (p ++ [b]) t ∧ t.tblSrc = s.tblSrc := by
  obtain ⟨t, ht, hon, hsrc⟩ := h.toOnPath.loadStep hws hp c
  obtain ⟨⟨hinv, hm, hcur, -⟩, ⟨ps, htrie, hps⟩, hval⟩ := h
  have hlt := htrie.idx_lt hcur
  have hnd := readNode_of_lt hlt
  have hcap := (arenaInv_linked (running_of_inv hinv (by simp [hm])).arena).cap
  have hchild := htrie.child_isSome_iff hcap hcur (readNode_eq_ok.1 hnd) b
  cases hb : s.arena[s.cur.val].child b with
  | some n =>
    cases (loadStep_of_child hnd hb c).symm.trans ht
    have hmem : p ++ [b] ∈ ps := hchild.1 (by rw [hb]; rfl)
    refine ⟨_, ht, ⟨hon, ⟨ps, htrie.congr rfl rfl, fun q => ?_⟩, hval⟩, hsrc⟩
    rw [mem_nodePaths_concat, ← hps, or_iff_left_of_imp (by rintro rfl; exact hmem)]
  | none =>
    by_cases hfull : s.arena.length < Config.nodeCap
    · cases (loadStep_of_nil hnd hb hfull c).symm.trans ht
      have hnone : p ++ [b] ∉ ps := fun hmem => by simpa [hb] using hchild.2 hmem
      have hsym : placedAt lines (p ++ [b]) = .sentinel :=
        placedAt_of_notMem fun hmem => hnone ((hps _).2 (nodePaths_subset_append lines _ hmem))
      refine ⟨_, ht, ⟨hon, ⟨_, htrie.toNewChild hcur (readNode_eq_ok.1 hnd) hb rfl hsym, fun q => ?_⟩, hval⟩, hsrc⟩
      rw [mem_nodePaths_concat, ← hps, List.mem_append, List.mem_singleton]
    · cases (loadStep_of_full hnd hb hfull c).symm.trans ht
      cases hon.mode

/-- The line feed of a path line places the symbol, and LOAD is at a pair boundary (R126). -/
theorem OnLine.placeLeaf {ws : List Path} {lines : List (List Byte × Path)} {ds : List Byte} {p : Path} {s : State}
    (h : OnLine ws lines ds p s) : ∃ t, s.placeLeaf = .ok t ∧ AtPair (lines ++ [(ds, p)]) t ∧ t.tblSrc = s.tblSrc := by
  obtain ⟨t, ht, hinv, hm, -, hsrc⟩ := h.toOnPath.placeLeaf
  obtain ⟨⟨-, -, hcur, -⟩, ⟨ps, htrie, hps⟩, hval⟩ := h
  have hsym : s.val.setWidth 8 = BitVec.ofNat 8 (decValue ds) := by
    rw [← hval]
    exact BitVec.eq_of_toNat_eq (by simp)
  obtain ⟨nd, hnd, heq⟩ := bind_eq_ok.1 ht
  cases heq
  exact ⟨_, ht, ⟨hinv, hm, ps, htrie.set_sym hcur (readNode_eq_ok.1 hnd) ds rfl (by simp [State.setNode, hsym]), hps⟩, hsrc⟩

/-! ### Lines in a row -/

/-- A symbol line and the start of a path line (R125, R126). -/
theorem AtPair.readsNumeral {ws : List Path} {lines : List (List Byte × Path)} {s : State} {ds : List Byte}
    (h : AtPair lines s) (hds : isNumeral ds) (hsub : nodePaths lines ⊆ ws) (hnil : [] ∈ ws) (rest : List Byte) :
    ∃ t, Consumes s (ds ++ [LF]) rest t ∧ OnLine ws lines ds [] t := by
  obtain ⟨hinv, hm, hmade⟩ := h
  obtain ⟨v, n, hv, hrun⟩ := loadBytes_symbolLine hm hds rest
  obtain ⟨-, -, -, hval⟩ := hds
  obtain ⟨t, ht, hon, hsrc⟩ := startPath_onLine (ws := ws)
    (s := { s.bytesLeft rest with val := v, ndig := n, mode := .busy .loadSym })
    (running_of_inv hinv (by simp [hm]) :) ((pointOk_loadPair hm).1 (pointOk_of_inv hinv)) (hmade.congr rfl rfl) hv hval
    hsub hnil
  refine ⟨t, ⟨?_, hsrc⟩, hon⟩
  rw [List.append_assoc]
  exact hrun.trans (congrArg (· >>= loadBytes rest) ht)

/-- Path characters whose paths are among `ws` (R126). -/
theorem OnLine.readsPath {ws : List Path} {lines : List (List Byte × Path)} {ds : List Byte} {p q : Path} {s : State}
    (h : OnLine ws lines ds p s) (hws : ws.length ≤ Config.nodeCap) (hp : ∀ pre, pre <+: p ++ q → pre ∈ ws)
    {rest : List Byte} (hs : s.tblSrc.units = q.map pathChar ++ rest) :
    ∃ t, Consumes s (q.map pathChar) rest t ∧ OnLine ws lines ds (p ++ q) t := by
  induction q generalizing p s with
  | nil => exact ⟨s, ⟨rfl, by rw [show rest = s.tblSrc.units from hs.symm]⟩, by rwa [List.append_nil]⟩
  | cons b q ih =>
    have hl : s.loading = true := (loading_of_busy h.mode).2 rfl
    have hstart := h.bytesLeft (q.map pathChar ++ rest)
    have hb : p ++ [b] ∈ ws := hp _ ⟨q, by simp⟩
    obtain ⟨u, hu, hu_on, husrc⟩ := hstart.loadStep hws hb (pathChar b)
    obtain ⟨t, ht, hon⟩ := ih hu_on (fun pre hpre => hp pre (by simpa using hpre)) (by rw [husrc]; rfl)
    have hbyte := (loadByte_of_loadPath hstart.mode (pathChar b)).trans ((loadPathByte_pathChar _ b).trans hu)
    refine ⟨t, ⟨(loadBytes_step hl hbyte).trans ht.run, by rw [ht.tblSrc, husrc]; rfl⟩, ?_⟩
    rwa [List.append_assoc] at hon

/-- The line feed behind a path (R126). -/
theorem OnLine.readsLF {ws : List Path} {lines : List (List Byte × Path)} {ds : List Byte} {p : Path} {s : State}
    (h : OnLine ws lines ds p s) (rest : List Byte) :
    ∃ t, Consumes s [LF] rest t ∧ AtPair (lines ++ [(ds, p)]) t := by
  have hon := h.bytesLeft rest
  obtain ⟨t, ht, hpair, hsrc⟩ := hon.placeLeaf
  have hbyte := (loadByte_of_loadPath hon.mode LF).trans ((loadPathByte_LF _).trans ht)
  exact ⟨t, ⟨loadBytes_step ((loading_of_busy h.mode).2 rfl) hbyte, hsrc⟩, hpair⟩

/-- A symbol line and the path behind it, of prefixes among `ws`. -/
theorem AtPair.readsToPath {ws : List Path} {lines : List (List Byte × Path)} {s : State} {ds : List Byte} {p : Path}
    (h : AtPair lines s) (hds : isNumeral ds) (hws : ws.length ≤ Config.nodeCap)
    (hsub : nodePaths (lines ++ [(ds, p)]) ⊆ ws) (rest : List Byte) :
    ∃ t, Consumes s (ds ++ [LF] ++ p.map pathChar) rest t ∧ OnLine ws lines ds p t := by
  have hp : ∀ pre, pre <+: p → pre ∈ ws := fun pre hpre => hsub (mem_nodePaths.2 ⟨(ds, p), by simp, hpre⟩)
  obtain ⟨u, hu, hu_on⟩ := h.readsNumeral hds (List.Subset.trans (nodePaths_subset_append lines _) hsub)
    (hp [] (List.nil_prefix ..)) (p.map pathChar ++ rest)
  obtain ⟨t, ht, hon⟩ := hu_on.readsPath hws hp (by rw [hu.tblSrc])
  exact ⟨t, hu.trans ht, hon⟩

/-- Pairs, one after the other (R124). -/
theorem AtPair.readsLines {ws : List Path} {lines more : List (List Byte × Path)} {s : State} (h : AtPair lines s)
    (hq : ∀ q ∈ more, isNumeral q.1) (hws : ws.length ≤ Config.nodeCap) (hsub : nodePaths (lines ++ more) ⊆ ws)
    {rest : List Byte} (hs : s.tblSrc.units = more.flatMap lineText ++ rest) :
    ∃ t, Consumes s (more.flatMap lineText) rest t ∧ AtPair (lines ++ more) t := by
  induction more generalizing lines s with
  | nil => exact ⟨s, ⟨rfl, by rw [show rest = s.tblSrc.units from hs.symm]⟩, by rwa [List.append_nil]⟩
  | cons q more ih =>
    obtain ⟨hq0, hqs⟩ := List.forall_mem_cons.1 hq
    rw [List.append_cons] at hsub
    obtain ⟨u, hu, hu_on⟩ := h.readsToPath hq0 hws (List.Subset.trans (nodePaths_subset_append _ more) hsub)
      ([LF] ++ (more.flatMap lineText ++ rest))
    obtain ⟨v, hv, hv_pair⟩ := hu_on.readsLF (more.flatMap lineText ++ rest)
    obtain ⟨t, ht, hpair⟩ := ih hv_pair hqs hsub (by rw [hv.tblSrc])
    refine ⟨t, ?_, by rwa [List.append_cons]⟩
    exact (hu.trans hv).trans ht

/-! ### LOAD of a table -/

/-- LOAD starts with no pair read. -/
theorem loadStart_atPair {s : State} (hinv : s.Inv) (hm : s.mode = .idle) (hr : s.root = none) :
    AtPair [] { s with mode := .busy .loadPair } := by
  have hrun := running_of_inv hinv (by simp [hm])
  have hempty := arenaInv_empty hrun.arena hr
  refine ⟨State.Running.inv (s := { s with mode := .busy .loadPair }) hrun (by simp) ?_, rfl, [], Trie.empty hempty hr, ?_⟩
  · exact (pointOk_loadPair rfl).2 (by simp [hempty, parentsFirst])
  · simp [nodePaths]

/-- LOAD of some pairs and whatever follows them. -/
theorem loadBody_readsLines {s : State} {lines : List (List Byte × Path)} {ws : List Path} {rest : List Byte}
    (hinv : s.Inv) (hm : s.mode = .idle) (hr : s.root = none) (hq : ∀ q ∈ lines, isNumeral q.1)
    (hws : ws.length ≤ Config.nodeCap) (hsub : nodePaths lines ⊆ ws) (hs : s.tblSrc.units = lines.flatMap lineText ++ rest) :
    ∃ t, s.loadBody = loadBytes rest t ∧ AtPair lines t ∧ t.tblSrc = ⟨rest, s.tblSrc.ended⟩ := by
  obtain ⟨t, ht, hpair⟩ := (loadStart_atPair hinv hm hr).readsLines hq hws hsub hs
  refine ⟨t, ?_, hpair, ht.tblSrc⟩
  rw [loadBody_of_no_root hr, State.loadRun, hs]
  exact ht.run

/-- A byte that faults ends LOAD, and the bytes behind it stay (R183). -/
theorem loadBytes_of_raise {s : State} {c : Byte} {cs : List Byte} {code : ErrCode} {info : BitVec 9}
    (hl : s.loading = true) (h : (s.bytesLeft cs).loadByte c = .ok ((s.bytesLeft cs).raise code info)) :
    loadBytes (c :: cs) s = .ok ((s.bytesLeft cs).raise code info) :=
  (loadBytes_step hl h).trans (loadBytes_stopped rfl cs)

/-- A path character that needs a 512th node (R126, R131). -/
theorem OnLine.needsNode {ws : List Path} {lines : List (List Byte × Path)} {ds : List Byte} {p : Path} {s : State}
    (h : OnLine ws lines ds p s) (hfull : s.nodeCount = Config.nodeCap) {b : Bool}
    (hb : p ++ [b] ∉ nodePaths (lines ++ [(ds, p)])) (rest : List Byte) :
    loadBytes (pathChar b :: rest) s = .ok ((s.bytesLeft rest).raise .arenaFull ((pathChar b).setWidth 9)) := by
  obtain ⟨ps, htrie, hps⟩ := h.made
  have hlt := htrie.idx_lt h.here
  have hnd := readNode_of_lt hlt
  have hnil : s.arena[s.cur.val].child b = none := by
    rw [← hps, ← htrie.child_isSome_iff hfull.le h.here (readNode_eq_ok.1 hnd)] at hb
    simpa using hb
  exact loadBytes_of_raise ((loading_of_busy h.mode).2 rfl)
    (((loadByte_of_loadPath (h.bytesLeft rest).mode _).trans (loadPathByte_pathChar _ b)).trans
      (loadStep_of_full (s := s.bytesLeft rest) hnd hnil (Nat.not_lt.2 hfull.ge) _))

/-- Settles O43, by induction over the lines and over each path: the arena is the trie of the paths read so far. At the end
of the text it has exactly the nodes that the lines ask for; with 511 of them made, the next path has no node and no room. -/
theorem loadAcceptsMalformedTables : Obligations.LoadAcceptsMalformedTables := by
  refine ⟨fun s lines hinv hm hr hq hcap hsrc => ?_, fun s lines ds p b rest e hinv hm hr hq hds hcap hnext hsrc => ?_⟩
  · obtain ⟨u, hu, ⟨huinv, hum, hmade⟩, husrc⟩ := loadBody_readsLines (rest := []) hinv hm hr hq hcap
      (List.Subset.refl _) (by rw [hsrc, List.append_nil])
    have hended : u.tblSrc = ⟨[], true⟩ := by rw [husrc, hsrc]
    have hbody : s.loadBody = .ok u.done := by
      rw [hu, loadBytes_nil, State.loadEnd, hended]
      simp [hum]
    obtain ⟨hframe, -, hweight⟩ := loadBody_frame hbody
    have hrun := running_of_inv hinv (by simp [hm])
    have hucap : u.nodeCount ≤ Config.nodeCap := hmade.nodeCount.trans_le hcap
    refine ⟨u.done, (exec_of_idle hm .load).trans (congrArg toOutcome hbody), hmade.nodeCount,
      fun p => hmade.walk_isSome_iff hucap, fun p i hw => ?_, ?_⟩
    · obtain ⟨nd, hnd, hsym⟩ := hmade.entry hw
      exact ⟨nd, hnd, hsym, hweight (by simp [arenaInv_empty hrun.arena hr]) nd (List.mem_of_getElem? hnd)⟩
    · obtain ⟨-, -, herr, hinfo, -⟩ := hrun
      obtain ⟨-, -, huerr, huinfo, -⟩ := running_of_inv huinv (by simp [hum])
      simpa only [State.done_mode, State.done_err, State.done_errInfo, State.done_tblSrc, hm, hended, hsrc, huerr, herr,
        huinfo, hinfo] using hframe
  · have hsub := nodePaths_subset_append lines [(ds, p)]
    obtain ⟨u, hu, hpair, husrc⟩ := loadBody_readsLines
      (rest := ds ++ [LF] ++ p.map pathChar ++ pathChar b :: rest) hinv hm hr hq hcap.le hsub (by simp [hsrc])
    obtain ⟨v, hv, hon⟩ := hpair.readsToPath hds hcap.le (List.Subset.refl _) (pathChar b :: rest)
    have hvcap : v.nodeCount = 511 := hon.made.nodeCount.trans hcap
    have hfault := hon.needsNode hvcap hnext rest
    have hbody : s.loadBody = .ok ((v.bytesLeft rest).raise .arenaFull ((pathChar b).setWidth 9)) := by
      rw [hu, hv.run, hfault]
    refine ⟨_, (exec_of_idle hm .load).trans (congrArg toOutcome hbody), hvcap, ?_⟩
    have hvsrc : (v.bytesLeft rest).tblSrc = ⟨rest, e⟩ := by simp only [State.bytesLeft, hv.tblSrc, husrc, hsrc]
    simpa only [State.raise_mode, State.raise_err, State.raise_errInfo, State.raise_tblSrc, hvsrc, hsrc] using
      (loadBody_frame hbody).1

end Sys2Proof.Machine
end

section
/-! PROOFS. O44, O45 and O46: one step of a waiting LOAD, over a symbol line and over each byte of a path line. -/

namespace Sys2Proof.Machine

open Sys2Proof Host

/-- A waiting LOAD with no action of the host goes on with the presented bytes. -/
theorem step_of_loading {s : State} (hl : s.loading = true) (hs : s.script = []) :
    step s = toOutcome (loadBytes s.tblSrc.units s) := by
  rw [step_of_quiet (quiet_of_script_nil hs), resume_of_loading hl]
  rfl

/-- With its input not ended LOAD waits for more (R55). -/
theorem loadBytes_nil_waits {s : State} (h : s.tblSrc.ended = false) : loadBytes [] s = .ok s := by
  simp [State.loadEnd, h]

/-! ### Symbol lines -/

/-- LOAD stands in a symbol line, after digits of the value `v`, `n` in number, with `rest` before it (R125). -/
def State.inSymbol (s : State) (v : BitVec 10) (n : BitVec 2) (rest : List Byte) : State :=
  { s.bytesLeft rest with val := v, ndig := n, mode := .busy .loadSym }

/-- Settles O44: the digits leave their value, and the line feed goes to the root, which is there or is the first entry. -/
theorem symbolLineIsRead : Obligations.SymbolLineIsRead := by
  intro s ds hinv hm hscript hd h1 h3 hval hsrc
  obtain ⟨v, n, hv, hrun⟩ : ∃ v n, v.toNat = decValue ds ∧
      loadBytes (ds ++ [LF]) s = ((s.inSymbol v n []).startPath >>= loadBytes []) :=
    loadBytes_symbolLine hm ⟨hd, h1, h3, hval⟩ []
  have hgo : ∀ t, (s.inSymbol v n []).startPath = .ok t → t.tblSrc.ended = s.tblSrc.ended → step s = .next t :=
    fun t ht hended => by
      have hwait : t.tblSrc.ended = false := by rw [hended, hsrc]
      rw [step_of_loading ((loading_of_busy hm).2 rfl) hscript, hsrc, hrun, ht, ok_bind, loadBytes_nil_waits hwait]
      rfl
  have hsrc' : (s.inSymbol v n []).tblSrc = ⟨[], false⟩ := by simp [State.inSymbol, State.bytesLeft, hsrc]
  cases hr : s.root with
  | some r =>
    refine ⟨_, hgo _ (startPath_of_root (s := s.inSymbol v n []) hr) rfl, hv, hr, fun _ h => ⟨hr.trans h, rfl⟩, nofun, ?_⟩
    rw [hsrc']
    rfl
  | none =>
    have ha : s.arena = [] := arenaInv_empty (running_of_inv hinv (by simp [hm])).arena hr
    have ha' : (s.inSymbol v n []).arena = [] := ha
    have hcap : (s.inSymbol v n []).arena.length < Config.nodeCap := by simp [ha']
    refine ⟨_, hgo _ (startPath_of_no_root (s := s.inSymbol v n []) hr hcap) rfl, hv, rfl, nofun, fun _ => ⟨?_, ?_⟩, ?_⟩
    · simp [ha']
    · simp [ha']
    · rw [hsrc']
      rfl

/-- At a pair boundary up to three digits, with at least one byte there, lead into a symbol line (R124, R125). -/
theorem loadBytes_intoSymbol {s : State} {ds rest : List Byte} (hm : s.mode = .busy .loadPair)
    (hd : ∀ d ∈ ds, isDigit d = true) (h3 : ds.length ≤ 3) (hne : ds ++ rest ≠ []) :
    ∃ v n, v.toNat = decValue ds ∧ n.toNat = ds.length ∧
      loadBytes (ds ++ rest) s = loadBytes rest (s.inSymbol v n rest) := by
  obtain ⟨c, cs, hcs⟩ := List.exists_cons_of_ne_nil hne
  have hopen : loadBytes (ds ++ rest) s = loadBytes (ds ++ rest) (s.inSymbol 0 0 (ds ++ rest)) := by
    rw [hcs]
    exact loadBytes_of_loadPair hm c cs
  obtain ⟨v, n, hrun, hv, hn⟩ := loadBytes_digits (s := s.inSymbol 0 0 (ds ++ rest)) (rest := rest) rfl hd
    (by simpa [State.inSymbol] using h3) (by simp [State.inSymbol]) rfl
  exact ⟨v, n, hv, by simpa [State.inSymbol] using hn, hopen.trans hrun⟩

/-- A byte that a symbol line cannot hold behind the digits `ds`: no digit and no line feed, a fourth digit, or a line feed
behind digits that are no symbol (R125). -/
theorem loadSymByte_of_badEnd {s : State} {ds : List Byte} {c : Byte} (hv : s.val.toNat = decValue ds)
    (hn : s.ndig.toNat = ds.length) (hc : (c ≠ LF ∧ isDigit c = false) ∨ (isDigit c = true ∧ ds.length = 3) ∨
      (c = LF ∧ (ds = [] ∨ 255 < decValue ds))) : s.loadSymByte c = .ok (s.raise .tableSyntax (c.setWidth 9)) := by
  obtain ⟨hlf, hd⟩ | ⟨hd, h3⟩ | ⟨rfl, hend⟩ := hc
  · exact loadSymByte_bad hlf (.inl hd)
  · exact loadSymByte_bad (isDigit_ne_LF hd) (.inr (BitVec.eq_of_toNat_eq (hn.trans h3)))
  · refine loadSymByte_LF_bad (hend.imp ?_ fun h => ?_)
    · rintro rfl
      exact BitVec.eq_of_toNat_eq hn
    · rw [BitVec.lt_def, hv]
      exact h

/-- Settles O45: the digits lead into the symbol line, which faults at the byte behind them or at the end of the input. -/
theorem symbolLineFaults : Obligations.SymbolLineFaults := by
  intro s ds hm hscript hd h3
  have hstep := step_of_loading ((loading_of_busy hm).2 rfl) hscript
  refine ⟨fun c rest e hsrc hc => ?_, fun hne hsrc => ?_⟩
  · obtain ⟨v, n, hv, hn, hrun⟩ := loadBytes_intoSymbol hm hd h3 (rest := c :: rest) (by simp)
    have hbyte := (loadByte_of_loadSym (s := s.inSymbol v n rest) rfl c).trans (loadSymByte_of_badEnd hv hn hc)
    rw [hsrc, hrun, loadBytes_of_raise (s := s.inSymbol v n (c :: rest)) rfl hbyte] at hstep
    refine ⟨_, hstep, ?_⟩
    simp [State.inSymbol, State.bytesLeft, State.raise, hsrc]
  · obtain ⟨v, n, -, -, hrun⟩ := loadBytes_intoSymbol hm hd h3 (rest := []) (by simpa using hne)
    have hunits : s.tblSrc.units = ds ++ [] := by rw [hsrc, List.append_nil]
    rw [hunits, hrun, loadBytes_nil, toOutcome_ok] at hstep
    refine ⟨_, hstep, ?_⟩
    simp [State.loadEnd, State.inSymbol, State.bytesLeft, State.raise, hsrc]

/-! ### Path lines -/

/-- A path line whose only byte leaves LOAD running goes on to wait, as the input has not ended (R55). -/
theorem step_of_pathByte {s t : State} {c : Byte} (hm : s.mode = .busy .loadPath) (hs : s.script = [])
    (hsrc : s.tblSrc = ⟨[c], false⟩) (ht : t.tblSrc = ⟨[], false⟩)
    (h : { s with tblSrc := ⟨[], false⟩ }.loadPathByte c = .ok t) : step s = .next t := by
  have hleft : s.bytesLeft [] = { s with tblSrc := ⟨[], false⟩ } := by simp [State.bytesLeft, hsrc]
  have hl : s.loading = true := (loading_of_busy hm).2 rfl
  have hbyte := (loadByte_of_loadPath (s := s.bytesLeft []) hm c).trans ((congrArg (·.loadPathByte c) hleft).trans h)
  rw [step_of_loading hl hs, hsrc, loadBytes_step hl hbyte, loadBytes_nil_waits (by rw [ht])]
  rfl

/-- A path line that faults at its next byte consumes that byte and no other (R183). -/
theorem step_of_pathByte_raise {s : State} {c : Byte} {rest : List Byte} {e : Bool} {code : ErrCode} {info : BitVec 9}
    (hm : s.mode = .busy .loadPath) (hs : s.script = []) (hsrc : s.tblSrc = ⟨c :: rest, e⟩)
    (h : (s.bytesLeft rest).loadPathByte c = .ok ((s.bytesLeft rest).raise code info)) :
    step s = .next { s with mode := .fault, err := code, errInfo := info, tblSrc := ⟨rest, e⟩ } := by
  have hl : s.loading = true := (loading_of_busy hm).2 rfl
  have hbyte := (loadByte_of_loadPath (s := s.bytesLeft rest) hm c).trans h
  rw [step_of_loading hl hs, hsrc, loadBytes_of_raise hl hbyte]
  simp [State.bytesLeft, State.raise, hsrc]

/-- Settles O46: one equation for each byte of a path line, and for the end of the input. -/
theorem pathLineFaults : Obligations.PathLineFaults := by
  intro s hm hscript
  refine ⟨fun b nd n hsrc hnd hb => ?_, fun b nd hsrc hnd hb hcap => ?_, fun nd c hsrc hnd hv => ?_,
    fun c rest e hsrc hlf h0 h1 => ?_, fun hsrc => ?_, fun b nd rest e hsrc hcap hnd hb => ?_⟩
  · exact step_of_pathByte hm hscript hsrc rfl ((loadPathByte_pathChar _ b).trans
      (loadStep_of_child (s := { s with tblSrc := ⟨[], false⟩ }) (readNode_eq_ok.2 hnd) hb _))
  · refine ⟨⟨s.arena.length, hcap⟩, rfl, step_of_pathByte hm hscript hsrc rfl ((loadPathByte_pathChar _ b).trans
      ((loadStep_of_nil (s := { s with tblSrc := ⟨[], false⟩ }) (readNode_eq_ok.2 hnd) hb hcap _).trans ?_))⟩
    rw [State.toNewChild, List.set_append_left _ _ (List.getElem?_eq_some_iff.1 hnd).1]
  · refine step_of_pathByte hm hscript hsrc rfl ((loadPathByte_LF _).trans ?_)
    have hc : s.val.setWidth 8 = c := BitVec.eq_of_toNat_eq (by
      rw [BitVec.toNat_setWidth, hv]
      exact Nat.mod_eq_of_lt c.isLt)
    simp only [State.placeLeaf, readNode_eq_ok.2 hnd, ok_bind, hc, State.setNode]
  · exact step_of_pathByte_raise hm hscript hsrc (loadPathByte_bad hlf (Bool.forall_bool.2 ⟨h0, h1⟩) _)
  · rw [step_of_loading ((loading_of_busy hm).2 rfl) hscript, hsrc, loadBytes_nil]
    simp [State.loadEnd, hm, State.raise, hsrc]
  · exact step_of_pathByte_raise hm hscript hsrc ((loadPathByte_pathChar _ b).trans
      (loadStep_of_full (s := s.bytesLeft rest) (readNode_eq_ok.2 hnd) hb hcap.not_lt _))

end Sys2Proof.Machine
end

section
/-! PROOFS. O4, O24 and O25: command words and the packed layouts of nodes and queue entries. -/

namespace Sys2Proof.Machine

open Sys2Proof Host

/-- Settles O4: each row of R71 is an equation of the decoder; on the eight commands and on the eight words the two maps are
inverse; a byte of 8 or more is no command byte. -/
theorem commandWordsDecodeByTheOpcodeMap : Obligations.CommandWordsDecodeByTheOpcodeMap := by
  refine ⟨⟨rfl, rfl, rfl, rfl, rfl, rfl, rfl, rfl⟩, fun i => ?_, by decide, fun b rest hb => ?_⟩
  · cases i <;> rfl
  · exact if_neg (BitVec.not_lt.2 hb)

/-! ### Fields side by side -/

theorem toNat_append_eq {m n : Nat} (x : BitVec m) (y : BitVec n) : (x ++ y).toNat = x.toNat * 2 ^ n + y.toNat := by
  rw [BitVec.toNat_append, ← Nat.shiftLeft_add_eq_or_of_lt y.isLt, Nat.shiftLeft_eq]

/-- A field of the high part, `k` bits above the low part. -/
theorem extractLsb'_append_high {m n start len k : Nat} {x : BitVec m} {y : BitVec n} {z : BitVec len}
    (hk : start = k + n) (h : x.extractLsb' k len = z) : (x ++ y).extractLsb' start len = z := by
  rw [BitVec.extractLsb'_append_eq_of_le (by omega), hk, Nat.add_sub_cancel, h]

/-- A node index fits 9 bits. -/
theorem toNat_ofNat_idx (i : Idx) : (BitVec.ofNat 9 i.val).toNat = i.val :=
  (BitVec.toNat_ofNat ..).trans (Nat.mod_eq_of_lt (i.isLt.trans (by decide)))

/-- Settles O24: the fields of the record from the high bits down, and the numbers of a link and of a `sym`. -/
theorem nodeRecordLayout : Obligations.NodeRecordLayout := by
  intro nd
  refine ⟨?weight, ?right, ?left, BitVec.extractLsb'_append_eq_right, rfl, toNat_ofNat_idx, rfl, fun c => ?sym⟩
  case weight =>
    exact extractLsb'_append_high (k := 18) rfl (extractLsb'_append_high (k := 9) rfl BitVec.extractLsb'_append_eq_left)
  case right =>
    exact extractLsb'_append_high (k := 9) rfl (extractLsb'_append_high (k := 0) rfl BitVec.extractLsb'_append_eq_right)
  case left => exact extractLsb'_append_high (k := 0) rfl BitVec.extractLsb'_append_eq_right
  case sym => exact (BitVec.toNat_setWidth ..).trans (Nat.mod_eq_of_lt (c.isLt.trans (by decide)))

/-- The number of a packed queue entry. -/
theorem PqEntry.pack_toNat (e : PqEntry) :
    e.pack.toNat = (e.weight.toNat * 2 ^ 9 + e.seq.toNat) * 2 ^ 9 + e.idx.val := by
  rw [PqEntry.pack, toNat_append_eq, toNat_append_eq, toNat_ofNat_idx]

/-- Settles O25: the packed number is a numeral to the base 2^9 whose digits below the weight are `seq` and `idx`, so it
compares by weight, then by `seq`, and entries with different `seq` by nothing else. -/
theorem packedQueueEntryOrder : Obligations.PackedQueueEntryOrder := by
  refine ⟨fun e => ⟨?weight, ?seq, ?idx⟩, fun e f hne => ?order⟩
  case weight => exact extractLsb'_append_high (k := 9) rfl BitVec.extractLsb'_append_eq_left
  case seq => exact extractLsb'_append_high (k := 0) rfl BitVec.extractLsb'_append_eq_right
  case idx => exact (congrArg BitVec.toNat BitVec.extractLsb'_append_eq_right).trans (toNat_ofNat_idx e.idx)
  case order =>
    have hseq : e.seq.toNat ≠ f.seq.toNat := fun h => hne (BitVec.eq_of_toNat_eq h)
    rw [PqEntry.before_iff, BitVec.lt_def, BitVec.lt_def, BitVec.lt_def, e.pack_toNat, f.pack_toNat, ← BitVec.toNat_inj]
    have he := e.seq.isLt
    have hf := f.seq.isLt
    have hei := e.idx.isLt
    have hfi := f.idx.isLt
    omega

end Sys2Proof.Machine
end

section
/-! PROOFS. O19, O26 and O52: the fields of STATUS, numerals, and the lengths of codes. -/

namespace Sys2Proof.Machine

open Sys2Proof Host

/-! ### STATUS -/

/-- STATUS is its fields side by side, with `tree_single` as read (R81). -/
theorem status_eq_ok {s : State} {w : BitVec 17} (h : s.status = .ok w) : ∃ single, s.treeSingle = .ok single ∧
    w = BitVec.ofBool single ++ BitVec.ofBool s.treePresent ++ s.errInfo ++ s.err.bits ++ s.mode.bits := by
  unfold State.status at h
  cases hs : s.treeSingle with
  | error e =>
    rw [hs] at h
    cases h
  | ok single =>
    rw [hs] at h
    cases h
    exact ⟨single, rfl, rfl⟩

/-- `tree_single` reads the root's record, if there is a root (R13). -/
theorem treeSingle_eq_true_iff {s : State} {single : Bool} (h : s.treeSingle = .ok single) :
    single = true ↔ ∃ r nd, s.root = some r ∧ s.arena[r.val]? = some nd ∧ nd.isLeaf = true := by
  cases hr : s.root with
  | none =>
    cases (State.treeSingle_of_none hr).symm.trans h
    simp
  | some r =>
    cases hnd : s.arena[r.val]? with
    | none => simp [State.treeSingle, hr, readNode, hnd, Except.map] at h
    | some nd =>
      cases (State.treeSingle_of_some hr hnd).symm.trans h
      simp [hnd]

/-- With a root that is not allocated, reading STATUS is a fault of the model (R23). -/
theorem status_of_unallocated {s : State} {r : Idx} (hr : s.root = some r) (h : s.arena[r.val]? = none) :
    s.status = .error .unallocatedNode := by
  simp only [State.status, State.treeSingle, hr, readNode, h, Except.map]

theorem Mode.bits_ne_three (m : Mode) : m.bits ≠ 3 := by
  cases m <;> simp [Mode.bits]

theorem ErrCode.bits_le_nine (e : ErrCode) : e.bits ≤ 9 := by
  cases e <;> decide

/-- Settles O19: STATUS is its fields side by side, each field is a table of numbers, and the one field that is read from
the arena can be read where the root is allocated. -/
theorem statusWordFields : Obligations.StatusWordFields := by
  refine ⟨fun s w hw => ?_, fun s => State.status_isOk, fun s r hr hle =>
    status_of_unallocated hr (List.getElem?_eq_none hle)⟩
  obtain ⟨single, hsingle, rfl⟩ := status_eq_ok hw
  have herr : ∀ e, s.err = e → s.err.bits = e.bits := fun _ => congrArg ErrCode.bits
  have hmode : ∀ m, s.mode = m → s.mode.bits = m.bits := fun _ => congrArg Mode.bits
  refine ⟨BitVec.extractLsb'_append_eq_right, ?err, ?info, ?present, hmode .idle, fun p => hmode (.busy p), hmode .fault,
    s.mode.bits_ne_three, s.err.bits_le_nine, herr .none, herr .illegalCmd, herr .treePresent, herr .noTree,
    herr .degenerateTree, herr .unknownSymbol, herr .truncatedStream, herr .badPath, herr .tableSyntax, herr .arenaFull,
    ?single⟩
  case err => exact extractLsb'_append_high (k := 0) rfl BitVec.extractLsb'_append_eq_right
  case info =>
    exact extractLsb'_append_high (k := 4) rfl (extractLsb'_append_high (k := 0) rfl BitVec.extractLsb'_append_eq_right)
  case present =>
    simp only [BitVec.getLsbD_append]
    simp [State.treePresent]
  case single =>
    rw [← treeSingle_eq_true_iff hsingle]
    simp only [BitVec.getLsbD_append]
    simp

/-! ### Numerals -/

/-- The byte of a digit is one, and has its value (R78). -/
theorem digit_of_lt {x : Byte} (h : x.toNat < 10) :
    isDigit (digit0 + x) = true ∧ (digit0 + x).toNat - digit0.toNat = x.toNat := by
  have hadd : (digit0 + x).toNat = 48 + x.toNat := by
    rw [BitVec.toNat_add]
    exact Nat.mod_eq_of_lt (by simp; omega)
  have h0 : digit0.toNat = 48 := rfl
  have h9 : digit9.toNat = 57 := rfl
  refine ⟨?_, by omega⟩
  simp only [isDigit, Bool.and_eq_true, decide_eq_true_eq, BitVec.le_def, hadd, h0, h9]
  omega

/-- Settles O26: hundreds, tens and units are digits, and the numeral leaves out the ones that are 0 in front. -/
theorem decIsTheShortestNumeral : Obligations.DecIsTheShortestNumeral := by
  intro c
  have hc := c.isLt
  have hh : (c / 100#8).toNat = c.toNat / 100 := BitVec.toNat_udiv
  have ht : (c / 10#8 % 10#8).toNat = c.toNat / 10 % 10 := by rw [BitVec.toNat_umod, BitVec.toNat_udiv]; rfl
  have hu : (c % 10#8).toNat = c.toNat % 10 := BitVec.toNat_umod
  obtain ⟨hhd, hhv⟩ := digit_of_lt (x := c / 100#8) (by omega)
  obtain ⟨htd, htv⟩ := digit_of_lt (x := c / 10#8 % 10#8) (by omega)
  obtain ⟨hud, huv⟩ := digit_of_lt (x := c % 10#8) (by omega)
  have hh0 : c / 100#8 = 0 ↔ c.toNat < 100 := by
    rw [← BitVec.toNat_inj, hh]
    show c.toNat / 100 = 0 ↔ _
    omega
  have ht0 : c / 10#8 % 10#8 = 0 ↔ c.toNat / 10 % 10 = 0 := by
    rw [← BitVec.toNat_inj, ht]
    rfl
  by_cases h100 : c.toNat < 100
  · by_cases h10 : c.toNat < 10
    · have hdec : dec c = [digit0 + c % 10#8] := by
        simp only [dec, hh0.2 h100, ht0.2 (by omega), ne_eq, not_true, if_false]
      refine ⟨?_, by simp [hdec, hud], by simp [hdec, h10]⟩
      simp only [hdec, decValue, List.foldl_cons, List.foldl_nil, huv, hu]
      omega
    · have hdec : dec c = [digit0 + c / 10#8 % 10#8, digit0 + c % 10#8] := by
        simp only [dec, hh0.2 h100, if_pos (mt ht0.1 (by omega)), ne_eq, not_true, if_false]
      refine ⟨?_, by simp [hdec, htd, hud], by simp [hdec, h10, h100]⟩
      simp only [hdec, decValue, List.foldl_cons, List.foldl_nil, htv, ht, huv, hu]
      omega
  · have h10 : ¬ c.toNat < 10 := by omega
    have hdec : dec c = [digit0 + c / 100#8, digit0 + c / 10#8 % 10#8, digit0 + c % 10#8] := if_pos (mt hh0.1 h100)
    refine ⟨?_, by simp [hdec, hhd, htd, hud], by simp [hdec, h10, h100]⟩
    simp only [hdec, decValue, List.foldl_cons, List.foldl_nil, hhv, hh, htv, ht, huv, hu]
    omega

/-! ### Lengths of codes -/

/-- A full tree has a leaf. -/
theorem symbols_length_pos {t : CodeTree} (hf : t.full = true) : 1 ≤ t.symbols.length := by
  induction t with
  | empty => cases hf
  | leaf c => exact le_rfl
  | node l r hl hr =>
    obtain ⟨hfl, -⟩ := Bool.and_eq_true_iff.1 hf
    rw [CodeTree.symbols, List.length_append]
    exact Nat.le_add_right_of_le (hl hfl)

/-- In a full tree a code has fewer bits than there are leaves: each bit leaves aside a child with a leaf of its own. -/
theorem length_lt_symbols {t : CodeTree} (hf : t.full = true) {c : Byte} {p : Path} (h : (c, p) ∈ t.table) :
    p.length < t.symbols.length := by
  induction t generalizing p with
  | empty => cases h
  | leaf d =>
    cases List.mem_singleton.1 h
    exact Nat.one_pos
  | node l r hl hr =>
    obtain ⟨hfl, hfr⟩ := Bool.and_eq_true_iff.1 hf
    have hposl := symbols_length_pos hfl
    have hposr := symbols_length_pos hfr
    obtain ⟨b, q, rfl, hq⟩ := CodeTree.mem_table_node.1 h
    rw [CodeTree.symbols, List.length_append, List.length_cons]
    cases b with
    | false =>
      have := hl hfl hq
      omega
    | true =>
      have := hr hfr hq
      omega

/-- Settles O52: the leaves hold different symbols, so there are at most 256 of them; with two of them the root is no leaf,
and a path from it takes a step. -/
theorem codeLengthsAreBounded : Obligations.CodeLengthsAreBounded := by
  refine ⟨fun tr c p hwf h2 hmem => ?_, fun c => rfl⟩
  obtain ⟨hfull, hnodup⟩ := hwf
  have hlt := length_lt_symbols hfull hmem
  have hcard : tr.symbols.length ≤ 256 := by
    simpa using (hnodup.map fun _ _ => BitVec.toFin_inj.1).length_le_card
  refine ⟨?_, by omega⟩
  cases tr with
  | empty => cases hmem
  | leaf d => exact absurd h2 (by simp [CodeTree.symbols])
  | node l r =>
    obtain ⟨b, q, rfl, -⟩ := CodeTree.mem_table_node.1 hmem
    simp

end Sys2Proof.Machine
end

section
/-! PROOFS. O27 to O30: the micro-operations of BUILD, each once, with the queue order made strict by different `seq`. -/

namespace Sys2Proof.Machine

open Sys2Proof Host

/-- Settles O27: below the capacity the record is appended, at the capacity ALLOC is FULL. -/
theorem allocHandsOutIndicesInOrder : Obligations.AllocHandsOutIndicesInOrder := by
  refine fun s sym l r w => ⟨fun h => ?_, fun h => State.alloc_full (Eq.not_lt h) sym l r w⟩
  exact ⟨_, _, State.alloc_of_lt h sym l r w, rfl, List.length_append, List.getElem?_concat_length,
    fun j hj => List.getElem?_append_left hj, rfl⟩

/-- Settles O28: the read of an allocated entry gives the weight, and a smaller `seq` decides at equal weight. -/
theorem pqInsertQueuesBehindEqualWeights : Obligations.PqInsertQueuesBehindEqualWeights := by
  refine fun s i nd hnd => ⟨by simp only [State.pqInsert, readNode_eq_ok.2 hnd, ok_bind], fun hseq e he hw => ?_⟩
  obtain hlt | heq := Nat.lt_or_eq_of_le (BitVec.le_def.1 hw)
  · exact PqEntry.before_iff.2 (.inl (BitVec.lt_def.2 hlt))
  · exact PqEntry.before_iff.2 (.inr ⟨BitVec.eq_of_toNat_eq heq, hseq e he⟩)

/-- Of two entries with different `seq`, one stands before the other (R103). -/
theorem PqEntry.before_of_not_before {e f : PqEntry} (hne : e.seq ≠ f.seq) (h : f.before e = false) :
    e.before f = true := by
  rw [← Bool.not_eq_true, PqEntry.before_iff] at h
  rw [PqEntry.before_iff]
  simp only [BitVec.lt_def, ← BitVec.toNat_inj, ne_eq] at *
  omega

/-- In a queue with different `seq`, what no entry stands before stands before every other entry. -/
theorem before_of_first {pq : List PqEntry} (hd : (pq.map PqEntry.seq).Nodup) {e g : PqEntry} (he : e ∈ pq)
    (hfirst : ∀ g ∈ pq, g.before e = false) (hg : g ∈ pq) (hne : g ≠ e) : e.before g = true :=
  PqEntry.before_of_not_before (fun hs => hne (List.inj_on_of_nodup_map hd hg he hs.symm)) (hfirst g hg)

/-- Settles O29: the entry that is removed is the one no entry stands before. -/
theorem pqExtractMinTakesTheFirst : Obligations.PqExtractMinTakesTheFirst := by
  intro s hne hd
  obtain ⟨e, he, hfirst, hx⟩ := pqExtractMin_of_ne_nil hne
  refine ⟨e, he, hx, fun f hf hfe => ⟨before_of_first hd he hfirst hf hfe, hfirst f hf⟩, ?_⟩
  rw [List.length_erase_of_mem he]
  exact Nat.sub_add_cancel (List.length_pos_of_mem he)

/-- Settles O30: two extractions, the second from the queue without the first entry. -/
theorem mergeJoinsTheTwoFirst : Obligations.MergeJoinsTheTwoFirst := by
  intro s h2 hcap hseq hidx hw
  obtain ⟨e, f, he, hf, hefirst, hffirst, hm⟩ := merge_of_queued h2 hcap hw
  have hfq : f ∈ s.pq := List.mem_of_mem_erase hf
  have hne : f ≠ e := ((hidx.of_map _).mem_erase_iff.1 hf).1
  refine ⟨e, f, _, he, hf, fun g hg => before_of_first hseq he hefirst hg,
    fun g hg => before_of_first (hseq.sublist (List.erase_sublist.map _)) hf hffirst hg,
    fun hi => hne (List.inj_on_of_nodup_map hidx hfq he hi.symm), PqEntry.weight_le_of_not_before (hefirst f hfq),
    hm, rfl, ⟨⟨_, hcap⟩, rfl, rfl⟩, rfl⟩

end Sys2Proof.Machine
end

section
/-! PROOFS. O33, the loops of BUILD: every entry that is not a leaf joins the two entries that stood first in queue order
when it was made. -/

namespace Sys2Proof.Machine

open Sys2Proof Host

/-! ### Queue order, read off the arena -/

/-- A record that joins the two entries below `j` that stand first in queue order, the first removed left (R103, R104). -/
def JoinsFirst (arena : List Node) (j : Nat) (n : Node) : Prop :=
  ∃ a b na nb, n = ⟨.sentinel, some a, some b, na.weight + nb.weight⟩ ∧
    arena[a.val]? = some na ∧ arena[b.val]? = some nb ∧
    a.val ∈ queuedAt arena j ∧ b.val ∈ queuedAt arena j ∧ entryBefore arena a.val b.val ∧
    ∀ i ∈ queuedAt arena j, i ≠ a.val → i ≠ b.val → entryBefore arena b.val i

theorem getElem?_append_of_eq_some {arena : List Node} {i : Nat} {nd : Node} (h : arena[i]? = some nd) (more : List Node) :
    (arena ++ more)[i]? = some nd :=
  (List.getElem?_append_left (List.getElem?_eq_some_iff.1 h).1).trans h

theorem mem_queuedAt {arena : List Node} {i j : Nat} :
    i ∈ queuedAt arena j ↔ i < j ∧ ∀ c ∈ childLinks (arena.take j), c.val ≠ i := by
  simp [queuedAt]

/-- What is queued when entry `j` is made depends on the entries below `j` alone. -/
theorem queuedAt_append {arena : List Node} {j : Nat} (h : j ≤ arena.length) (more : List Node) :
    queuedAt (arena ++ more) j = queuedAt arena j := by
  rw [queuedAt, queuedAt, List.take_append_of_le_length h]

theorem entryBefore_append {arena : List Node} {i k : Nat} (h : entryBefore arena i k) (more : List Node) :
    entryBefore (arena ++ more) i k := by
  obtain ⟨ni, nk, hi, hk, horder⟩ := h
  exact ⟨ni, nk, getElem?_append_of_eq_some hi more, getElem?_append_of_eq_some hk more, horder⟩

/-- More entries behind do not change which two stand first. -/
theorem JoinsFirst.append {arena : List Node} {j : Nat} {n : Node} (h : JoinsFirst arena j n) (hj : j ≤ arena.length)
    (more : List Node) : JoinsFirst (arena ++ more) j n := by
  obtain ⟨a, b, na, nb, hn, hna, hnb, ha, hb, hab, hrest⟩ := h
  rw [JoinsFirst, queuedAt_append hj]
  exact ⟨a, b, na, nb, hn, getElem?_append_of_eq_some hna more, getElem?_append_of_eq_some hnb more, ha, hb,
    entryBefore_append hab more, fun i hi hia hib => entryBefore_append (hrest i hi hia hib) more⟩

/-! ### The states BUILD passes through -/

/-- The forest between the steps of BUILD, with the queue order: `seq` is the index (R110), every entry without a parent
is queued, and the entries made by MERGE join the first two. -/
structure Building (s : State) : Prop extends Forest s where
  seq : ∀ e ∈ s.pq, e.seq.toNat = e.idx.val
  next : s.seqNext.toNat = s.arena.length
  complete : ∀ i ∈ queuedAt s.arena s.arena.length, ∃ e ∈ s.pq, e.idx.val = i
  joins : ∀ (j : Nat) (n : Node), s.arena[j]? = some n → n.sym = .sentinel → JoinsFirst s.arena j n

/-- The queue holds the entries without a parent. -/
theorem Building.mem_queuedAt {s : State} (h : Building s) {i : Nat} :
    i ∈ queuedAt s.arena s.arena.length ↔ ∃ e ∈ s.pq, e.idx.val = i := by
  refine ⟨h.complete i, ?_⟩
  rintro ⟨e, he, rfl⟩
  refine Machine.mem_queuedAt.2 ⟨h.idx_lt he, fun c hc hce => h.fresh e he ?_⟩
  rw [List.take_length] at hc
  rwa [← Fin.ext hce]

/-- Queue order between queued entries is queue order between their arena entries. -/
theorem Building.entryBefore {s : State} (h : Building s) {e f : PqEntry} (he : e ∈ s.pq) (hf : f ∈ s.pq)
    (hne : e.idx.val ≠ f.idx.val) (hfe : f.before e = false) : entryBefore s.arena e.idx.val f.idx.val := by
  obtain ⟨ne, hne', hwe⟩ := h.queued e he
  obtain ⟨nf, hnf', hwf⟩ := h.queued f hf
  have hse := h.seq e he
  have hsf := h.seq f hf
  have hseq : e.seq ≠ f.seq := fun hs => hne (by rw [← hse, ← hsf, hs])
  refine ⟨ne, nf, hne', hnf', ?_⟩
  rw [hwe, hwf, ← hse, ← hsf]
  exact PqEntry.before_iff.1 (PqEntry.before_of_not_before hseq hfe)

/-- A node that takes the first entries of the queue as its children, and is queued itself. -/
theorem Building.grow {s : State} {es rest : List PqEntry} {nd : Node} {n : Idx} (h : Building s)
    (hforest : Forest ({ s with pq := rest }.grow nd n)) (hq : s.pq.Perm (es ++ rest)) (hl : nd.links = es.map PqEntry.idx)
    (hn : n.val = s.arena.length) (hj : nd.sym = .sentinel → JoinsFirst s.arena s.arena.length nd) :
    Building ({ s with pq := rest }.grow nd n) where
  toForest := hforest
  seq e he := by
    obtain he | he := List.mem_append.1 he
    · exact h.seq e (hq.mem_iff.2 (List.mem_append_right _ he))
    · cases List.mem_singleton.1 he
      exact h.next.trans hn.symm
  next := by
    have hlt := n.isLt
    have hnext := h.next
    show (s.seqNext + 1).toNat = (s.arena ++ [nd]).length
    rw [BitVec.toNat_add, hnext, List.length_append, List.length_singleton]
    exact Nat.mod_eq_of_lt (by show s.arena.length + 1 < 512; omega)
  complete i hi := by
    change i ∈ queuedAt (s.arena ++ [nd]) (s.arena ++ [nd]).length at hi
    obtain ⟨hlt, hfree⟩ := Machine.mem_queuedAt.1 hi
    rw [List.take_length, childLinks_append, childLinks_singleton, hl] at hfree
    by_cases hin : i = n.val
    · exact ⟨_, List.mem_append_right _ (List.mem_singleton_self _), hin.symm⟩
    · rw [List.length_append, List.length_singleton] at hlt
      obtain ⟨e, he, hei⟩ := h.complete i (Machine.mem_queuedAt.2 ⟨by omega, fun c hc =>
        hfree c (List.mem_append_left _ (by rwa [List.take_length] at hc))⟩)
      obtain he | he := List.mem_append.1 (hq.mem_iff.1 he)
      · exact absurd hei (hfree e.idx (List.mem_append_right _ (List.mem_map_of_mem he)))
      · exact ⟨e, List.mem_append_left _ he, hei⟩
  joins j x hx hs := by
    obtain hx | ⟨rfl, rfl⟩ := getElem?_append_singleton_eq_some.1 hx
    · exact (h.joins j x hx hs).append (List.getElem?_eq_some_iff.1 hx).1.le [nd]
    · exact (hj hs).append le_rfl [nd]

/-- MERGE joins the first two of the queue. -/
theorem Building.merge {s : State} (h : Building s) (h2 : 2 ≤ s.pqLen) (hcap : s.arena.length < Config.nodeCap)
    (htot : queueWeight s.pq ≤ 2 ^ 40 - 256) :
    ∃ t nd, s.merge = .ok t ∧ Building t ∧ t.arena = s.arena ++ [nd] ∧ nd.sym = .sentinel := by
  obtain ⟨e, f, he, hf, hefirst, hffirst, hm⟩ := merge_of_queued h2 hcap h.queued
  obtain ⟨t, ht, hforest, -⟩ := h.toForest.merge h2 hcap htot
  obtain rfl := Except.ok.inj (hm.symm.trans ht)
  have hperm : s.pq.Perm ([e, f] ++ (s.pq.erase e).erase f) :=
    (List.perm_cons_erase he).trans ((List.perm_cons_erase hf).cons e)
  have hfq : f ∈ s.pq := List.mem_of_mem_erase hf
  have hnd : (e :: s.pq.erase e).Nodup := (List.perm_cons_erase he).nodup_iff.1 (h.distinct.of_map _)
  have hidx : ∀ g ∈ s.pq, ∀ k ∈ s.pq, g ≠ k → g.idx.val ≠ k.idx.val := fun g hg k hk hne hgk =>
    hne (List.inj_on_of_nodup_map h.distinct hg hk (Fin.ext hgk))
  have hef : e ≠ f := fun hef => (List.nodup_cons.1 hnd).1 (hef ▸ hf)
  obtain ⟨ne, hne, hwe⟩ := h.queued e he
  obtain ⟨nf, hnf, hwf⟩ := h.queued f hfq
  refine ⟨_, _, hm, h.grow hforest hperm rfl rfl fun _ => ?_, rfl, rfl⟩
  refine ⟨e.idx, f.idx, ne, nf, by rw [hwe, hwf], hne, hnf, h.mem_queuedAt.2 ⟨e, he, rfl⟩,
    h.mem_queuedAt.2 ⟨f, hfq, rfl⟩, h.entryBefore he hfq (hidx e he f hfq hef) (hefirst f hfq), fun i hi hie hif => ?_⟩
  obtain ⟨g, hg, rfl⟩ := h.mem_queuedAt.1 hi
  have hge : g ∈ s.pq.erase e := (List.mem_erase_of_ne fun heq => hie (by rw [heq])).2 hg
  exact h.entryBefore hfq hg hif.symm (hffirst g hge)

/-- BUILD's first loop makes the leaves of the symbols that occur, in order (R105, R106). -/
theorem Building.insertLeaves {cs : List Byte} {s : State} (h : Building s) (hroom : s.arena.length + cs.length ≤ 256) :
    ∃ t, insertLeaves cs s = .ok t ∧ Building t ∧
      t.arena = s.arena ++ (cs.filter fun c => s.freqOf c ≠ 0).map s.leafFor := by
  induction cs generalizing s with
  | nil => exact ⟨s, rfl, h, by simp⟩
  | cons c cs ih =>
    rw [List.length_cons] at hroom
    by_cases hc : s.freqOf c = 0
    · obtain ⟨t, ht, hb, harena⟩ := ih h (by omega)
      refine ⟨t, ?_, hb, by simpa [hc] using harena⟩
      simp only [Machine.insertLeaves, insertLeaf_absent hc, ok_bind, ht]
    · have hcap : s.arena.length < Config.nodeCap := by show s.arena.length < 511; omega
      have hleaf := insertLeaf_present hc hcap
      obtain ⟨u, hu, hforest, -⟩ := h.toForest.insertLeaf c hcap
      obtain rfl := Except.ok.inj (hleaf.symm.trans hu)
      have hgrown := h.grow (es := []) hforest (List.Perm.refl _) rfl rfl nofun
      obtain ⟨t, ht, hb, harena⟩ := ih hgrown (by simp only [State.grow, List.length_append, List.length_singleton]; omega)
      refine ⟨t, by simp only [Machine.insertLeaves, hleaf, ok_bind, ht], hb, harena.trans ?_⟩
      rw [List.filter_cons_of_pos (by simpa using hc), List.map_cons, List.append_cons]
      rfl

/-- BUILD's second loop adds one node for each queued entry but one (R105, R110). -/
theorem Building.mergeLoop {n : Nat} {s : State} (h : Building s) (hne : 1 ≤ s.pqLen) (hn : s.pqLen ≤ n + 1)
    (hroom : s.arena.length + s.pqLen ≤ 512) (htot : queueWeight s.pq ≤ 2 ^ 40 - 256) :
    ∃ t more, mergeLoop n s = .ok t ∧ Building t ∧ t.pqLen = 1 ∧ t.arena = s.arena ++ more ∧
      more.length + 1 = s.pqLen ∧ ∀ nd ∈ more, nd.sym = .sentinel := by
  induction n generalizing s with
  | zero => exact ⟨s, [], rfl, h, by omega, by simp, by simp; omega, by simp⟩
  | succ n ih =>
    by_cases h2 : 2 ≤ s.pqLen
    · have hcap : s.arena.length < Config.nodeCap := by show s.arena.length < 511; omega
      obtain ⟨u, nd, hu, hbu, hau, hs⟩ := h.merge h2 hcap htot
      obtain ⟨u', hu', -, -, hpq, hlen, hw⟩ := h.toForest.merge h2 hcap htot
      obtain rfl := Except.ok.inj (hu.symm.trans hu')
      obtain ⟨t, more, ht, hbt, h1, hat, hmore, hsm⟩ := ih hbu (by omega) (by omega) (by omega) (by omega)
      refine ⟨t, nd :: more, ?_, hbt, h1, by rw [hat, hau, List.append_assoc]; rfl, by rw [List.length_cons]; omega,
        List.forall_mem_cons.2 ⟨hs, hsm⟩⟩
      simp only [Machine.mergeLoop, h2, if_true, hu, ok_bind, ht]
    · exact ⟨s, [], by simp only [Machine.mergeLoop, h2, if_false], h, by omega, by simp, by simp; omega, by simp⟩

/-! ### What BUILD leaves -/

/-- What BUILD leaves when some symbol occurs: R110's arena, whose only entry without a parent is the root. -/
structure BuildResult (s t : State) (r : Idx) : Prop where
  root : t.root = some r
  rooted : r.val ∈ queuedAt t.arena t.arena.length
  leaves : t.arena.take s.present.length = s.present.map s.leafFor
  nodes : ∀ (j : Nat) (n : Node), s.present.length ≤ j → t.arena[j]? = some n → JoinsFirst t.arena j n
  count : t.arena.length + 1 = 2 * s.present.length
  exact : ∀ nd ∈ t.arena, t.ExactWeight nd
  next : t.seqNext.toNat = t.arena.length
  frame : t = { s with arena := t.arena, root := t.root, pq := [], seqNext := t.seqNext }

/-- The leaves of BUILD, with what the loops need of them. -/
theorem insertLeaves_allSymbols {s : State} (ha : s.arena = []) :
    ∃ u, insertLeaves allSymbols { s with pq := [], seqNext := 0 } = .ok u ∧ Building u ∧
      BuildFrame { s with pq := [], seqNext := 0 } u ∧ u.arena = s.present.map s.leafFor ∧
      u.pqLen = s.present.length ∧ s.present.length ≤ 256 ∧ queueWeight u.pq ≤ 2 ^ 40 - 256 := by
  have hforest := forest_empty (s := { s with pq := [], seqNext := 0 }) ha rfl
  have hstart : Building { s with pq := [], seqNext := 0 } := ⟨hforest, by simp, by simp [ha], by simp [ha, queuedAt],
    by simp [ha]⟩
  obtain ⟨u, hu, -, hframe, hlen, hle, hw⟩ := hforest.insertLeaves (cs := allSymbols) (by simp [ha, State.pqLen])
    (by simp [allSymbols, State.pqLen])
  obtain ⟨u', hu', hb, harena⟩ := hstart.insertLeaves (cs := allSymbols) (by simp [ha, allSymbols])
  obtain rfl := Except.ok.inj (hu.symm.trans hu')
  have harena' : u.arena = s.present.map s.leafFor := by rw [harena, ha]; rfl
  have hL : u.pqLen = s.present.length := by rw [← hlen, harena', List.length_map]
  exact ⟨u, hu, hb, hframe, harena', hL, by omega, by simpa [queueWeight, allSymbols, Config.nsym] using hw⟩

/-- BUILD without a tree, after its first loop (R105). -/
theorem buildBody_of_leaves {s u : State} (hr : s.root = none)
    (hu : insertLeaves allSymbols { s with pq := [], seqNext := 0 } = .ok u) :
    s.buildBody = if u.pqLen = 0 then .ok u.done else
      mergeLoop u.pqLen u >>= fun v => v.pqExtractMin >>= fun p => .ok (State.done { p.2 with root := some p.1 }) := by
  unfold State.buildBody
  split
  next r hr' => cases hr.symm.trans hr'
  next => simp only [hu, ok_bind]

/-- BUILD with no symbol present ends after its first loop, with nothing allocated (R109). -/
theorem buildBody_of_no_symbol {s : State} (hm : s.mode = .idle) (hr : s.root = none) (ha : s.arena = [])
    (h0 : s.present = []) : s.buildBody = .ok { s with pq := [], seqNext := 0 } := by
  obtain ⟨u, hu, hb, hframe, harena, hlen, -, -⟩ := insertLeaves_allSymbols ha
  rw [h0, List.map_nil] at harena
  rw [h0, List.length_nil] at hlen
  have hpq : u.pq = [] := List.eq_nil_of_length_eq_zero hlen
  have hseq : u.seqNext = 0 := BitVec.eq_of_toNat_eq (by rw [hb.next, harena]; rfl)
  rw [buildBody_of_leaves hr hu, if_pos hlen, hframe, hpq, hseq, harena, ← ha, State.done, ← hm]

/-- BUILD with a symbol present (R105, R110). -/
theorem buildBody_of_symbol {s : State} (hm : s.mode = .idle) (hr : s.root = none) (ha : s.arena = [])
    (h0 : s.present ≠ []) : ∃ t r, s.buildBody = .ok t ∧ BuildResult s t r := by
  have hpos := List.length_pos_iff.2 h0
  obtain ⟨u, hu, hbu, hframe, harena, hlen, hle, hw⟩ := insertLeaves_allSymbols ha
  have hleaves : u.arena.length = s.present.length := by rw [harena, List.length_map]
  obtain ⟨v, more, hv, hbv, h1, hav, hmore, hsm⟩ := hbu.mergeLoop (n := u.pqLen) (by omega) (by omega) (by omega) hw
  have hframe' := hframe.trans (mergeLoop_buildFrame hv)
  obtain ⟨e, hev⟩ := List.length_eq_one_iff.1 h1
  have hx : v.pqExtractMin = .ok (e.idx, { v with pq := [] }) := by simp [State.pqExtractMin, pqFirst, hev]
  refine ⟨{ v with pq := [], root := some e.idx }.done, e.idx, ?_,
    ⟨rfl, ?_, ?_, fun j n hj hn => ?_, ?_, hbv.exact, hbv.next, ?_⟩⟩
  · have hne : ¬ u.pqLen = 0 := by omega
    simp only [buildBody_of_leaves hr hu, hne, if_false, hv, hx, ok_bind]
  · exact hbv.mem_queuedAt.2 ⟨e, by simp [hev], rfl⟩
  · rw [State.done_arena, hav, ← hleaves, List.take_left', harena]
    rfl
  · refine hbv.joins j n hn (hsm n ?_)
    rw [State.done_arena, hav, List.getElem?_append_right (by omega)] at hn
    exact List.mem_of_getElem? hn
  · rw [State.done_arena, hav, List.length_append]
    omega
  · rw [State.done, hframe', ← hm]

end Sys2Proof.Machine
end

section
/-! PROOFS. O33, the arena BUILD leaves: leaves first, then one node for each merge; which entries have no parent yet, and
the tree below each entry. -/

namespace Sys2Proof.Machine

open Sys2Proof Host

/-! ### The layout -/

/-- R110's arena of `L` leaves: bare leaves first, then the nodes, each joining the first two in queue order. -/
structure Laid (arena : List Node) (L : Nat) : Prop where
  leaf : ∀ j < L, ∃ c w, arena[j]? = some ⟨.symbol c, none, none, w⟩
  join : ∀ (j : Nat) (n : Node), L ≤ j → arena[j]? = some n → JoinsFirst arena j n
  cap : arena.length ≤ Config.nodeCap
  count : arena.length + 1 = 2 * L

/-- A record has links only if it joins two entries. -/
theorem Laid.joins_of_link {arena : List Node} {L j : Nat} {n : Node} {c : Idx} (h : Laid arena L)
    (hn : arena[j]? = some n) (hc : c ∈ n.links) : L ≤ j ∧ JoinsFirst arena j n := by
  by_cases hj : j < L
  · obtain ⟨d, w, hd⟩ := h.leaf j hj
    cases hd.symm.trans hn
    simp [Node.links] at hc
  · exact ⟨by omega, h.join j n (by omega) hn⟩

theorem Laid.childrenFirst {arena : List Node} {L : Nat} (h : Laid arena L) : childrenFirst arena := by
  refine childrenFirst_iff.2 fun j n hn c hc => ?_
  obtain ⟨-, a, b, na, nb, rfl, -, -, ha, hb, -⟩ := h.joins_of_link hn hc
  obtain rfl | rfl : c = a ∨ c = b := by simpa [Node.links] using hc
  · exact (mem_queuedAt.1 ha).1
  · exact (mem_queuedAt.1 hb).1

/-- Induction over the entries, leaves first and each node after its children. -/
theorem Laid.induction {arena : List Node} {L : Nat} (h : Laid arena L) {P : Nat → Prop}
    (leaf : ∀ j c w, arena[j]? = some ⟨.symbol c, none, none, w⟩ → P j)
    (node : ∀ (j : Nat) (a b : Idx) (w : Weight), arena[j]? = some ⟨.sentinel, some a, some b, w⟩ → a.val < j → b.val < j →
      P a.val → P b.val → P j) {j : Nat} (hj : j < arena.length) : P j := by
  induction j using Nat.strong_induction_on with
  | h j ih =>
    by_cases hL : j < L
    · obtain ⟨c, w, hc⟩ := h.leaf j hL
      exact leaf j c w hc
    · have hn := List.getElem?_eq_getElem hj
      obtain ⟨a, b, na, nb, hjoin, -, -, ha, hb, -⟩ := h.join j _ (by omega) hn
      have ha' := (mem_queuedAt.1 ha).1
      have hb' := (mem_queuedAt.1 hb).1
      exact node j a b _ (hjoin ▸ hn) ha' hb' (ih a ha' (by omega)) (ih b hb' (by omega))

/-! ### The entries without a parent -/

theorem mem_childLinks_take {arena : List Node} {c : Idx} {j : Nat} (h : c ∈ childLinks (arena.take j)) :
    ∃ i n, i < j ∧ arena[i]? = some n ∧ c ∈ n.links := by
  obtain ⟨i, n, hi, hc⟩ := mem_childLinks.1 h
  rw [List.getElem?_take] at hi
  split at hi
  next hij => exact ⟨i, n, hij, hi, hc⟩
  next => cases hi

/-- Before the first merge every leaf is queued. -/
theorem Laid.queuedAt_leaves {arena : List Node} {L : Nat} (h : Laid arena L) : queuedAt arena L = List.range L := by
  refine List.filter_eq_self.2 fun i _ => decide_eq_true fun hi => ?_
  obtain ⟨c, hc, -⟩ := List.mem_map.1 hi
  obtain ⟨j, n, hjL, hn, hcn⟩ := mem_childLinks_take hc
  have := (h.joins_of_link hn hcn).1
  omega

theorem queuedAt_nodup (arena : List Node) (j : Nat) : (queuedAt arena j).Nodup := List.nodup_range.filter _

/-- A merge takes the first two queued entries away and queues the new one. -/
structure MergesAt (arena : List Node) (j : Nat) (a b : Idx) (rest : List Nat) : Prop where
  entry : ∃ w, arena[j]? = some ⟨.sentinel, some a, some b, w⟩
  before : (queuedAt arena j).Perm (a.val :: b.val :: rest)
  after : (queuedAt arena (j + 1)).Perm (j :: rest)
  first : entryBefore arena a.val b.val
  others : ∀ i ∈ rest, entryBefore arena b.val i

/-- Nothing stands before itself. -/
theorem entryBefore_irrefl {arena : List Node} {i : Nat} : ¬ entryBefore arena i i := by
  rintro ⟨ni, nk, hi, hk, hlt | ⟨-, hlt⟩⟩
  · cases hi.symm.trans hk
    exact absurd hlt (BitVec.lt_irrefl _)
  · exact absurd hlt (Nat.lt_irrefl i)

/-- After a merge the new entry has no parent, its two children have one, and nothing else changes. -/
theorem mem_queuedAt_succ {arena : List Node} {i j : Nat} {a b : Idx} {w : Weight} (h : childrenFirst arena)
    (hj : arena[j]? = some ⟨.sentinel, some a, some b, w⟩) :
    i ∈ queuedAt arena (j + 1) ↔ i = j ∨ (i ≠ a.val ∧ i ≠ b.val ∧ i ∈ queuedAt arena j) := by
  obtain ⟨hlt, hget⟩ := List.getElem?_eq_some_iff.1 hj
  have hlinks : childLinks (arena.take (j + 1)) = childLinks (arena.take j) ++ [a, b] := by
    rw [List.take_succ_eq_append_getElem hlt, hget, childLinks_append]
    rfl
  have hbound : ∀ c ∈ childLinks (arena.take (j + 1)), c.val ≠ j := fun c hc => by
    obtain ⟨k, n, hk, hn, hcn⟩ := mem_childLinks_take hc
    have := childrenFirst_iff.1 h k n hn c hcn
    omega
  rw [mem_queuedAt, mem_queuedAt]
  constructor
  · rintro ⟨hij, hfree⟩
    simp only [hlinks, List.forall_mem_append, List.forall_mem_cons] at hfree
    obtain ⟨hold, ha, hb, -⟩ := hfree
    obtain rfl | hij := Nat.eq_or_lt_of_le (Nat.le_of_lt_succ hij)
    · exact .inl rfl
    · exact .inr ⟨ha.symm, hb.symm, hij, hold⟩
  · rintro (rfl | ⟨hia, hib, hij, hold⟩)
    · exact ⟨Nat.lt_succ_self _, hbound⟩
    · refine ⟨Nat.lt_succ_of_lt hij, ?_⟩
      simp only [hlinks, List.forall_mem_append, List.forall_mem_cons]
      exact ⟨hold, hia.symm, hib.symm, by simp⟩

/-- Every entry after the leaves is the result of a merge (R104). -/
theorem Laid.mergesAt {arena : List Node} {L j : Nat} (h : Laid arena L) (hL : L ≤ j) (hj : j < arena.length) :
    ∃ a b rest, MergesAt arena j a b rest := by
  have hn := List.getElem?_eq_getElem hj
  obtain ⟨a, b, na, nb, hjoin, -, -, ha, hb, hab, hrest⟩ := h.join j _ hL hn
  rw [hjoin] at hn
  have hnodup := queuedAt_nodup arena j
  have hne : b.val ≠ a.val := fun hba => entryBefore_irrefl (hba ▸ hab)
  have hb' : b.val ∈ (queuedAt arena j).erase a.val := (List.mem_erase_of_ne hne).2 hb
  have hmem : ∀ i, i ∈ ((queuedAt arena j).erase a.val).erase b.val ↔ i ≠ a.val ∧ i ≠ b.val ∧ i ∈ queuedAt arena j := by
    intro i
    rw [(hnodup.erase _).mem_erase_iff, hnodup.mem_erase_iff, and_left_comm]
  have hfresh : j ∉ ((queuedAt arena j).erase a.val).erase b.val := fun hmemj => by
    obtain ⟨-, -, hq⟩ := (hmem j).1 hmemj
    exact absurd (mem_queuedAt.1 hq).1 (Nat.lt_irrefl j)
  refine ⟨a, b, _, ⟨_, hn⟩, (List.perm_cons_erase ha).trans ((List.perm_cons_erase hb').cons _), ?_, hab, fun i hi => ?_⟩
  · refine (List.perm_ext_iff_of_nodup (queuedAt_nodup arena (j + 1))
      (List.nodup_cons.2 ⟨hfresh, (hnodup.erase _).erase _⟩)).2 fun i => ?_
    rw [mem_queuedAt_succ h.childrenFirst hn, List.mem_cons, hmem]
  · obtain ⟨hia, hib, hq⟩ := (hmem i).1 hi
    exact hrest i hq hia hib

/-- Each merge makes the queue one entry shorter. -/
theorem Laid.queuedAt_length {arena : List Node} {L j : Nat} (h : Laid arena L) (hL : L ≤ j) (hj : j ≤ arena.length) :
    (queuedAt arena j).length + j = 2 * L := by
  induction j, hL using Nat.le_induction with
  | base => rw [h.queuedAt_leaves, List.length_range]; omega
  | succ j hL ih =>
    obtain ⟨a, b, rest, hm⟩ := h.mergesAt hL hj
    have hbefore := hm.before.length_eq
    have hafter := hm.after.length_eq
    have := ih (by omega)
    simp only [List.length_cons] at hbefore hafter
    omega

/-- At the end the last entry is the one without a parent (R110). -/
theorem Laid.queuedAt_end {arena : List Node} {L : Nat} (h : Laid arena L) :
    queuedAt arena arena.length = [2 * L - 2] := by
  have hcount := h.count
  have hlen := h.queuedAt_length (j := arena.length) (by omega) le_rfl
  obtain ⟨r, hr⟩ := List.length_eq_one_iff.1 (show (queuedAt arena arena.length).length = 1 by omega)
  have hlast : 2 * L - 2 ∈ queuedAt arena arena.length := by
    refine mem_queuedAt.2 ⟨by omega, fun c hc hcl => ?_⟩
    obtain ⟨i, n, hi, hn, hcn⟩ := mem_childLinks_take hc
    have := childrenFirst_iff.1 h.childrenFirst i n hn c hcn
    omega
  rw [hr] at hlast ⊢
  rw [List.mem_singleton.1 hlast]

/-- What every merge adds up, the root holds of all leaves. -/
theorem Laid.sum_leaves {M : Type} [AddCommMonoid M] {arena : List Node} {L : Nat} (h : Laid arena L) (f : Nat → M)
    (hf : ∀ j a b rest, MergesAt arena j a b rest → f j = f a.val + f b.val) :
    f (2 * L - 2) = ((List.range L).map f).sum := by
  have hcount := h.count
  have hsum : ∀ j, L ≤ j → j ≤ arena.length → ((queuedAt arena j).map f).sum = ((List.range L).map f).sum := by
    intro j hL
    induction j, hL using Nat.le_induction with
    | base => intro _; rw [h.queuedAt_leaves]
    | succ j hL ih =>
      intro hj
      obtain ⟨a, b, rest, hm⟩ := h.mergesAt hL hj
      rw [← ih (by omega), (hm.after.map f).sum_eq, (hm.before.map f).sum_eq]
      simp only [List.map_cons, List.sum_cons, hf j a b rest hm, add_assoc]
  have hend := hsum arena.length (by omega) le_rfl
  rwa [h.queuedAt_end, List.map_singleton, List.sum_singleton] at hend

/-! ### The tree below an entry -/

/-- The tree of an entry (R19) in an arena with BUILD's numbering; `treeAt_entryTree` ties it to the walk. -/
def entryTree (arena : List Node) (i : Nat) : CodeTree :=
  (treeAt (i + 1) arena (some (Fin.ofNat 511 i))).toOption.getD .empty

/-- Children come first, so the walk from an entry answers within as many steps as its index. -/
theorem treeAt_entryTree {arena : List Node} (h : childrenFirst arena) {i : Idx} (hi : i.val < arena.length) {n : Nat}
    (hn : i.val < n) : treeAt n arena (some i) = .ok (entryTree arena i.val) := by
  obtain ⟨t, ht⟩ := treeAt_of_rank (rank := id) (n := i.val + 1) (l := some i)
    (fun j nd hj c hc => by
      have hcj := childrenFirst_iff.1 h j nd hj c hc
      have := (List.getElem?_eq_some_iff.1 hj).1
      exact ⟨by omega, hcj⟩)
    (fun k hk => by cases hk; exact ⟨hi, Nat.lt_succ_self _⟩)
  have hentry : entryTree arena i.val = t := by
    rw [entryTree, Fin.ofNat_val_eq_self, ht]
    rfl
  rw [hentry]
  exact treeAt_mono hn ht

theorem entryTree_leaf {arena : List Node} {j : Nat} {c : Byte} {w : Weight} (hcap : arena.length ≤ 511)
    (h : arena[j]? = some ⟨.symbol c, none, none, w⟩) : entryTree arena j = .leaf c := by
  have hj := (List.getElem?_eq_some_iff.1 h).1
  have hread : readNode arena (Fin.ofNat 511 j) = .ok ⟨.symbol c, none, none, w⟩ :=
    readNode_eq_ok.2 (by rw [Fin.val_ofNat, Nat.mod_eq_of_lt (by omega), h])
  rw [entryTree, treeAt_leaf hread rfl]
  rfl

theorem Laid.entryTree_node {arena : List Node} {L j : Nat} {a b : Idx} {w : Weight} (h : Laid arena L)
    (hj : arena[j]? = some ⟨.sentinel, some a, some b, w⟩) :
    entryTree arena j = .node (entryTree arena a.val) (entryTree arena b.val) := by
  have hlt := (List.getElem?_eq_some_iff.1 hj).1
  have hcap : arena.length ≤ 511 := h.cap
  have hfirst := childrenFirst_iff.1 h.childrenFirst j _ hj
  have ha : a.val < j := hfirst a (by simp [Node.links])
  have hb : b.val < j := hfirst b (by simp [Node.links])
  have hread : readNode arena (Fin.ofNat 511 j) = .ok ⟨.sentinel, some a, some b, w⟩ :=
    readNode_eq_ok.2 (by rw [Fin.val_ofNat, Nat.mod_eq_of_lt (by omega), hj])
  rw [entryTree, treeAt_node hread rfl (treeAt_entryTree h.childrenFirst (by omega) ha)
    (treeAt_entryTree h.childrenFirst (by omega) hb)]
  rfl

theorem MergesAt.entryTree {arena : List Node} {L j : Nat} {a b : Idx} {rest : List Nat} (hm : MergesAt arena j a b rest)
    (h : Laid arena L) : entryTree arena j = .node (entryTree arena a.val) (entryTree arena b.val) := by
  obtain ⟨w, hw⟩ := hm.entry
  exact h.entryTree_node hw

/-- Every entry's tree is full: a node has two children. -/
theorem Laid.entryTree_full {arena : List Node} {L j : Nat} (h : Laid arena L) (hj : j < arena.length) :
    (entryTree arena j).full = true := by
  refine h.induction (P := fun j => (Machine.entryTree arena j).full = true) (fun j c w hc => ?_)
    (fun j a b w hn _ _ ha hb => ?_) hj
  · rw [entryTree_leaf h.cap hc]; rfl
  · rw [h.entryTree_node hn, CodeTree.full, ha, hb]; rfl

/-- Every leaf entry is bare (R19 (d)). -/
theorem Laid.bareLeaves {arena : List Node} {L : Nat} (h : Laid arena L) {i : Idx} (hi : i.val < arena.length) {n : Nat}
    (hn : i.val < n) : bareLeaves n arena (some i) = true := by
  refine h.induction (P := fun j => ∀ (i : Idx) (n : Nat), i.val = j → j < n → Machine.bareLeaves n arena (some i) = true)
    (fun j c w hc => ?_) (fun j a b w hw ha hb iha ihb => ?_) hi i n rfl hn
  · rintro i (_ | n) rfl hn
    · omega
    · simp only [Machine.bareLeaves, readNode_eq_ok.2 hc]
      rfl
  · rintro i (_ | n) rfl hn
    · omega
    · simp only [Machine.bareLeaves, readNode_eq_ok.2 hw, iha a n rfl (by omega), ihb b n rfl (by omega), Bool.and_self]

/-! ### Weights -/

/-- The sum of the weights of a tree's leaves. -/
def CodeTree.weight (w : Byte → Nat) (t : CodeTree) : Nat := (t.symbols.map w).sum

@[simp] theorem CodeTree.weight_leaf (w : Byte → Nat) (c : Byte) : (CodeTree.leaf c).weight w = w c := by
  simp [CodeTree.weight, CodeTree.symbols]

@[simp] theorem CodeTree.weight_node (w : Byte → Nat) (l r : CodeTree) :
    (CodeTree.node l r).weight w = l.weight w + r.weight w := by
  simp [CodeTree.weight, CodeTree.symbols]

/-- Where every weight is exact, an entry holds the weight of its tree (R24). -/
theorem Laid.weight_entryTree {s : State} {L : Nat} (h : Laid s.arena L) (hx : ∀ nd ∈ s.arena, s.ExactWeight nd) {j : Nat}
    {nd : Node} (hj : s.arena[j]? = some nd) :
    nd.weight.toNat = (entryTree s.arena j).weight fun c => (s.freqOf c).toNat := by
  refine h.induction (P := fun j => ∀ nd, s.arena[j]? = some nd →
    nd.weight.toNat = (entryTree s.arena j).weight fun c => (s.freqOf c).toNat)
    (fun j c w hc nd hnd => ?_) (fun j a b w hw _ _ iha ihb nd hnd => ?_) (List.getElem?_eq_some_iff.1 hj).1 nd hj
  · obtain ⟨-, hsym, -⟩ := hx nd (List.mem_of_getElem? hnd)
    cases hc.symm.trans hnd
    rw [entryTree_leaf h.cap hc, CodeTree.weight_leaf, hsym c rfl]
  · obtain ⟨-, -, hsen⟩ := hx nd (List.mem_of_getElem? hnd)
    cases hw.symm.trans hnd
    obtain ⟨l, r, nl, nr, hl, hr, hnl, hnr, hsum, -⟩ := hsen rfl
    cases hl
    cases hr
    rw [h.entryTree_node hw, CodeTree.weight_node, hsum, iha nl hnl, ihb nr hnr]

end Sys2Proof.Machine
end

section
/-! PROOFS. O33, O31, O32 and O35: what BUILD leaves is R110's arena, its tree has the present symbols, and the first two
in queue order at each merge determine it. -/

namespace Sys2Proof.Machine

open Sys2Proof Host

/-! ### The present symbols -/

theorem mem_allSymbols (c : Byte) : c ∈ allSymbols :=
  List.mem_map.2 ⟨c.toNat, List.mem_range.2 c.isLt, by simp⟩

theorem allSymbols_nodup : allSymbols.Nodup :=
  List.nodup_range.map_on fun i hi j hj hij => by
    have hi' : i < 256 := List.mem_range.1 hi
    have hj' : j < 256 := List.mem_range.1 hj
    have := congrArg BitVec.toNat hij
    rwa [BitVec.toNat_ofNat, BitVec.toNat_ofNat, Nat.mod_eq_of_lt hi', Nat.mod_eq_of_lt hj'] at this

theorem mem_present {s : State} {c : Byte} : c ∈ s.present ↔ s.freqOf c ≠ 0 := by
  simp [State.present, mem_allSymbols]

theorem present_nodup (s : State) : s.present.Nodup := allSymbols_nodup.filter _

/-- The symbols that do not occur add nothing to the sum of all counts. -/
theorem sum_present (s : State) : (s.present.map fun c => (s.freqOf c).toNat).sum = s.total := by
  rw [State.present, State.total]
  induction allSymbols with
  | nil => rfl
  | cons c cs ih =>
    by_cases hc : s.freqOf c = 0
    · rw [List.filter_cons_of_neg (by simpa using hc), ih, List.map_cons, List.sum_cons, hc]
      exact (Nat.zero_add _).symm
    · rw [List.filter_cons_of_pos (by simpa using hc), List.map_cons, List.map_cons, List.sum_cons, List.sum_cons, ih]

/-! ### BUILD's arena -/

theorem BuildResult.leaf {s t : State} {r : Idx} (h : BuildResult s t r) {j : Nat} (hj : j < s.present.length) :
    t.arena[j]? = some (s.leafFor s.present[j]) := by
  rw [← List.getElem?_take_of_lt hj, h.leaves, List.getElem?_map, List.getElem?_eq_getElem hj]
  rfl

theorem BuildResult.laid {s t : State} {r : Idx} (h : BuildResult s t r) : Laid t.arena s.present.length where
  leaf j hj := ⟨_, _, h.leaf hj⟩
  join := h.nodes
  cap := by
    have := h.next ▸ t.seqNext.isLt
    show t.arena.length ≤ 511
    omega
  count := h.count

theorem BuildResult.root_val {s t : State} {r : Idx} (h : BuildResult s t r) : r.val = 2 * s.present.length - 2 := by
  have hr := h.rooted
  rwa [h.laid.queuedAt_end, List.mem_singleton] at hr

theorem BuildResult.root_lt {s t : State} {r : Idx} (h : BuildResult s t r) : r.val < t.arena.length :=
  (mem_queuedAt.1 h.rooted).1

theorem BuildResult.tree {s t : State} {r : Idx} (h : BuildResult s t r) : t.tree = .ok (entryTree t.arena r.val) := by
  rw [State.tree, h.root]
  exact treeAt_entryTree h.laid.childrenFirst h.root_lt h.root_lt

/-- What the trees of the leaf entries are. -/
theorem BuildResult.map_leaves {s t : State} {r : Idx} (h : BuildResult s t r) {α : Type} (f : CodeTree → α) :
    (List.range s.present.length).map (fun j => f (entryTree t.arena j)) = s.present.map fun c => f (.leaf c) := by
  refine List.ext_getElem (by simp) fun j hj _ => ?_
  have hj' : j < s.present.length := by simpa using hj
  rw [List.getElem_map, List.getElem_map, List.getElem_range, entryTree_leaf h.laid.cap (h.leaf hj')]

/-- What a node of a tree adds up of its children, the tree of BUILD holds of the present symbols. -/
theorem BuildResult.sum_present {s t : State} {r : Idx} (h : BuildResult s t r) {M : Type} [AddCommMonoid M]
    (f : CodeTree → M) (hf : ∀ x y, f (.node x y) = f x + f y) :
    f (entryTree t.arena r.val) = (s.present.map fun c => f (.leaf c)).sum := by
  rw [h.root_val, h.laid.sum_leaves fun j => f (entryTree t.arena j)]
  · rw [h.map_leaves f]
  · intro j a b rest hm
    rw [hm.entryTree h.laid, hf]

/-- Each present symbol is at one leaf. -/
theorem BuildResult.symbols_perm {s t : State} {r : Idx} (h : BuildResult s t r) :
    (entryTree t.arena r.val).symbols.Perm s.present := by
  rw [← Multiset.coe_eq_coe, h.sum_present (fun tr => (tr.symbols : Multiset Byte)) fun x y => (Multiset.coe_add _ _).symm]
  exact Multiset.sum_map_singleton (s.present : Multiset Byte)

theorem BuildResult.weight_root {s t : State} {r : Idx} (h : BuildResult s t r) :
    ((entryTree t.arena r.val).weight fun c => (s.freqOf c).toNat) = s.total := by
  rw [h.sum_present _ (CodeTree.weight_node _), ← Machine.sum_present]
  simp only [CodeTree.weight_leaf]

/-- Every entry holds the sum of the counts of its tree's symbols. -/
theorem BuildResult.weight_entry {s t : State} {r : Idx} (h : BuildResult s t r) {j : Nat} {nd : Node}
    (hj : t.arena[j]? = some nd) : nd.weight.toNat = (entryTree t.arena j).weight fun c => (s.freqOf c).toNat := by
  have hfreq : ∀ c, t.freqOf c = s.freqOf c := fun c => by rw [h.frame]; rfl
  simpa only [hfreq] using h.laid.weight_entryTree h.exact hj

theorem exec_build_of_symbol {s : State} (h : s.Inv) (hm : s.mode = .idle) (hr : s.root = none) (h0 : s.present ≠ []) :
    ∃ t r, exec .build s = .next t ∧ BuildResult s t r := by
  have ha := arenaInv_empty (running_of_inv h (by simp [hm])).arena hr
  obtain ⟨t, r, ht, hres⟩ := buildBody_of_symbol hm hr ha h0
  exact ⟨t, r, by rw [exec_of_idle hm, body, ht, toOutcome_ok], hres⟩

theorem exec_build_of_no_symbol {s : State} (h : s.Inv) (hm : s.mode = .idle) (hr : s.root = none) (h0 : s.present = []) :
    exec .build s = .next { s with pq := [], seqNext := 0 } := by
  have ha := arenaInv_empty (running_of_inv h (by simp [hm])).arena hr
  rw [exec_of_idle hm, body, buildBody_of_no_symbol hm hr ha h0, toOutcome_ok]

/-- Settles O31: with no count but 0 no symbol is present. -/
theorem buildOfZeroTableMakesNoTree : Obligations.BuildOfZeroTableMakesNoTree := by
  intro s hinv hm hr h0
  obtain ⟨-, harena, herr, -⟩ := running_of_inv hinv (by simp [hm])
  have hnone : s.present = [] := List.eq_nil_iff_forall_not_mem.2 fun c hc => mem_present.1 hc (h0 c)
  exact ⟨_, exec_build_of_no_symbol hinv hm hr hnone, rfl, by simp [arenaInv_empty harena hr], herr,
    by simp [State.treePresent, hr]⟩

/-- Settles O33: the loops make R110's arena, and in such an arena every tree is full and sums are those of the leaves. -/
theorem buildMakesAFullTreeOfThePresentSymbols : Obligations.BuildMakesAFullTreeOfThePresentSymbols := by
  intro s hinv hm hr h0
  obtain ⟨t, r, ht, h⟩ := exec_build_of_symbol hinv hm hr h0
  have hnd := List.getElem?_eq_getElem h.root_lt
  have hcount : t.arena.length = 2 * s.present.length - 1 := by have := h.count; omega
  refine ⟨t, entryTree t.arena r.val, r, t.arena[r.val]'h.root_lt, ht, hcount, h.root, h.root_val, h.leaves, h.nodes, h.tree,
    ⟨h.laid.entryTree_full h.root_lt, h.symbols_perm.nodup_iff.2 (present_nodup s)⟩,
    fun c => h.symbols_perm.mem_iff.trans mem_present, ?_, hnd, (h.weight_entry hnd).trans h.weight_root,
    h.next.trans hcount, h.frame⟩
  rw [h.root]
  exact h.laid.bareLeaves h.root_lt h.root_lt

/-- Settles O32: R110's arena of one leaf has no node behind it. -/
theorem buildOfOneSymbolMakesABareLeaf : Obligations.BuildOfOneSymbolMakesABareLeaf := by
  intro s c hinv hm hr hc hothers
  have hpresent : s.present = [c] := by
    refine List.perm_singleton.1 ((List.perm_ext_iff_of_nodup (present_nodup s) (List.nodup_singleton c)).2 fun d => ?_)
    rw [mem_present, List.mem_singleton]
    exact ⟨fun hd => by_contra fun hne => hd (hothers d hne), fun hd => hd ▸ hc⟩
  obtain ⟨t, r, ht, h⟩ := exec_build_of_symbol hinv hm hr (by simp [hpresent])
  have hcount := h.count
  have hleaves := h.leaves
  have hnext := h.next
  have hroot := h.root_val
  simp only [hpresent, List.length_singleton, List.map_singleton] at hcount hleaves hroot
  have harena : t.arena = [s.leafFor c] := by rwa [List.take_of_length_le (by omega)] at hleaves
  have hseq : t.seqNext = 1 := BitVec.eq_of_toNat_eq (hnext.trans (by rw [harena]; rfl))
  have hr0 : t.root = some 0 := h.root.trans (congrArg some (Fin.ext hroot))
  refine ⟨t, ht, ?_, State.treeSingle_of_some (nd := s.leafFor c) hr0 (by rw [harena]; rfl)⟩
  rw [h.frame, harena, hr0, hseq]

/-! ### The queue order determines the arena -/

theorem entryBefore_trans {arena : List Node} {i j k : Nat} (hij : entryBefore arena i j) (hjk : entryBefore arena j k) :
    entryBefore arena i k := by
  obtain ⟨ni, nj, hi, hj, hlt⟩ := hij
  obtain ⟨nj', nk, hj', hk, hlt'⟩ := hjk
  cases hj.symm.trans hj'
  refine ⟨ni, nk, hi, hk, ?_⟩
  simp only [BitVec.lt_def, ← BitVec.toNat_inj] at *
  omega

/-- The first of the queue stands before every other queued entry. -/
theorem entryBefore_of_first {arena : List Node} {queue : List Nat} {a b i : Nat} (hab : entryBefore arena a b)
    (hrest : ∀ i ∈ queue, i ≠ a → i ≠ b → entryBefore arena b i) (hi : i ∈ queue) (hia : i ≠ a) : entryBefore arena a i := by
  by_cases hib : i = b
  · exact hib ▸ hab
  · exact entryBefore_trans hab (hrest i hi hia hib)

/-- What an entry joins depends on the entries below it alone. -/
theorem JoinsFirst.take {arena : List Node} {j : Nat} {n : Node} (h : JoinsFirst arena j n) :
    JoinsFirst (arena.take j) j n := by
  obtain ⟨a, b, na, nb, hn, hna, hnb, ha, hb, hab, hrest⟩ := h
  have hqueue : queuedAt (arena.take j) j = queuedAt arena j := by rw [queuedAt, queuedAt, List.take_take, min_self]
  have hbelow : ∀ i ∈ queuedAt arena j, (arena.take j)[i]? = arena[i]? := fun i hi =>
    List.getElem?_take_of_lt (mem_queuedAt.1 hi).1
  have hbefore : ∀ i k, i ∈ queuedAt arena j → k ∈ queuedAt arena j → entryBefore arena i k →
      entryBefore (arena.take j) i k := fun i k hi hk h => by
    rwa [entryBefore, hbelow i hi, hbelow k hk]
  rw [JoinsFirst, hqueue]
  exact ⟨a, b, na, nb, hn, (hbelow _ ha).trans hna, (hbelow _ hb).trans hnb, ha, hb, hbefore _ _ ha hb hab,
    fun i hi hia hib => hbefore _ _ hb hi (hrest i hi hia hib)⟩

/-- The first two in queue order are unique, and so is the node that joins them (R107). -/
theorem JoinsFirst.unique {arena : List Node} {j : Nat} {n n' : Node} (h : JoinsFirst arena j n)
    (h' : JoinsFirst arena j n') : n = n' := by
  obtain ⟨a, b, na, nb, rfl, hna, hnb, ha, hb, hab, hrest⟩ := h
  obtain ⟨a', b', na', nb', rfl, hna', hnb', ha', hb', hab', hrest'⟩ := h'
  obtain rfl : a = a' := Fin.ext (by_contra fun hne =>
    entryBefore_irrefl (entryBefore_trans (entryBefore_of_first hab hrest ha' (Ne.symm hne))
      (entryBefore_of_first hab' hrest' ha hne)))
  have hba : b.val ≠ a.val := fun hba => entryBefore_irrefl (hba ▸ hab)
  have hba' : b'.val ≠ a.val := fun hba => entryBefore_irrefl (hba ▸ hab')
  obtain rfl : b = b' := Fin.ext (by_contra fun hne =>
    entryBefore_irrefl (entryBefore_trans (hrest _ hb' hba' (Ne.symm hne)) (hrest' _ hb hba hne)))
  cases hna.symm.trans hna'
  cases hnb.symm.trans hnb'
  rfl

/-- Two runs of BUILD over one table leave one arena. -/
theorem BuildResult.arena_eq {s s' t t' : State} {r r' : Idx} (h : BuildResult s t r) (h' : BuildResult s' t' r')
    (hp : s'.present = s.present) (hl : ∀ c, s'.leafFor c = s.leafFor c) : t.arena = t'.arena := by
  have hlen : t.arena.length = t'.arena.length := by
    have hcount := h.count
    have hcount' := h'.count
    rw [hp] at hcount'
    omega
  have htake : ∀ j ≤ t.arena.length, t.arena.take j = t'.arena.take j := by
    intro j
    induction j with
    | zero => intro _; rfl
    | succ j ih =>
      intro hj
      have hj' : j < t'.arena.length := by omega
      have hn := List.getElem?_eq_getElem hj
      have hn' := List.getElem?_eq_getElem hj'
      have hentry : t.arena[j] = t'.arena[j] := by
        by_cases hL : j < s.present.length
        · have hleaf := h.leaf hL
          have hleaf' := h'.leaf (hp ▸ hL)
          simp only [hp, hl] at hleaf'
          exact Option.some.inj (hn.symm.trans (hleaf.trans (hleaf'.symm.trans hn')))
        · have hjoin := (h.nodes j _ (by omega) hn).take
          rw [ih (by omega)] at hjoin
          exact hjoin.unique (h'.nodes j _ (by rw [hp]; omega) hn').take
      rw [List.take_succ_eq_append_getElem hj, List.take_succ_eq_append_getElem hj', hentry, ih (by omega)]
  have hall := htake t.arena.length le_rfl
  rwa [List.take_length, hlen, List.take_length] at hall

/-- Settles O35: the layout of O33 leaves no choice, and without a symbol nothing is made. -/
theorem buildIsAFunctionOfTheTable : Obligations.BuildIsAFunctionOfTheTable := by
  intro s s' hinv hinv' hm hm' hr hr' hfreq
  have hp : s'.present = s.present := by simp only [State.present, hfreq]
  by_cases h0 : s.present = []
  · refine ⟨_, _, exec_build_of_no_symbol hinv hm hr h0, exec_build_of_no_symbol hinv' hm' hr' (hp.trans h0), ?_,
      hr.trans hr'.symm⟩
    exact (arenaInv_empty (running_of_inv hinv (by simp [hm])).arena hr).trans
      (arenaInv_empty (running_of_inv hinv' (by simp [hm'])).arena hr').symm
  · obtain ⟨t, r, ht, h⟩ := exec_build_of_symbol hinv hm hr h0
    obtain ⟨t', r', ht', h'⟩ := exec_build_of_symbol hinv' hm' hr' (by rwa [hp])
    refine ⟨t, t', ht, ht', h.arena_eq h' hp fun c => by simp only [State.leafFor, hfreq], ?_⟩
    rw [h.root, h'.root]
    exact congrArg some (Fin.ext (by rw [h.root_val, h'.root_val, hp]))

end Sys2Proof.Machine
end

section
/-! PROOFS. O50 and the ground for O36: the cost of a tree, read off its table and by its two children. -/

namespace Sys2Proof.Machine

open Sys2Proof Host

/-- The cost sums weight times depth over the table (R112). -/
theorem CodeTree.cost_eq_table_sum (w : Byte → Nat) (t : CodeTree) (d : Nat) :
    t.cost w d = (t.table.map fun q => w q.1 * (q.2.length + d)).sum := by
  induction t generalizing d with
  | empty => rfl
  | leaf c => simp [CodeTree.cost, CodeTree.table, CodeTree.leaves]
  | node l r hl hr =>
    rw [CodeTree.cost, hl, hr, CodeTree.table_node, List.map_append, List.sum_append, List.map_map, List.map_map]
    simp only [Function.comp_def, List.length_cons, Nat.add_assoc, Nat.add_comm 1]

/-- A tree deeper down costs its weight more for each level. -/
theorem CodeTree.cost_eq_add (w : Byte → Nat) (t : CodeTree) (d : Nat) : t.cost w d = t.cost w 0 + t.weight w * d := by
  induction t generalizing d with
  | empty => simp [CodeTree.cost, CodeTree.weight, CodeTree.symbols]
  | leaf c => simp [CodeTree.cost]
  | node l r hl hr =>
    rw [CodeTree.cost, CodeTree.cost, hl, hr, hl 1, hr 1, CodeTree.weight_node]
    ring

@[simp] theorem CodeTree.cost_leaf (w : Byte → Nat) (c : Byte) : (CodeTree.leaf c).cost w 0 = 0 := Nat.mul_zero _

/-- A node costs its children and its own weight. -/
theorem CodeTree.cost_node (w : Byte → Nat) (l r : CodeTree) :
    (CodeTree.node l r).cost w 0 = l.cost w 0 + r.cost w 0 + (l.weight w + r.weight w) := by
  rw [CodeTree.cost, l.cost_eq_add, r.cost_eq_add]
  ring

/-- Where the symbols are distinct, a symbol's code is the path of its one leaf (R140). -/
theorem codeOf_of_mem_table {t : CodeTree} (hd : t.symbols.Nodup) {q : Byte × Path} (h : q ∈ t.table) :
    t.codeOf q.1 = some q.2 := by
  obtain ⟨p, hp⟩ := codeOf_of_mem (t.table_symbols ▸ List.mem_map_of_mem h)
  have hq := List.inj_on_of_nodup_map (t.table_symbols ▸ hd) h (lookupCode_mem hp) rfl
  rw [hp, hq]

/-- Settles O50: each symbol's code is counted as often as the symbol occurs. -/
theorem encodedLengthIsTheCost : Obligations.EncodedLengthIsTheCost := by
  intro tr cs hd hcs
  have hcost : tr.cost (fun c => cs.count c) 0 =
      (tr.symbols.map fun c => cs.count c • ((tr.codeOf c).getD []).length).sum := by
    rw [CodeTree.cost_eq_table_sum, ← tr.table_symbols, List.map_map]
    refine congrArg List.sum (List.map_congr_left fun q hq => ?_)
    simp [codeOf_of_mem_table hd hq]
  rw [hcost, CodeTree.codes, List.length_flatMap, Finset.sum_list_map_count, ← List.sum_toFinset _ hd]
  refine Finset.sum_subset (fun c hc => ?_) fun c _ hc => ?_
  · exact List.mem_toFinset.2 (hcs c (List.mem_toFinset.1 hc))
  · rw [List.count_eq_zero_of_not_mem (fun h => hc (List.mem_toFinset.2 h)), zero_smul]

end Sys2Proof.Machine
end

section
/-! PROOFS. O36: no full tree costs less than BUILD's. Every step of BUILD joins two nodes of least weight; in any other tree
two leaves of least weight can be put at the two deepest places, which are the children of one node. -/

namespace Sys2Proof.Machine

open Sys2Proof Host

/-! ### The depths of a tree's leaves -/

/-- The depths of the leaves. -/
def CodeTree.depths (t : CodeTree) : Multiset Nat := (t.table : Multiset (Byte × Path)).map fun q => q.2.length

theorem CodeTree.depths_leaf (c : Byte) : (CodeTree.leaf c).depths = {0} := rfl

theorem CodeTree.depths_node (l r : CodeTree) :
    (CodeTree.node l r).depths = l.depths.map (· + 1) + r.depths.map (· + 1) := by
  simp [CodeTree.depths, CodeTree.table_node, Function.comp_def]

theorem CodeTree.le_depth_of_mem_depths {t : CodeTree} {d : Nat} (h : d ∈ t.depths) : d ≤ t.depth := by
  induction t generalizing d with
  | empty => exact absurd h (Multiset.notMem_zero d)
  | leaf c => exact (Multiset.mem_singleton.1 h).le
  | node l r hl hr =>
    rw [CodeTree.depths_node, Multiset.mem_add, Multiset.mem_map, Multiset.mem_map] at h
    obtain ⟨e, he, rfl⟩ | ⟨e, he, rfl⟩ := h
    · exact Nat.succ_le_succ ((hl he).trans (le_max_left _ _))
    · exact Nat.succ_le_succ ((hr he).trans (le_max_right _ _))

/-- A full tree of depth 0 is a leaf. -/
theorem CodeTree.eq_leaf_of_depth {t : CodeTree} (hf : t.full = true) (h : t.depth = 0) : ∃ c, t = .leaf c := by
  cases t with
  | empty => cases hf
  | leaf c => exact ⟨c, rfl⟩
  | node l r => cases h

/-- In a full tree two leaves at the greatest depth have one parent; with that parent as a leaf in their place the tree is
full again. -/
theorem CodeTree.exists_deepest_pair {t : CodeTree} (hf : t.full = true) {D : Nat} (hD : t.depth = D + 1) :
    ∃ (rest : Multiset Nat) (t' : CodeTree), t.depths = (D + 1) ::ₘ (D + 1) ::ₘ rest ∧
      t'.full = true ∧ t'.depths = D ::ₘ rest := by
  induction t generalizing D with
  | empty => cases hf
  | leaf c => cases hD
  | node l r hl hr =>
    obtain ⟨hfl, hfr⟩ := Bool.and_eq_true_iff.1 hf
    have hmax : max l.depth r.depth = D := Nat.succ_injective hD
    cases D with
    | zero =>
      obtain ⟨c, rfl⟩ := CodeTree.eq_leaf_of_depth hfl (by omega)
      obtain ⟨d, rfl⟩ := CodeTree.eq_leaf_of_depth hfr (by omega)
      exact ⟨0, .leaf c, rfl, rfl, rfl⟩
    | succ D =>
      obtain hmaxl | hmaxr : l.depth = D + 1 ∨ r.depth = D + 1 := by omega
      · obtain ⟨rest, l', hdl, hfl', hdl'⟩ := hl hfl hmaxl
        refine ⟨rest.map (· + 1) + r.depths.map (· + 1), .node l' r, ?_, by rw [CodeTree.full, hfl', hfr]; rfl, ?_⟩
        · rw [CodeTree.depths_node, hdl, Multiset.map_cons, Multiset.map_cons, Multiset.cons_add, Multiset.cons_add]
        · rw [CodeTree.depths_node, hdl', Multiset.map_cons, Multiset.cons_add]
      · obtain ⟨rest, r', hdr, hfr', hdr'⟩ := hr hfr hmaxr
        refine ⟨l.depths.map (· + 1) + rest.map (· + 1), .node l r', ?_, by rw [CodeTree.full, hfl, hfr']; rfl, ?_⟩
        · rw [CodeTree.depths_node, hdr, Multiset.map_cons, Multiset.map_cons, Multiset.add_cons, Multiset.add_cons]
        · rw [CodeTree.depths_node, hdr', Multiset.map_cons, Multiset.add_cons]

/-! ### Weights placed at depths -/

/-- The cost of weights, each placed at a depth. -/
def placedCost (P : Multiset (Nat × Nat)) : Nat := (P.map fun q => q.1 * q.2).sum

theorem placedCost_cons (q : Nat × Nat) (P : Multiset (Nat × Nat)) : placedCost (q ::ₘ P) = q.1 * q.2 + placedCost P := by
  rw [placedCost, Multiset.map_cons, Multiset.sum_cons, placedCost]

/-- The least weight can be moved to the greatest depth: what stood there takes its place, at no greater cost. -/
theorem exists_least_deepest {P : Multiset (Nat × Nat)} {x D : Nat} {ws ds : Multiset Nat}
    (hw : P.map Prod.fst = x ::ₘ ws) (hd : P.map Prod.snd = D ::ₘ ds) (hx : ∀ w ∈ ws, x ≤ w) (hD : ∀ d ∈ ds, d ≤ D) :
    ∃ Q : Multiset (Nat × Nat), Q.map Prod.fst = ws ∧ Q.map Prod.snd = ds ∧ x * D + placedCost Q ≤ placedCost P := by
  obtain ⟨p, hp, rfl, hpw⟩ := (Multiset.map_eq_cons ..).2 hw
  obtain ⟨q, hq, rfl, hqd⟩ := (Multiset.map_eq_cons ..).2 hd
  by_cases hpq : q = p
  · subst hpq
    refine ⟨P.erase q, hpw, hqd, ?_⟩
    rw [← placedCost_cons, Multiset.cons_erase hp]
  · obtain ⟨R, rfl⟩ := Multiset.exists_cons_of_mem hp
    obtain ⟨Q, rfl⟩ := Multiset.exists_cons_of_mem ((Multiset.mem_cons.1 hq).resolve_left hpq)
    rw [Multiset.map_cons, Multiset.cons_inj_right, Multiset.map_cons] at hw
    rw [Multiset.cons_swap, Multiset.map_cons, Multiset.cons_inj_right, Multiset.map_cons] at hd
    refine ⟨(q.1, p.2) ::ₘ Q, by rw [Multiset.map_cons, hw], by rw [Multiset.map_cons, hd], ?_⟩
    have hpq1 : p.1 ≤ q.1 := hx _ (hw ▸ Multiset.mem_cons_self _ _)
    have hpq2 : p.2 ≤ q.2 := hD _ (hd ▸ Multiset.mem_cons_self _ _)
    have hswap := mul_add_mul_le_mul_add_mul hpq1 hpq2
    simp only [placedCost_cons]
    omega

/-- The weights stand at the depths of the leaves of some full tree. -/
def PlacedInTree (P : Multiset (Nat × Nat)) : Prop := ∃ t : CodeTree, t.full = true ∧ t.depths = P.map Prod.snd

/-- The weights of a tree's symbols at the depths of their leaves. -/
def CodeTree.placed (w : Byte → Nat) (t : CodeTree) : Multiset (Nat × Nat) :=
  (t.table : Multiset (Byte × Path)).map fun q => (w q.1, q.2.length)

theorem CodeTree.placed_placedInTree (w : Byte → Nat) (t : CodeTree) (hf : t.full = true) : PlacedInTree (t.placed w) :=
  ⟨t, hf, by rw [CodeTree.placed, Multiset.map_map]; rfl⟩

theorem CodeTree.placed_fst (w : Byte → Nat) (t : CodeTree) : (t.placed w).map Prod.fst = (t.symbols.map w : List Nat) := by
  rw [CodeTree.placed, Multiset.map_map, Multiset.map_coe, ← t.table_symbols, List.map_map]
  rfl

theorem CodeTree.placedCost_placed (w : Byte → Nat) (t : CodeTree) : placedCost (t.placed w) = t.cost w 0 := by
  rw [CodeTree.cost_eq_table_sum, placedCost, CodeTree.placed, Multiset.map_map, Multiset.map_coe, Multiset.sum_coe]
  rfl

/-- Two least weights can be joined: placing their sum, in some full tree, saves it once. -/
theorem PlacedInTree.join {P : Multiset (Nat × Nat)} {x y : Nat} {ws : Multiset Nat} (hP : PlacedInTree P)
    (hw : P.map Prod.fst = x ::ₘ y ::ₘ ws) (hxy : x ≤ y) (hy : ∀ w ∈ ws, y ≤ w) :
    ∃ Q, PlacedInTree Q ∧ Q.map Prod.fst = (x + y) ::ₘ ws ∧ placedCost Q + (x + y) ≤ placedCost P := by
  obtain ⟨t, hf, ht⟩ := hP
  obtain ⟨D, hD⟩ : ∃ D, t.depth = D + 1 := by
    refine Nat.exists_eq_succ_of_ne_zero fun h0 => ?_
    obtain ⟨c, rfl⟩ := CodeTree.eq_leaf_of_depth hf h0
    have hcard := congrArg Multiset.card ht
    have hcard' := congrArg Multiset.card hw
    simp only [CodeTree.depths_leaf, Multiset.card_singleton, Multiset.card_map, Multiset.card_cons] at hcard hcard'
    omega
  have hle : ∀ d ∈ t.depths, d ≤ D + 1 := fun d hd => hD ▸ CodeTree.le_depth_of_mem_depths hd
  obtain ⟨rest, t', hdepths, hf', hdepths'⟩ := CodeTree.exists_deepest_pair hf hD
  rw [hdepths] at ht hle
  obtain ⟨P1, hw1, hd1, hcost1⟩ := exists_least_deepest hw ht.symm
    (by simpa [hxy] using fun w hw => hxy.trans (hy w hw)) fun d hd => hle d (Multiset.mem_cons_of_mem hd)
  obtain ⟨P2, hw2, hd2, hcost2⟩ := exists_least_deepest hw1 hd1 hy fun d hd =>
    hle d (Multiset.mem_cons_of_mem (Multiset.mem_cons_of_mem hd))
  refine ⟨(x + y, D) ::ₘ P2, ⟨t', hf', by rw [Multiset.map_cons, hd2, hdepths']⟩, by rw [Multiset.map_cons, hw2], ?_⟩
  rw [placedCost_cons]
  calc (x + y) * D + placedCost P2 + (x + y) = x * (D + 1) + (y * (D + 1) + placedCost P2) := by ring
    _ ≤ placedCost P := by omega

/-! ### BUILD's arena -/

/-- Queue order is the order of weight, where every entry holds its tree's weight. -/
theorem weight_le_of_entryBefore {arena : List Node} {w : Byte → Nat}
    (hx : ∀ i nd, arena[i]? = some nd → nd.weight.toNat = (entryTree arena i).weight w) {i k : Nat}
    (h : entryBefore arena i k) : (entryTree arena i).weight w ≤ (entryTree arena k).weight w := by
  obtain ⟨ni, nk, hi, hk, horder⟩ := h
  rw [← hx i ni hi, ← hx k nk hk]
  obtain hlt | ⟨heq, -⟩ := horder
  · exact (BitVec.lt_def.1 hlt).le
  · exact (congrArg BitVec.toNat heq).le

/-- From any state of the queue on, BUILD adds no more than placing the queued weights in any full tree costs. -/
theorem Laid.cost_le {arena : List Node} {L : Nat} (h : Laid arena L) {w : Byte → Nat}
    (hx : ∀ i nd, arena[i]? = some nd → nd.weight.toNat = (entryTree arena i).weight w) {k j : Nat}
    (hjk : j + k = arena.length) (hL : L ≤ j) {P : Multiset (Nat × Nat)} (hP : PlacedInTree P)
    (hw : P.map Prod.fst = ((queuedAt arena j).map fun i => (entryTree arena i).weight w : List Nat)) :
    (entryTree arena (2 * L - 2)).cost w 0 ≤
      ((queuedAt arena j).map fun i => (entryTree arena i).cost w 0).sum + placedCost P := by
  induction k generalizing j P with
  | zero =>
    obtain rfl : j = arena.length := hjk
    rw [h.queuedAt_end, List.map_singleton, List.sum_singleton]
    exact Nat.le_add_right _ _
  | succ k ih =>
    obtain ⟨a, b, rest, hm⟩ := h.mergesAt hL (by omega)
    have hnode := hm.entryTree h
    rw [Multiset.coe_eq_coe.2 (hm.before.map _), List.map_cons, List.map_cons, ← Multiset.cons_coe,
      ← Multiset.cons_coe] at hw
    obtain ⟨Q, hQ, hwQ, hcost⟩ := hP.join hw (weight_le_of_entryBefore hx hm.first) fun x hxr => by
      obtain ⟨i, hi, rfl⟩ := List.mem_map.1 (Multiset.mem_coe.1 hxr)
      exact weight_le_of_entryBefore hx (hm.others i hi)
    have hnext := ih (j := j + 1) (by omega) (by omega) hQ (by
      rw [hwQ, Multiset.coe_eq_coe.2 (hm.after.map _), List.map_cons, ← Multiset.cons_coe, hnode, CodeTree.weight_node])
    rw [(hm.after.map _).sum_eq, List.map_cons, List.sum_cons, hnode, CodeTree.cost_node] at hnext
    rw [(hm.before.map _).sum_eq, List.map_cons, List.map_cons, List.sum_cons, List.sum_cons]
    omega

/-- The tree of BUILD costs no more than another full tree over the same symbols. -/
theorem BuildResult.cost_le {s t : State} {r : Idx} (h : BuildResult s t r) {other : CodeTree} (hf : other.full = true)
    (hp : other.symbols.Perm s.present) :
    (entryTree t.arena r.val).cost (fun c => (s.freqOf c).toNat) 0 ≤ other.cost (fun c => (s.freqOf c).toNat) 0 := by
  have hcount := h.count
  have hle := h.laid.cost_le (fun i nd hi => h.weight_entry hi) (k := t.arena.length - s.present.length) (by omega) le_rfl
    (other.placed_placedInTree _ hf) (by
      rw [h.laid.queuedAt_leaves, h.map_leaves, CodeTree.placed_fst, Multiset.coe_eq_coe]
      simpa using hp.map fun c => (s.freqOf c).toNat)
  rw [h.laid.queuedAt_leaves, h.map_leaves fun tr => tr.cost _ 0, CodeTree.placedCost_placed, ← h.root_val] at hle
  simpa using hle

/-- Settles O36: without a symbol the cost is 0; with one, BUILD joins least weights only. -/
theorem buildIsOptimal : Obligations.BuildIsOptimal := by
  intro s t tr other hinv hm hr ht htr hf hperm
  by_cases h0 : s.present = []
  · rw [exec_build_of_no_symbol hinv hm hr h0] at ht
    cases ht
    cases (root_of_empty (s := { s with pq := [], seqNext := 0 }).2 hr).symm.trans htr
    exact Nat.zero_le _
  · obtain ⟨u, r, hu, h⟩ := exec_build_of_symbol hinv hm hr h0
    cases hu.symm.trans ht
    cases h.tree.symm.trans htr
    exact h.cost_le hf (hperm.trans h.symbols_perm)

end Sys2Proof.Machine
end

section
/-! PROOFS. O37 and O39: SAVE to a sink that is always ready, and LOAD of no text. -/

namespace Sys2Proof.Machine

open Sys2Proof Host

/-- SAVE to a sink that is always ready writes the whole text and ends (R122). -/
theorem exec_save_of_ready {s : State} {tr : CodeTree} (hm : s.mode = .idle) (hk : s.tblSink.room = none)
    (htr : s.tree = .ok tr) :
    exec .save s = .next { s with tblSink := { s.tblSink with written := s.tblSink.written ++ tableText tr.table } } := by
  rw [exec_save_of_tree hm htr, State.saveWrite, Sink.push_of_ready hk, if_pos rfl, ← hm]

/-- Settles O37: the arena of the invariant has a tree, and its text is written. -/
theorem saveWritesTheTable : Obligations.SaveWritesTheTable := by
  intro s hinv hm hk
  obtain ⟨tr, htr⟩ := (running_of_inv hinv (by simp [hm])).tree
  exact ⟨tr, htr, exec_save_of_ready hm hk htr⟩

/-- At a pair boundary end-of-stream ends LOAD normally (R124). -/
theorem loadEnd_of_loadPair {s : State} (hm : s.mode = .busy .loadPair) (he : s.tblSrc.ended = true) :
    s.loadEnd = s.done := by
  simp only [State.loadEnd, he, if_true, hm]

/-- Settles O39: LOAD stands at a pair boundary when it meets end-of-stream, so it ends normally. -/
theorem loadOfEmptyTextMakesNoTree : Obligations.LoadOfEmptyTextMakesNoTree := by
  intro s hm hr hsrc
  have hbody : s.loadBody = .ok s := by
    rw [loadBody_of_no_root hr, State.loadRun, hsrc, loadBytes_nil, loadEnd_of_loadPair rfl rfl, State.done, ← hm, ← hsrc]
  exact (exec_of_idle hm .load).trans (congrArg toOutcome hbody)

end Sys2Proof.Machine
end

section
/-! PROOFS. O40, the tree: the paths of a tree's nodes, and an arena whose walks arrive at exactly those paths, with the
tree's symbols there, denotes the tree. -/

namespace Sys2Proof.Machine

open Sys2Proof Host

/-! ### The paths of a tree's nodes -/

/-- The paths that lead to a node of the tree, a leaf or not; `mem_paths_iff` ties them to the table. -/
def CodeTree.paths : CodeTree → List Path
  | .empty => []
  | .leaf _ => [[]]
  | .node l r => [] :: (l.paths.map (false :: ·) ++ r.paths.map (true :: ·))

theorem CodeTree.paths_length (t : CodeTree) : t.paths.length = t.size := by
  induction t with
  | empty => rfl
  | leaf c => rfl
  | node l r hl hr => simp [CodeTree.paths, CodeTree.size, hl, hr]

/-- Below a node the paths are those of the child that the first bit selects. -/
theorem CodeTree.cons_mem_paths_node {l r : CodeTree} {b : Bool} {p : Path} :
    b :: p ∈ (CodeTree.node l r).paths ↔ p ∈ (if b then r else l).paths := by
  cases b <;> simp [CodeTree.paths]

/-- A full tree has a root. -/
theorem CodeTree.nil_mem_paths {t : CodeTree} (hf : t.full = true) : [] ∈ t.paths := by
  cases t with
  | empty => cases hf
  | leaf c => exact List.mem_singleton_self _
  | node l r => exact List.mem_cons_self

theorem CodeTree.paths_nodup (t : CodeTree) : t.paths.Nodup := by
  induction t with
  | empty => exact List.nodup_nil
  | leaf c => exact List.nodup_singleton _
  | node l r hl hr =>
    refine List.nodup_cons.2 ⟨by simp, List.nodup_append'.2 ⟨?_, ?_, ?_⟩⟩
    · exact hl.map List.cons_injective
    · exact hr.map List.cons_injective
    · intro p hpl hpr
      obtain ⟨q, -, rfl⟩ := List.mem_map.1 hpl
      simp at hpr

/-- In a full tree every node is on the way to a leaf (R131). -/
theorem CodeTree.mem_paths_iff {t : CodeTree} (hf : t.full = true) {p : Path} :
    p ∈ t.paths ↔ ∃ q ∈ t.table, p <+: q.2 := by
  induction t generalizing p with
  | empty => cases hf
  | leaf c => simp [CodeTree.paths, CodeTree.table, CodeTree.leaves]
  | node l r hl hr =>
    obtain ⟨hfl, hfr⟩ := Bool.and_eq_true_iff.1 hf
    have hchild : ∀ (b : Bool) (p : Path), p ∈ (if b then r else l).paths ↔
        ∃ q ∈ (if b then r else l).table, p <+: q.2 := fun b p => by
      cases b
      · exact hl hfl
      · exact hr hfr
    cases p with
    | nil =>
      obtain ⟨q, hq, -⟩ := (hchild false []).1 (CodeTree.nil_mem_paths hfl)
      have hq' : (q.1, false :: q.2) ∈ (CodeTree.node l r).table := CodeTree.mem_table_node.2 ⟨false, q.2, rfl, hq⟩
      exact iff_of_true List.mem_cons_self ⟨_, hq', List.nil_prefix⟩
    | cons b p =>
      rw [CodeTree.cons_mem_paths_node, hchild]
      constructor
      · rintro ⟨q, hq, hpq⟩
        exact ⟨(q.1, b :: q.2), CodeTree.mem_table_node.2 ⟨b, q.2, rfl, hq⟩, List.cons_prefix_cons.2 ⟨rfl, hpq⟩⟩
      · rintro ⟨⟨c, _⟩, hq, hpq⟩
        obtain ⟨b', q, rfl, hq'⟩ := CodeTree.mem_table_node.1 hq
        obtain ⟨rfl, hpq'⟩ := List.cons_prefix_cons.1 hpq
        exact ⟨(c, q), hq', hpq'⟩

/-! ### Sizes -/

/-- A full tree with `L` leaves has `2L - 1` nodes (R131). -/
theorem CodeTree.size_of_full {t : CodeTree} (hf : t.full = true) : t.size + 1 = 2 * t.symbols.length := by
  induction t with
  | empty => cases hf
  | leaf c => rfl
  | node l r hl hr =>
    obtain ⟨hfl, hfr⟩ := Bool.and_eq_true_iff.1 hf
    have := hl hfl
    have := hr hfr
    rw [CodeTree.size, CodeTree.symbols, List.length_append]
    omega

/-- A well-formed tree fits the arena: no two leaves hold one symbol (R131). -/
theorem CodeTree.size_le_nodeCap {t : CodeTree} (hwf : t.wf) : t.size ≤ Config.nodeCap := by
  obtain ⟨hfull, hnodup⟩ := hwf
  have hcard : t.symbols.length ≤ 256 := by
    simpa using (hnodup.map fun _ _ => BitVec.toFin_inj.1).length_le_card
  have := CodeTree.size_of_full hfull
  show t.size ≤ 511
  omega

theorem CodeTree.depth_lt_size {t : CodeTree} (hf : t.full = true) : t.depth < t.size := by
  induction t with
  | empty => cases hf
  | leaf c => exact Nat.one_pos
  | node l r hl hr =>
    obtain ⟨hfl, hfr⟩ := Bool.and_eq_true_iff.1 hf
    have := hl hfl
    have := hr hfr
    rw [CodeTree.depth, CodeTree.size]
    omega

/-! ### Arenas that hold a tree -/

/-- Walks from the link arrive at exactly the paths of the tree's nodes, and the entries there hold the tree's symbols. -/
structure HoldsTree (arena : List Node) (l : Link) (t : CodeTree) : Prop where
  reaches : ∀ p, (walk arena l p).isSome = true ↔ p ∈ t.paths
  entry : ∀ (p : Path) (i : Idx), walk arena l p = some i →
    ∃ nd, arena[i.val]? = some nd ∧ ∀ c, nd.sym = .symbol c ↔ (c, p) ∈ t.table

/-- The record of the root of a full tree. -/
theorem HoldsTree.root {arena : List Node} {l : Link} {t : CodeTree} (h : HoldsTree arena l t) (hf : t.full = true) :
    ∃ i nd, l = some i ∧ arena[i.val]? = some nd ∧ ∀ c, nd.sym = .symbol c ↔ (c, []) ∈ t.table := by
  obtain ⟨i, hi⟩ := Option.isSome_iff_exists.1 ((h.reaches []).2 (CodeTree.nil_mem_paths hf))
  obtain ⟨nd, hnd, hsym⟩ := h.entry [] i hi
  exact ⟨i, nd, by rwa [walk_nil] at hi, hnd, hsym⟩

/-- Below the root of a node, its children are held. -/
theorem HoldsTree.child {arena : List Node} {i : Idx} {nd : Node} {l r : CodeTree}
    (h : HoldsTree arena (some i) (.node l r)) (hnd : arena[i.val]? = some nd) (b : Bool) :
    HoldsTree arena (nd.child b) (if b then r else l) where
  reaches p := by rw [← walk_cons hnd, h.reaches, CodeTree.cons_mem_paths_node]
  entry p k hk := by
    rw [← walk_cons hnd] at hk
    obtain ⟨x, hx, hsym⟩ := h.entry (b :: p) k hk
    refine ⟨x, hx, fun c => (hsym c).trans ?_⟩
    rw [CodeTree.mem_table_node]
    simp

/-- An arena that holds a full tree denotes it, with bare leaves, within any bound above its depth (R19). -/
theorem HoldsTree.denotes {arena : List Node} {l : Link} {t : CodeTree} (h : HoldsTree arena l t) (hf : t.full = true)
    {n : Nat} (hn : t.depth < n) : treeAt n arena l = .ok t ∧ bareLeaves n arena l = true := by
  induction t generalizing l n with
  | empty => cases hf
  | leaf c =>
    obtain ⟨i, nd, rfl, hnd, hsym⟩ := h.root hf
    obtain ⟨n, rfl⟩ := Nat.exists_eq_succ_of_ne_zero hn.ne_bot
    have hs : nd.sym = .symbol c := (hsym c).2 (List.mem_singleton_self _)
    have hbare : ∀ b, nd.child b = none := fun b => by
      have hb := h.reaches [b]
      rw [walk_cons hnd, walk_nil] at hb
      simpa [CodeTree.paths] using hb
    refine ⟨treeAt_leaf (readNode_eq_ok.2 hnd) hs, ?_⟩
    simp only [bareLeaves, readNode_eq_ok.2 hnd, hs, show nd.left = none from hbare false,
      show nd.right = none from hbare true, Option.isNone_none, Bool.and_self]
  | node x y hx hy =>
    obtain ⟨hfx, hfy⟩ := Bool.and_eq_true_iff.1 hf
    obtain ⟨i, nd, rfl, hnd, hsym⟩ := h.root hf
    obtain ⟨n, rfl⟩ := Nat.exists_eq_succ_of_ne_zero hn.ne_bot
    have hs : nd.sym = .sentinel := by
      cases hc : nd.sym with
      | sentinel => rfl
      | symbol c =>
        obtain ⟨b, q, hq, -⟩ := CodeTree.mem_table_node.1 ((hsym c).1 hc)
        cases hq
    rw [CodeTree.depth] at hn
    obtain ⟨htx, hbx⟩ := hx (h.child hnd false) hfx (n := n) (by omega)
    obtain ⟨hty, hby⟩ := hy (h.child hnd true) hfy (n := n) (by omega)
    refine ⟨treeAt_node (readNode_eq_ok.2 hnd) hs htx hty, ?_⟩
    simp only [bareLeaves, readNode_eq_ok.2 hnd, hs, Bool.and_eq_true]
    exact ⟨hbx, hby⟩

end Sys2Proof.Machine
end

section
/-! PROOFS. O40 and O41: the lines of a tree's table ask for the nodes of the tree and place its symbols, in any order of the
pairs; so what LOAD builds from them (O43) is the tree. -/

namespace Sys2Proof.Machine

open Sys2Proof Host

/-! ### The lines of a table -/

/-- The pairs of a table as lines, each symbol by its numeral (R120); `tableText_eq_lineText` ties them to the text. -/
def tableLines (pairs : List (Byte × Path)) : List (List Byte × Path) := pairs.map fun q => (dec q.1, q.2)

theorem tableText_eq_lineText (pairs : List (Byte × Path)) : tableText pairs = (tableLines pairs).flatMap lineText := by
  rw [tableText, tableLines, List.flatMap_map]
  rfl

/-- The numeral of a symbol is read back as the symbol (R78, R79). -/
theorem decValue_dec (c : Byte) : BitVec.ofNat 8 (decValue (dec c)) = c := by
  rw [(decIsTheShortestNumeral c).1, BitVec.ofNat_toNat, BitVec.setWidth_eq]

/-- LOAD accepts the numeral of every symbol. -/
theorem dec_isNumeral (c : Byte) : isNumeral (dec c) := by
  obtain ⟨hval, hdigits, hlen⟩ := decIsTheShortestNumeral c
  have hc := c.isLt
  obtain ⟨h1, h3⟩ : 1 ≤ (dec c).length ∧ (dec c).length ≤ 3 := by rw [hlen]; split_ifs <;> decide
  exact ⟨hdigits, h1, h3, by omega⟩

theorem tableLines_isNumeral {pairs : List (Byte × Path)} : ∀ q ∈ tableLines pairs, isNumeral q.1 := by
  intro q hq
  obtain ⟨e, -, rfl⟩ := List.mem_map.1 hq
  exact dec_isNumeral e.1

/-- The lines of a full tree's table ask for exactly the tree's nodes (R131, R132). -/
theorem mem_nodePaths_tableLines {tr : CodeTree} {pairs : List (Byte × Path)} (hf : tr.full = true)
    (hperm : pairs.Perm tr.table) {p : Path} : p ∈ nodePaths (tableLines pairs) ↔ p ∈ tr.paths := by
  rw [mem_nodePaths, CodeTree.mem_paths_iff hf]
  simp only [tableLines, List.mem_map, exists_exists_and_eq_and, hperm.mem_iff]

theorem nodePaths_tableLines_length {tr : CodeTree} {pairs : List (Byte × Path)} (hf : tr.full = true)
    (hperm : pairs.Perm tr.table) : (nodePaths (tableLines pairs)).length = tr.size := by
  rw [← tr.paths_length]
  exact ((List.perm_ext_iff_of_nodup (List.nodup_dedup _) tr.paths_nodup).2 fun _ =>
    mem_nodePaths_tableLines hf hperm).length_eq

/-- A path holds the sentinel if no pair has it, and else the symbol of a pair that has it (R126). -/
theorem placedAt_cases (lines : List (List Byte × Path)) (p : Path) :
    (placedAt lines p = .sentinel ∧ ∀ q ∈ lines, q.2 ≠ p) ∨
    ∃ q ∈ lines, q.2 = p ∧ placedAt lines p = .symbol (BitVec.ofNat 8 (decValue q.1)) := by
  unfold placedAt
  split
  next q hq =>
    exact .inr ⟨q, List.mem_reverse.1 (List.mem_of_find?_eq_some hq), eq_of_beq (List.find?_some hq :), rfl⟩
  next hnone =>
    exact .inl ⟨rfl, fun q hq heq => List.find?_eq_none.1 hnone q (List.mem_reverse.2 hq) (beq_iff_eq.2 heq)⟩

/-- The lines of a tree's table place the tree's symbols, whatever their order: no two leaves share a path (R132). -/
theorem placedAt_tableLines {tr : CodeTree} {pairs : List (Byte × Path)} (hperm : pairs.Perm tr.table) {p : Path}
    {c : Byte} : placedAt (tableLines pairs) p = .symbol c ↔ (c, p) ∈ tr.table := by
  obtain ⟨hsen, hno⟩ | ⟨_, hq, hp, hsym⟩ := placedAt_cases (tableLines pairs) p
  · rw [hsen]
    refine iff_of_false nofun fun hc => ?_
    exact hno (dec c, p) (List.mem_map.2 ⟨(c, p), hperm.mem_iff.2 hc, rfl⟩) rfl
  · obtain ⟨⟨d, q⟩, hd, rfl⟩ := List.mem_map.1 hq
    obtain rfl : q = p := hp
    have hd' : (d, q) ∈ tr.table := hperm.mem_iff.1 hd
    rw [hsym, decValue_dec, NodeSym.symbol.injEq]
    refine ⟨fun hdc => hdc ▸ hd', fun hc => ?_⟩
    exact (codesArePrefixFree tr d c q q hd' hc List.prefix_rfl).1

/-! ### LOAD of a table -/

/-- Settles O40: LOAD makes the nodes that the lines ask for and places their symbols (O43), and these are the tree's. -/
theorem loadRebuildsTheTree : Obligations.LoadRebuildsTheTree := by
  intro s tr pairs hinv hm hr hwf hperm hsrc
  have ⟨hf, _⟩ := hwf
  have hlen := nodePaths_tableLines_length hf hperm
  obtain ⟨t, ht, hcount, hreach, hentry, hframe⟩ := loadAcceptsMalformedTables.1 s (tableLines pairs) hinv hm hr
    tableLines_isNumeral (hlen.trans_le (CodeTree.size_le_nodeCap hwf)) (by rw [hsrc, tableText_eq_lineText])
  have hsize : t.nodeCount = tr.size := hcount.trans hlen
  have hholds : HoldsTree t.arena t.root tr :=
    { reaches := fun p => (hreach p).trans (mem_nodePaths_tableLines hf hperm)
      entry := fun p i hi => by
        obtain ⟨nd, hnd, hsym, -⟩ := hentry p i hi
        exact ⟨nd, hnd, fun c => by rw [hsym, placedAt_tableLines hperm]⟩ }
  obtain ⟨htree, hbare⟩ := hholds.denotes hf (hsize ▸ CodeTree.depth_lt_size hf)
  have hempty : s.arena = [] := arenaInv_empty (running_of_inv hinv (by simp [hm])).arena hr
  obtain ⟨-, -, hweight⟩ := (treeCommandFrames.1 s t).2 ht
  exact ⟨t, ht, htree, hbare, hsize, hweight (by simp [hempty]), hframe⟩

/-- LOAD of what SAVE writes for a well-formed tree, or for none, ends with that tree and leaves the sink alone (R129). -/
theorem exec_load_of_table {s : State} {tr : CodeTree} (hinv : s.Inv) (hm : s.mode = .idle) (hr : s.root = none)
    (htr : tr.wf ∨ tr = .empty) (hsrc : s.tblSrc = ⟨tableText tr.table, true⟩) :
    ∃ t, exec .load s = .next t ∧ t.tree = .ok tr ∧ t.mode = .idle ∧ t.err = .none ∧ t.tblSink = s.tblSink := by
  obtain ⟨-, -, herr, -⟩ := running_of_inv hinv (by simp [hm])
  obtain hwf | rfl := htr
  · obtain ⟨t, ht, htree, -, -, -, hframe⟩ := loadRebuildsTheTree s tr tr.table hinv hm hr hwf (.refl _) hsrc
    refine ⟨t, ht, htree, ?_, ?_, ?_⟩ <;> rw [hframe]
    · exact hm
    · exact herr
  · exact ⟨s, loadOfEmptyTextMakesNoTree s hm hr hsrc, root_of_empty.2 hr, hm, herr, rfl⟩

/-- Settles O41: the tree that LOAD rebuilds has the table that was saved. -/
theorem saveThenLoadKeepsTheTree : Obligations.SaveThenLoadKeepsTheTree := by
  intro s r tr _ hm hk htree htr hrinv hrm hrr hrk
  have hsave := exec_save_of_ready hm (by rw [hk]) htree
  obtain ⟨r1, hload, htree1, hm1, herr1, hk1⟩ := exec_load_of_table (tr := tr)
    (s := { r with tblSrc := ⟨s.tblSink.written ++ tableText tr.table, true⟩ }) hrinv hrm hrr htr (by simp [hk])
  refine ⟨_, r1, _, hsave, hload, htree1, hm1, herr1, exec_save_of_ready hm1 (by rw [hk1, hrk]) htree1, ?_⟩
  simp only [hk1, hrk, hk]

end Sys2Proof.Machine
end

section
/-! PROOFS. O47 to O49: ENCODE of symbols that have codes, and of the first symbol that has none. -/

namespace Sys2Proof.Machine

open Sys2Proof Host

/-- A symbol at no leaf has no code (R140). -/
theorem codeOf_of_not_mem {t : CodeTree} {c : Byte} (h : c ∉ t.symbols) : t.codeOf c = none := by
  cases hp : t.codeOf c with
  | none => rfl
  | some p => exact absurd (t.table_symbols ▸ List.mem_map_of_mem (lookupCode_mem hp)) h

/-- At end-of-stream, with no code bit left over, ENCODE ends normally (R141). -/
theorem encodeSyms_nil_ends {s : State} (hm : s.mode = .busy (.encode [])) (he : s.symSrc.ended = true) :
    encodeSyms [] s = .ok s.done := by
  simp only [encodeSyms, encodeReady_iff.2 hm, he, Bool.and_self, if_true]

/-- A symbol that faults is consumed, and is the last that ENCODE looks at (R142, R143). -/
theorem encodeSyms_fault {s : State} {c : Byte} {cs : List Byte} {code : ErrCode} {info : BitVec 9}
    (hm : s.mode = .busy (.encode [])) (h : (s.symsLeft cs).encodeSym c = .ok ((s.symsLeft cs).raise code info)) :
    encodeSyms (c :: cs) s = .ok ((s.symsLeft cs).raise code info) := by
  rw [encodeSyms_cons (encodeReady_iff.2 hm)]
  calc (s.symsLeft cs).encodeSym c >>= encodeSyms cs
      = encodeSyms cs ((s.symsLeft cs).raise code info) := by rw [h, ok_bind]
    _ = .ok ((s.symsLeft cs).raise code info) := encodeSyms_stopped rfl cs

/-- A symbol without a leaf is such a symbol (R142). -/
theorem encodeSyms_unknown {s : State} {l r : CodeTree} {c : Byte} (ht : s.tree = .ok (.node l r))
    (hm : s.mode = .busy (.encode [])) (hc : c ∉ (CodeTree.node l r).symbols) (cs : List Byte) :
    encodeSyms (c :: cs) s = .ok ((s.symsLeft cs).raise .unknownSymbol (c.setWidth 9)) :=
  encodeSyms_fault hm (encodeSym_of_unknown (s := s.symsLeft cs) ht (codeOf_of_not_mem hc))

/-- ENCODE writes the codes of the symbols of the tree that it meets first, and goes on behind them (R141). -/
theorem exec_encode_of_codes {s : State} {l r : CodeTree} {cs rest : List Byte} (hm : s.mode = .idle)
    (ht : s.tree = .ok (.node l r)) (hs : s.symSrc.units = cs ++ rest) (hc : ∀ c ∈ cs, c ∈ (CodeTree.node l r).symbols)
    (hroom : s.bitSink.hasRoom ((CodeTree.node l r).codes cs).length) :
    exec .encode s = toOutcome (encodeSyms rest { s with
      mode := .busy (.encode []), symSrc := { s.symSrc with units := rest }
      bitSink := s.bitSink.took ((CodeTree.node l r).codes cs) }) := by
  rw [exec_encode_of_idle hm, hs, encodeSyms_codes (s := { s with mode := .busy (.encode []) }) ht rfl hs hc hroom]
  rfl

/-- Settles O47: behind the codes of all the symbols ENCODE meets end-of-stream. -/
theorem encodeWritesTheCodes : Obligations.EncodeWritesTheCodes := by
  intro s l r cs hm ht hc hsrc hroom
  have hended : s.symSrc.ended = true := by rw [hsrc]
  rw [exec_encode_of_codes (rest := []) hm ht (by rw [hsrc, List.append_nil]) hc hroom, encodeSyms_nil_ends rfl,
    toOutcome_ok]
  · simp only [State.done, hended, ← hm]
  · exact hended

/-- Settles O48: behind the codes of the symbols before it, the symbol without a leaf faults. -/
theorem encodeOfUnknownSymbolFaults : Obligations.EncodeOfUnknownSymbolFaults := by
  intro s l r cs rest c e hm ht hcs hc hsrc hroom
  rw [exec_encode_of_codes hm ht (by rw [hsrc]) hcs hroom, encodeSyms_unknown (hm := rfl) (hc := hc), toOutcome_ok]
  · simp only [State.symsLeft, State.raise, hsrc]
  · exact ht

/-- ENCODE in IDLE whose first symbol faults has consumed that symbol and has written nothing (R143). -/
theorem exec_encode_of_fault {s : State} {c : Byte} {rest : List Byte} {e : Bool} {code : ErrCode} {info : BitVec 9}
    (hm : s.mode = .idle) (hsrc : s.symSrc = ⟨c :: rest, e⟩)
    (h : ∀ u : State, u.tree = s.tree → u.encodeSym c = .ok (u.raise code info)) :
    exec .encode s = .next { s with symSrc := ⟨rest, e⟩, err := code, errInfo := info, mode := .fault } := by
  obtain ⟨hunits, hended⟩ : s.symSrc.units = c :: rest ∧ s.symSrc.ended = e := by rw [hsrc]; exact ⟨rfl, rfl⟩
  rw [exec_encode_of_idle hm, hunits, encodeSyms_fault (s := { s with mode := .busy (.encode []) }) rfl (h _ rfl),
    toOutcome_ok]
  simp only [State.symsLeft, State.raise, hended]

/-- Settles O49: no tree and a single leaf each fault at the first symbol, and without a symbol ENCODE ends at once. -/
theorem encodeWithoutCodesFaults : Obligations.EncodeWithoutCodesFaults := by
  refine ⟨fun s c rest e hm hsrc => ⟨fun hr => ?_, fun d ht => ?_⟩, fun s hm hsrc => ?_⟩
  · exact exec_encode_of_fault hm hsrc fun u hu => encodeSym_of_empty (hu.trans (root_of_empty.2 hr)) c
  · exact exec_encode_of_fault hm hsrc fun u hu => encodeSym_of_leaf (hu.trans ht) c
  · obtain ⟨hunits, hended⟩ : s.symSrc.units = [] ∧ s.symSrc.ended = true := by rw [hsrc]; exact ⟨rfl, rfl⟩
    rw [exec_encode_of_idle hm, hunits, encodeSyms_nil_ends rfl, toOutcome_ok, State.done, ← hm]
    exact hended

end Sys2Proof.Machine
end

section
/-! PROOFS. O53 to O56: DECODE of whole codes, of bits that end inside a code or leave the tree, and without codes. -/

namespace Sys2Proof.Machine

open Sys2Proof Host

/-- A path in two parts goes through the subtree that the first part leads to. -/
theorem descend_append {q q' : Path} {x y : CodeTree} (h : x.descend (q ++ q') = some y) :
    ∃ z, x.descend q = some z ∧ z.descend q' = some y := by
  induction q generalizing x with
  | nil => exact ⟨x, descend_nil x, h⟩
  | cons b q ih =>
    obtain ⟨l, r, rfl, hq⟩ := descend_cons h
    obtain ⟨z, hz, hy⟩ := ih hq
    refine ⟨z, ?_, hy⟩
    cases b <;> exact hz

/-- A proper beginning of a code leads to a node that is no leaf. -/
theorem descend_of_proper_prefix {t : CodeTree} {c : Byte} {p q : Path} (hp : (c, p) ∈ t.table) (hq : q <+: p)
    (hne : q ≠ p) : ∃ l r, t.descend q = some (.node l r) := by
  obtain ⟨q', rfl⟩ := hq
  obtain ⟨z, hz, hleaf⟩ := descend_append (descend_of_mem_table hp)
  cases q' with
  | nil => exact absurd (List.append_nil q).symm hne
  | cons b q' =>
    obtain ⟨l, r, rfl, -⟩ := descend_cons hleaf
    exact ⟨l, r, hz⟩

/-- No walk comes back to the root (R20 item 2). -/
theorem walk_ne_root {s : State} (h : s.arenaInv) {l : Link} {q : Path} {i : Idx} (hq : q ≠ [])
    (hw : walk s.arena l q = some i) : s.root ≠ some i := by
  obtain ⟨q', b, rfl⟩ := (List.eq_nil_or_concat' q).resolve_left hq
  obtain ⟨j, nd, -, hnd, hb⟩ := walk_concat_eq_some.1 hw
  exact child_ne_root (s := { s with cur := j }) h (readNode_eq_ok.2 hnd) hb

/-! ### The two ends of the loop -/

/-- At end-of-stream DECODE at the root ends normally (R150). -/
theorem decodeBits_nil_at_root {s : State} {nd : Node} (hnd : readNode s.arena s.cur = .ok nd) (hs : nd.sym = .sentinel)
    (he : s.bitSrc.ended = true) (hr : s.root = some s.cur) : decodeBits [] s = .ok s.done := by
  rw [decodeBits_nil, decodeTop_of_node hnd hs, ok_bind]
  simp only [State.decodeEnd, he, if_true, if_pos hr]

/-- At end-of-stream DECODE at another inner node faults (R152). -/
theorem decodeBits_nil_inside {s : State} {nd : Node} (hnd : readNode s.arena s.cur = .ok nd) (hs : nd.sym = .sentinel)
    (he : s.bitSrc.ended = true) (hr : s.root ≠ some s.cur) : decodeBits [] s = .ok (s.raise .truncatedStream 0) := by
  rw [decodeBits_nil, decodeTop_of_node hnd hs, ok_bind]
  simp only [State.decodeEnd, he, if_true, if_neg hr]

/-- A bit that selects a missing child is consumed, and is the last that DECODE looks at (R153). -/
theorem decodeBits_missing {s : State} {nd : Node} {b : Bool} (hnd : readNode s.arena s.cur = .ok nd)
    (hs : nd.sym = .sentinel) (hb : nd.child b = none) (bs : List Bool) :
    decodeBits (b :: bs) s = .ok ((s.bitsLeft bs).raise .badPath ((BitVec.ofBool b).setWidth 9)) := by
  have hbit := decodeBit_of_nil (s := s.bitsLeft bs) hnd hb
  rw [decodeBits_cons, decodeTop_of_node hnd hs, ok_bind]
  exact congrArg (· >>= fun u => if u.mode = .fault then .ok u else decodeBits bs u) hbit

/-! ### DECODE in IDLE -/

/-- DECODE accepted in `s`, once it has emitted `cs`, standing at `cur` with `rest` to consume. -/
def State.decodingAt (s : State) (cur : Idx) (cs : List Byte) (rest : List Bool) : State :=
  { s.bitsLeft rest with mode := .busy .decode, cur := cur, symSink := s.symSink.took cs }

/-- DECODE of whole codes and a walk to an inner node emits the symbols, and goes on at that node (R150). -/
theorem exec_decode_of_codes {s : State} {l r x y : CodeTree} {cs : List Byte} {q rest : Path} (hm : s.mode = .idle)
    (ht : s.tree = .ok (.node l r)) (hc : ∀ c ∈ cs, c ∈ (CodeTree.node l r).symbols)
    (hq : (CodeTree.node l r).descend q = some (.node x y))
    (hs : s.bitSrc.units = (CodeTree.node l r).codes cs ++ (q ++ rest)) (hroom : s.symSink.hasRoom cs.length) :
    ∃ i cur, s.root = some i ∧ walk s.arena (some i) q = some cur ∧
      treeAt s.nodeCount s.arena (some cur) = .ok (.node x y) ∧
      exec .decode s = toOutcome (decodeBits rest (s.decodingAt cur cs rest)) := by
  obtain ⟨i, -, hi, -, -⟩ := root_of_node ht
  have hcodes := decodeBits_codes (s := { s with cur := i, mode := .busy .decode }) ht hi rfl hc hs hroom
  have hhere : State.here { s with cur := i } = .ok (.node l r) := (here_of_root hi).trans ht
  obtain ⟨cur, hwalk, htree, hrun⟩ := decodeBits_walk
    (s := s.decodingAt i cs (q ++ rest)) hhere hq nofun rfl rfl
  refine ⟨i, cur, hi, hwalk, htree, ?_⟩
  rw [exec_decode_of_node hm ht hi, hs]
  exact congrArg toOutcome (hcodes.trans hrun)

/-- The record of an entry that is the root of two trees. -/
theorem entry_of_node {n : Nat} {arena : List Node} {i : Idx} {x y : CodeTree}
    (h : treeAt n arena (some i) = .ok (.node x y)) :
    ∃ nd, readNode arena i = .ok nd ∧ nd.sym = .sentinel ∧
      ∀ b, treeAt n arena (nd.child b) = .ok (if b then y else x) := by
  obtain ⟨nd, hnd, ⟨c, -, hc⟩ | ⟨l, r, hs, hlr, hchild⟩⟩ := treeAt_entry h
  · cases hc
  · cases hlr
    exact ⟨nd, hnd, hs, hchild⟩

/-- Settles O53: behind the codes of all the symbols DECODE meets end-of-stream at the root. -/
theorem decodeInvertsEncode : Obligations.DecodeInvertsEncode := by
  intro s l r cs hm ht hc hsrc hroom
  obtain ⟨i, cur, hi, hwalk, htree, hrun⟩ := exec_decode_of_codes (q := []) (rest := []) hm ht hc (descend_nil _)
    (by simp [hsrc]) hroom
  obtain rfl : i = cur := Option.some.inj ((walk_nil ..).symm.trans hwalk)
  obtain ⟨nd, hnd, hs, -⟩ := entry_of_node htree
  have hended : s.bitSrc.ended = true := by rw [hsrc]
  refine ⟨i, hi, ?_⟩
  rw [hrun, decodeBits_nil_at_root (s := s.decodingAt i cs []) hnd hs hended hi, toOutcome_ok]
  simp only [State.decodingAt, State.bitsLeft, State.done, hended, ← hm]

/-- Settles O54: behind the whole codes the walk stands below the root, at a node that is no leaf, when it meets
end-of-stream. -/
theorem decodeOfTruncatedStreamFaults : Obligations.DecodeOfTruncatedStreamFaults := by
  intro s l r cs c p q hinv hm ht hc hp hq hq0 hqp hsrc hroom
  obtain ⟨x, y, hdesc⟩ := descend_of_proper_prefix hp hq hqp
  obtain ⟨i, cur, -, hwalk, htree, hrun⟩ := exec_decode_of_codes (rest := []) hm ht hc hdesc (by simp [hsrc]) hroom
  obtain ⟨nd, hnd, hs, -⟩ := entry_of_node htree
  have hended : s.bitSrc.ended = true := by rw [hsrc]
  have hne : s.root ≠ some cur := walk_ne_root (running_of_inv hinv (by simp [hm])).arena hq0 hwalk
  rw [hrun, decodeBits_nil_inside (s := s.decodingAt cur cs []) hnd hs hended hne, toOutcome_ok]
  refine ⟨_, rfl, ?_⟩
  simp only [State.decodingAt, State.bitsLeft, State.raise, hended]

/-- Settles O55: only NIL has the empty tree, so the bit behind the walk selects no child. -/
theorem decodeOfMissingChildFaults : Obligations.DecodeOfMissingChildFaults := by
  intro s l r x y cs q rest b e hm ht hc hdesc hempty hsrc hroom
  obtain ⟨i, cur, -, -, htree, hrun⟩ := exec_decode_of_codes (rest := b :: rest) hm ht hc hdesc (by simp [hsrc]) hroom
  obtain ⟨nd, hnd, hs, hchild⟩ := entry_of_node htree
  have hb : nd.child b = none := treeAt_eq_empty.1 ((hchild b).trans (congrArg _ hempty))
  have hinfo : (BitVec.ofBool b).setWidth 9 = if b then 1 else 0 := by cases b <;> rfl
  rw [hrun, decodeBits_missing (s := s.decodingAt cur cs (b :: rest)) hnd hs hb, toOutcome_ok]
  refine ⟨_, rfl, ?_⟩
  simp only [State.decodingAt, State.bitsLeft, State.raise, hsrc, hinfo]

/-! ### DECODE without codes -/

/-- DECODE without an inner root is its first tests. -/
theorem exec_decode_of_probe {s : State} (hm : s.mode = .idle) (h : s.tree = .ok .empty ∨ ∃ d, s.tree = .ok (.leaf d)) :
    exec .decode s = .next s.decodeProbe :=
  (exec_of_idle hm .decode).trans (congrArg toOutcome (decodeBody_of_probe h))

/-- An offered bit is not consumed, and the fault says why there is no code (R154, R155). -/
theorem decodeProbe_of_bit {s : State} {b : Bool} {bs : List Bool} (h : s.bitSrc.units = b :: bs) :
    s.decodeProbe = s.raise (if s.root = none then .noTree else .degenerateTree) 0 := by
  simp only [State.decodeProbe, h]

theorem decodeProbe_ends_of_empty {s : State} (h : s.bitSrc = ⟨[], true⟩) : s.decodeProbe = s.done := by
  simp only [State.decodeProbe, h, if_true]

/-- Settles O56: an offered bit faults by what the root is, and without a bit DECODE ends at once. -/
theorem decodeWithoutCodes : Obligations.DecodeWithoutCodes := by
  refine ⟨fun s b bs e hm hsrc => ⟨fun hr => ?_, fun d ht => ?_⟩, fun s d hm hsrc hroot => ?_⟩
  · rw [exec_decode_of_probe hm (.inl (root_of_empty.2 hr)), decodeProbe_of_bit (by rw [hsrc]), if_pos hr]
    rfl
  · obtain ⟨i, -, hi, -⟩ := root_of_leaf ht
    rw [exec_decode_of_probe hm (.inr ⟨d, ht⟩), decodeProbe_of_bit (by rw [hsrc]), if_neg (by simp [hi])]
    rfl
  · rw [exec_decode_of_probe hm (hroot.imp root_of_empty.2 fun h => ⟨d, h⟩), decodeProbe_ends_of_empty hsrc, State.done,
      ← hm]

end Sys2Proof.Machine
end

section
/-! PROOFS. O57: DECODE's walk stays in the tree, and goes through a bit before every symbol. -/

namespace Sys2Proof.Machine

open Sys2Proof Host

theorem CodeTree.symbols_child_subset {l r : CodeTree} (b : Bool) :
    (if b then r else l).symbols ⊆ (CodeTree.node l r).symbols := by
  cases b
  · exact List.subset_append_left ..
  · exact List.subset_append_right ..

/-- From one state to another DECODE has consumed a beginning of the bits and emitted symbols of `syms`, at most one for
each bit (R157, R158). -/
def Emits (syms : List Byte) (s t : State) : Prop :=
  ∃ used out, s.bitSrc.units = used ++ t.bitSrc.units ∧ t.symSink.written = s.symSink.written ++ out ∧
    (∀ c ∈ out, c ∈ syms) ∧ out.length ≤ used.length

/-- Bits alone are consumed. -/
theorem Emits.of_bits {syms : List Byte} {s t : State} (used : List Bool)
    (hs : s.bitSrc.units = used ++ t.bitSrc.units) (hk : t.symSink = s.symSink) : Emits syms s t :=
  ⟨used, [], hs, by simp [hk], by simp, Nat.zero_le _⟩

theorem Emits.trans {syms : List Byte} {s t u : State} (h : Emits syms s t) (h' : Emits syms t u) : Emits syms s u := by
  obtain ⟨used, out, hused, hout, hmem, hlen⟩ := h
  obtain ⟨used', out', hused', hout', hmem', hlen'⟩ := h'
  refine ⟨used ++ used', out ++ out', by simp [hused, hused'], by simp [hout, hout'], ?_, ?_⟩
  · exact List.forall_mem_append.2 ⟨hmem, hmem'⟩
  · simpa using Nat.add_le_add hlen hlen'

/-- DECODE's loop stands in the tree `tr` at the subtree `x`, a leaf or not. -/
structure StandsIn (tr x : CodeTree) (s : State) : Prop where
  running : s.mode = .busy .decode
  tree : s.tree = .ok tr
  here : s.here = .ok x
  symbols : x.symbols ⊆ tr.symbols

/-- The head of the loop goes on at an inner node; it emits nothing there, and at a leaf the leaf's symbol (R151). -/
theorem StandsIn.decodeTop {l r x : CodeTree} {s u : State} (hx : StandsIn (.node l r) x s)
    (h : s.decodeTop = .ok (some u)) :
    u.bitSrc = s.bitSrc ∧ (∃ y z, StandsIn (.node l r) (.node y z) u) ∧
      ∃ out, u.symSink.written = s.symSink.written ++ out ∧ (∀ c ∈ out, c ∈ (CodeTree.node l r).symbols) ∧
        out.length ≤ 1 := by
  obtain ⟨nd, hnd, ⟨c, hs, rfl⟩ | ⟨y, z, hs, rfl, -⟩⟩ := treeAt_entry hx.here
  · obtain ⟨i, rd, hi, hrd, hrs⟩ := root_of_node hx.tree
    rw [decodeTop_of_leaf hnd hs hi hrd hrs] at h
    split at h <;> cases h
    next hpush =>
      obtain ⟨taken, htaken, hwritten⟩ := s.symSink.push_split [c]
      obtain rfl : [c] = taken := by rw [htaken, hpush, List.append_nil]
      exact ⟨rfl, ⟨l, r, hx.running, hx.tree, (here_of_root hi).trans hx.tree, List.Subset.refl _⟩, [c], hwritten,
        fun d hd => hx.symbols hd, le_rfl⟩
  · rw [decodeTop_of_node hnd hs] at h
    cases h
    exact ⟨rfl, ⟨y, z, hx⟩, [], by simp, by simp, Nat.zero_le 1⟩

theorem decodeEnd_emits (syms : List Byte) (s : State) : Emits syms s s.decodeEnd := by
  obtain ⟨hsrc, hsink⟩ := decodeEnd_ports s
  exact .of_bits [] (by rw [hsrc]; rfl) hsink

/-- A bit that selects a child is consumed, and the loop goes on at the child (R150). -/
theorem decodeBits_child {s : State} {nd : Node} {b : Bool} {n : Idx} (hm : s.mode = .busy .decode)
    (hnd : readNode s.arena s.cur = .ok nd) (hs : nd.sym = .sentinel) (hb : nd.child b = some n) (bs : List Bool) :
    decodeBits (b :: bs) s = decodeBits bs { s.bitsLeft bs with cur := n } := by
  have hbit := decodeBit_of_child (s := s.bitsLeft bs) hnd hb
  have hm' : (s.bitsLeft bs).mode ≠ .fault := by simp [State.bitsLeft, hm]
  rw [decodeBits_cons, decodeTop_of_node hnd hs, ok_bind]
  refine (congrArg (· >>= fun u => if u.mode = .fault then .ok u else decodeBits bs u) hbit).trans ?_
  rw [ok_bind, if_neg hm']

/-- DECODE's loop answers only where its head does. -/
theorem decodeTop_of_decodeBits {bs : List Bool} {s t : State} (h : decodeBits bs s = .ok t) :
    ∃ o, s.decodeTop = .ok o := by
  cases bs with
  | nil => exact (bind_eq_ok.1 (decodeBits_nil s ▸ h)).imp fun _ => And.left
  | cons b bs => exact (bind_eq_ok.1 (decodeBits_cons s b bs ▸ h)).imp fun _ => And.left

/-- DECODE's loop from an inner node: each turn consumes a bit before it emits at most one symbol. -/
theorem decodeBits_emits {l r y z : CodeTree} {bs : List Bool} {s t : State} (hx : StandsIn (.node l r) (.node y z) s)
    (hs : s.bitSrc.units = bs) (h : decodeBits bs s = .ok t) : Emits (CodeTree.node l r).symbols s t := by
  induction bs generalizing s y z with
  | nil =>
    obtain ⟨nd, hnd, hsym, -⟩ := entry_of_node hx.here
    rw [decodeBits_nil, decodeTop_of_node hnd hsym] at h
    cases h
    exact decodeEnd_emits _ s
  | cons b bs ih =>
    obtain ⟨nd, hnd, hsym, hchild⟩ := entry_of_node hx.here
    cases hb : nd.child b with
    | none =>
      rw [decodeBits_missing hnd hsym hb] at h
      cases h
      exact .of_bits [b] hs rfl
    | some n =>
      have hn : treeAt s.nodeCount s.arena (some n) = .ok (if b then z else y) := hb ▸ hchild b
      have hv : StandsIn (.node l r) (if b then z else y) { s.bitsLeft bs with cur := n } :=
        ⟨hx.running, hx.tree, hn, List.Subset.trans (CodeTree.symbols_child_subset b) hx.symbols⟩
      rw [decodeBits_child hx.running hnd hsym hb] at h
      obtain ⟨o, ho⟩ := decodeTop_of_decodeBits h
      cases o with
      | none =>
        rw [decodeBits_of_top_none ho] at h
        cases h
        exact .of_bits [b] hs rfl
      | some u =>
        obtain ⟨hsrc, ⟨y', z', hu⟩, out, hout, hmem, hlen⟩ := hv.decodeTop ho
        have hturn : Emits (CodeTree.node l r).symbols s u := ⟨[b], out, by rw [hsrc]; exact hs, hout, hmem, hlen⟩
        rw [decodeBits_of_top ho] at h
        exact hturn.trans (ih hu (by rw [hsrc]; rfl) h)

/-- Settles O57: without an inner root nothing is emitted, and else the loop starts at an inner node. -/
theorem decodeEmitsLeafSymbols : Obligations.DecodeEmitsLeafSymbols := by
  intro s t tr hm htr h
  suffices h : Emits tr.symbols s t from h
  have hprobe : s.tree = .ok .empty ∨ (∃ d, s.tree = .ok (.leaf d)) → Emits tr.symbols s t := fun ht => by
    rw [exec_decode_of_probe hm ht] at h
    cases h
    rw [State.decodeProbe_frame]
    exact .of_bits [] rfl rfl
  cases tr with
  | empty => exact hprobe (.inl htr)
  | leaf d => exact hprobe (.inr ⟨d, htr⟩)
  | node l r =>
    obtain ⟨i, -, hi, -⟩ := root_of_node htr
    rw [exec_decode_of_node hm htr hi] at h
    have hx : StandsIn (.node l r) (.node l r) { s with cur := i, mode := .busy .decode } :=
      ⟨rfl, htr, (here_of_root hi).trans htr, List.Subset.refl _⟩
    exact (decodeBits_emits hx rfl (toOutcome_eq_next.1 h) :)

end Sys2Proof.Machine
end

section
/-! PROOFS. O60: the five commands one after the other, each by the obligation that says what it does. -/

namespace Sys2Proof.Machine

open Sys2Proof Host

/-- A port that is always ready has room for any number of units. -/
theorem Sink.hasRoom_of_ready {α : Type} {k : Sink α} (h : k.room = none) (n : Nat) : k.hasRoom n :=
  fun _ hm => nomatch h.symm.trans hm

/-- A full tree with two distinct symbols has an inner root. -/
theorem exists_node_of_full {tr : CodeTree} (hf : tr.full = true) {a b : Byte} (ha : a ∈ tr.symbols)
    (hb : b ∈ tr.symbols) (hab : a ≠ b) : ∃ l r, tr = .node l r := by
  cases tr with
  | empty => cases hf
  | leaf c => exact absurd ((List.mem_singleton.1 ha).trans (List.mem_singleton.1 hb).symm) hab
  | node l r => exact ⟨l, r, rfl⟩

/-- A symbol occurs exactly when its count is not 0. -/
theorem freqOf_ne_zero_iff {s : State} {cs : List Byte} {c : Byte} (h : (s.freqOf c).toNat = cs.count c) :
    s.freqOf c ≠ 0 ↔ c ∈ cs := by
  rw [← List.count_pos_iff, ← h, Nat.pos_iff_ne_zero, Ne, Ne, not_iff_not]
  exact ⟨fun h0 => by simp [h0], fun h0 => BitVec.eq_of_toNat_eq h0⟩

/-- BUILD from the counts of symbols, two of them distinct, makes a well-formed tree with an inner root over exactly those
symbols, and leaves the ports and the mode alone (R107). -/
theorem exec_build_of_counts {s : State} {cs : List Byte} (hinv : s.Inv) (hm : s.mode = .idle) (hr : s.root = none)
    (hcount : ∀ c : Byte, (s.freqOf c).toNat = cs.count c) (htwo : ∃ a ∈ cs, ∃ b ∈ cs, a ≠ b) :
    ∃ t l r, exec .build s = .next t ∧ t.tree = .ok (.node l r) ∧ (CodeTree.node l r).wf ∧
      (∀ c ∈ cs, c ∈ (CodeTree.node l r).symbols) ∧
      t = { s with arena := t.arena, root := t.root, pq := [], seqNext := t.seqNext } := by
  obtain ⟨a, ha, b, hb, hab⟩ := htwo
  have hpresent : s.present ≠ [] := List.ne_nil_of_mem (mem_present.2 ((freqOf_ne_zero_iff (hcount a)).2 ha))
  obtain ⟨t, tr, rt, nd, ht, -, -, -, -, -, htree, hwf, hsyms, -, -, -, -, hframe⟩ :=
    buildMakesAFullTreeOfThePresentSymbols s hinv hm hr hpresent
  have hmem : ∀ c ∈ cs, c ∈ tr.symbols := fun c hc => (hsyms c).2 ((freqOf_ne_zero_iff (hcount c)).2 hc)
  obtain ⟨l, r, rfl⟩ := exists_node_of_full hwf.1 (hmem a ha) (hmem b hb) hab
  exact ⟨t, l, r, ht, htree, hwf, hmem, hframe⟩

/-- BUILD, SAVE and ENCODE of symbols, from their counts: the text of a well-formed tree's table, and the codes in it. -/
theorem exec_compress {s : State} {cs : List Byte} (hinv : s.Inv) (hm : s.mode = .idle) (hr : s.root = none)
    (hready : s.outputsReady) (htbl : s.tblSink.written = []) (hbits : s.bitSink.written = [])
    (hsrc : s.symSrc = ⟨cs, true⟩) (hcount : ∀ c : Byte, (s.freqOf c).toNat = cs.count c)
    (htwo : ∃ a ∈ cs, ∃ b ∈ cs, a ≠ b) :
    ∃ s1 s2 s3 l r, exec .build s = .next s1 ∧ exec .save s1 = .next s2 ∧ exec .encode s2 = .next s3 ∧
      (CodeTree.node l r).wf ∧ (∀ c ∈ cs, c ∈ (CodeTree.node l r).symbols) ∧
      s2.tblSink.written = tableText (CodeTree.node l r).table ∧ s3.bitSink.written = (CodeTree.node l r).codes cs := by
  obtain ⟨htblRoom, -, hbitRoom⟩ := hready
  obtain ⟨s1, l, r, hbuild, htree, hwf, hmem, hframe⟩ := exec_build_of_counts hinv hm hr hcount htwo
  obtain ⟨hm1, hsrc1, htbl1, hbit1⟩ :
      s1.mode = s.mode ∧ s1.symSrc = s.symSrc ∧ s1.tblSink = s.tblSink ∧ s1.bitSink = s.bitSink := by
    rw [hframe]
    exact ⟨rfl, rfl, rfl, rfl⟩
  have hsave := exec_save_of_ready (hm1.trans hm) (by rw [htbl1, htblRoom]) htree
  have hencode := encodeWritesTheCodes
    { s1 with tblSink := { s1.tblSink with written := s1.tblSink.written ++ tableText (CodeTree.node l r).table } } l r cs
    (hm1.trans hm) htree hmem (hsrc1.trans hsrc) (Sink.hasRoom_of_ready (by rw [hbit1, hbitRoom]) _)
  exact ⟨s1, _, _, l, r, hbuild, hsave, hencode, hwf, hmem, by simp [htbl1, htbl], by simp [hbit1, hbits]⟩

/-- LOAD of a well-formed tree's table and DECODE of the codes of its symbols: the symbols. -/
theorem exec_decompress {s : State} {l r : CodeTree} {cs : List Byte} (hinv : s.Inv) (hm : s.mode = .idle)
    (hr : s.root = none) (hready : s.symSink.room = none) (hwf : (CodeTree.node l r).wf)
    (hmem : ∀ c ∈ cs, c ∈ (CodeTree.node l r).symbols) :
    ∃ r1 r2, exec .load { s with tblSrc := ⟨tableText (CodeTree.node l r).table, true⟩ } = .next r1 ∧
      exec .decode { r1 with bitSrc := ⟨(CodeTree.node l r).codes cs, true⟩ } = .next r2 ∧
      r2.mode = .idle ∧ r2.err = .none ∧ r2.bitSrc = ⟨[], true⟩ ∧ r2.symSink.written = s.symSink.written ++ cs := by
  obtain ⟨-, -, herr, -⟩ := running_of_inv hinv (by simp [hm])
  obtain ⟨r1, hload, htree, -, -, -, hframe⟩ := loadRebuildsTheTree
    { s with tblSrc := ⟨tableText (CodeTree.node l r).table, true⟩ } _ _ hinv hm hr hwf (.refl _) rfl
  obtain ⟨hm1, herr1, hsink1⟩ : r1.mode = s.mode ∧ r1.err = s.err ∧ r1.symSink = s.symSink := by
    rw [hframe]
    exact ⟨rfl, rfl, rfl⟩
  obtain ⟨i, -, hdecode⟩ := decodeInvertsEncode { r1 with bitSrc := ⟨(CodeTree.node l r).codes cs, true⟩ } l r cs
    (hm1.trans hm) htree hmem rfl (Sink.hasRoom_of_ready (by rw [hsink1, hready]) _)
  exact ⟨r1, _, hload, hdecode, hm1.trans hm, herr1.trans herr, rfl, by simp only [hsink1]⟩

/-- Settles O60: LOAD of the saved table gives BUILD's tree again, and DECODE inverts ENCODE on it. -/
theorem compressThenDecompress : Obligations.CompressThenDecompress := by
  intro s r cs hinv hrinv hm hrm hroot hrroot hready hrready htbl hbits hsrc hcount htwo
  obtain ⟨s1, s2, s3, x, y, hbuild, hsave, hencode, hwf, hmem, htext, hcodes⟩ :=
    exec_compress hinv hm hroot hready htbl hbits hsrc hcount htwo
  obtain ⟨-, hsymRoom, -⟩ := hrready
  obtain ⟨r1, r2, hload, hdecode, hresult⟩ := exec_decompress hrinv hrm hrroot hsymRoom hwf hmem
  exact ⟨s1, s2, s3, r1, r2, hbuild, hsave, hencode, htext ▸ hload, hcodes ▸ hdecode, hresult⟩

end Sys2Proof.Machine
end

section
/-! PROOFS. O5, O6, O9, O15, O16 and O18: which actions of the host the core takes in each mode, and the system commands. -/

namespace Sys2Proof.Machine

open Sys2Proof Host

/-! ### The host's next action, by the mode -/

/-- No action is taken now exactly when every entry of the script waits. -/
theorem nextAct_eq_none {ready : HostAct → Bool} {script : List HostAct} :
    nextAct ready script = none ↔ ∀ a ∈ script, ready a = false := by
  induction script with
  | nil => simp
  | cons a script ih =>
    by_cases ha : ready a = true
    · simp [nextAct_cons_of_ready ha, ha]
    · have ha' : ready a = false := by simpa using ha
      simp [nextAct_cons_of_not_ready ha', ha', ih]

/-- In BUSY every action of the host is taken now but a write on `CMD` or `FREQW` (R54, R165). -/
theorem takes_eq_not_isWrite {s : State} {p : Point} (hm : s.mode = .busy p) (a : HostAct) :
    s.takes a = !a.isWrite := by
  cases a <;> simp [State.takes, State.cmdReady, State.freqReady, HostAct.isWrite, hm]

/-- Outside BUSY the `CMD` port is ready (R165, R170). -/
theorem cmdReady_of_not_busy {s : State} (hm : ∀ p, s.mode ≠ .busy p) : s.cmdReady = true := by
  unfold State.cmdReady
  split
  next => rfl
  next p hp => exact absurd hp (hm p)
  next => rfl

/-- A command word at the head of the script, while `CMD` is ready, is run on the state without it. -/
theorem step_command {s : State} {op : BitVec 3} {rest : List HostAct} (hr : s.cmdReady = true)
    (hs : s.script = .cmd op :: rest) : step s = exec (decodeOp op) { s with script := rest } := by
  simp only [step, hs, nextAct_cons_of_ready (ready := s.takes) (a := .cmd op) hr]

/-- The opcode map gives every table row's word the row's command (R71). -/
theorem decodeOp_of_decodeTableWord {n w : Nat} {i : Instr} (h : decodeTableWord n w = some i) :
    decodeOp (BitVec.ofNat 3 w) = i := by
  have hlow : (BitVec.ofNat 8 w).setWidth 3 = BitVec.ofNat 3 w := BitVec.setWidth_ofNat_of_le (by decide) w
  rw [← hlow]
  simp only [decodeTableWord, decode] at h
  split at h
  next =>
    by_cases hb : isCommandByte (BitVec.ofNat 8 w)
    · simpa only [if_pos hb, Option.some.injEq] using h
    · rw [if_neg hb] at h
      cases h
  next => cases h

/-- Settles O5: outside BUSY the word at the head of the script is taken and run. -/
theorem stepRunsTheWrittenCommand : Obligations.StepRunsTheWrittenCommand := by
  refine ⟨fun s op rest hm hs => step_command (cmdReady_of_not_busy hm) hs, fun s n w i hm hi => ?_⟩
  have hr : (s.withFetchWord n w).cmdReady = true := cmdReady_of_not_busy hm
  rw [step_command hr rfl, decodeOp_of_decodeTableWord hi]
  rfl

/-- In BUSY no command changes anything, RESET among them (R165). -/
theorem exec_of_busy {s : State} {p : Point} (hm : s.mode = .busy p) (i : Instr) : exec i s = .next s := by
  by_cases hi : i = .reset
  · subst hi
    simp only [exec, execReset, hm]
  · exact exec_of_not_idle (by simp [hm]) hi

/-- An action of the host that is no write leaves the frequency table as it is, unless it is the rst pin. -/
theorem hostAct_freq {a : HostAct} (hw : a.isWrite = false) (hrst : a ≠ .rst) (s : State) :
    (s.hostAct a).freq = s.freq := by
  cases a
  case rst => exact absurd rfl hrst
  case cmd => cases hw
  case freqw => cases hw
  all_goals rfl

/-- No action of the host rewrites what the host will do next. -/
theorem hostAct_script (s : State) (a : HostAct) : (s.hostAct a).script = s.script := by
  cases a <;> rfl

/-- Settles O6, by what a step can be: in BUSY the action taken is no write, and every entry before it is one. -/
theorem busyAcceptsNoCommand : Obligations.BusyAcceptsNoCommand := by
  refine fun s p hm => ⟨fun t h => ?_, exec_of_busy hm⟩
  have hwait : ∀ a, s.takes a = false → a.isWrite = true := by
    intro a ha
    simpa [takes_eq_not_isWrite hm] using ha
  obtain ⟨op, rest, hn, -⟩ | ⟨a, rest, hn, hs⟩ | ⟨hq, hs⟩ := step_cases s
  · have htaken : s.takes (.cmd op) = true := (nextAct_eq_some hn).1
    rw [takes_eq_not_isWrite hm] at htaken
    cases htaken
  · obtain ⟨htaken, pre, post, hscript, hrest, hpre⟩ := nextAct_eq_some hn
    have hw : a.isWrite = false := by simpa [takes_eq_not_isWrite hm] using htaken
    rw [hs] at h
    cases h
    exact .inr ⟨pre, a, post, hscript, (hostAct_script _ a).trans hrest, hw, fun b hb => hwait b (hpre b hb),
      fun hrst => hostAct_freq hw hrst _⟩
  · exact .inl ⟨fun a ha => hwait a (nextAct_eq_none.1 hq a ha), resume_script_freq (step_quiet_eq_next hq h)⟩

/-! ### The system commands -/

/-- Settles O9: in FAULT the word is taken, and no word but 7 is the one command that FAULT does not drop. -/
theorem faultModeDropsEveryWordButReset : Obligations.FaultModeDropsEveryWordButReset := by
  intro s op rest hm hs hop
  have hr : s.cmdReady = true := cmdReady_of_not_busy (by simp [hm])
  have hidle : s.mode ≠ .idle := by simp [hm]
  refine ⟨hr, by simp only [State.freqReady, hm], ?_, fun i hi => exec_of_not_idle hidle hi⟩
  rw [step_command hr hs]
  exact exec_of_not_idle (s := { s with script := rest }) hidle fun h => hop (decodeOp_eq_reset op h)

/-- `done` in IDLE changes nothing (R171). -/
theorem done_of_idle {s : State} (hm : s.mode = .idle) : s.done = s := by
  rw [State.done, ← hm]

/-- Settles O15: NOP is `done` in IDLE, and FAULT drops it. -/
theorem nopChangesNothing : Obligations.NopChangesNothing := by
  refine ⟨fun s hm => ?_, fun s hm => exec_of_not_idle (by simp [hm]) nofun⟩
  rw [exec_of_idle hm, body, toOutcome_ok, done_of_idle hm]

/-- Settles O18: the reserved word raises its fault in IDLE, and FAULT drops it. -/
theorem reservedWordFaults : Obligations.ReservedWordFaults :=
  ⟨fun _ hm => exec_of_idle hm .reserved6, fun _ hm => exec_of_not_idle (by simp [hm]) nofun⟩

/-- RESET in IDLE and in FAULT (R168). -/
theorem exec_reset_of_not_busy {s : State} (hm : s.mode = .idle ∨ s.mode = .fault) :
    exec .reset s = .next s.toReset := by
  obtain hm | hm := hm <;> simp only [exec, execReset, hm]

/-- Settles O16: each value is read off the reset state, whose ports and script are those of the state before. -/
theorem resetClearsEveryRegister : Obligations.ResetClearsEveryRegister := fun s hm =>
  ⟨s.toReset, exec_reset_of_not_busy hm, rfl, rfl, fun _ => rfl, rfl, rfl, rfl, rfl, rfl, rfl, rfl, rfl, rfl, rfl, rfl, rfl⟩

end Sys2Proof.Machine
end

section
/-! PROOFS. O21: the test of `root` that BUILD and LOAD make first, and the faults LOAD can raise after it. -/

namespace Sys2Proof.Machine

open Sys2Proof Host

/-! ### The test of `root` -/

/-- With a tree, BUILD faults before anything else (R105, R166). -/
theorem buildBody_of_root {s : State} {r : Idx} (hr : s.root = some r) : s.buildBody = .ok (s.raise .treePresent 0) := by
  simp only [State.buildBody, hr]

/-- With a tree, LOAD faults before anything else (R124, R166). -/
theorem loadBody_of_root {s : State} {r : Idx} (hr : s.root = some r) : s.loadBody = .ok (s.raise .treePresent 0) := by
  simp only [State.loadBody, hr]

/-- Without a tree, BUILD raises no fault. -/
theorem buildBody_err_of_no_root {s t : State} (hr : s.root = none) (h : s.buildBody = .ok t) : t.err = s.err := by
  unfold State.buildBody at h
  split at h
  next r hr' => cases hr.symm.trans hr'
  next =>
    obtain ⟨u, hu, h⟩ := bind_eq_ok.1 h
    have hleaves : u.err = s.err := by rw [insertLeaves_buildFrame hu]
    split at h
    next => cases h; exact hleaves
    next =>
      obtain ⟨v, hv, h⟩ := bind_eq_ok.1 h
      obtain ⟨⟨i, w⟩, hw, h⟩ := bind_eq_ok.1 h
      have hmerges : w.err = u.err := by rw [(mergeLoop_buildFrame hv).trans (pqExtractMin_buildFrame hw)]
      cases h
      exact hmerges.trans hleaves

/-! ### The faults of LOAD after the test of `root` -/

/-- LOAD has taken one of the faults of its text, or stands outside FAULT with `err` as it was (R125, R126, R182). -/
def TextFaultOnly (s t : State) : Prop :=
  (t.mode = .fault ∧ (t.err = .tableSyntax ∨ t.err = .arenaFull)) ∨ (t.mode ≠ .fault ∧ t.err = s.err)

theorem startPath_textFaultOnly {s t : State} (h : s.startPath = .ok t) : TextFaultOnly s t := by
  cases hr : s.root with
  | some r => cases (startPath_of_root hr).symm.trans h; exact .inr ⟨nofun, rfl⟩
  | none =>
    by_cases hcap : s.arena.length < Config.nodeCap
    · cases (startPath_of_no_root hr hcap).symm.trans h
      exact .inr ⟨nofun, rfl⟩
    · cases (startPath_of_full hr hcap).symm.trans h

theorem loadSymByte_textFaultOnly {s t : State} {c : Byte} (h : s.loadSymByte c = .ok t) : TextFaultOnly s t := by
  by_cases hlf : c = LF
  · subst hlf
    by_cases hend : s.ndig = 0 ∨ 255#10 < s.val
    · cases (loadSymByte_LF_bad hend).symm.trans h
      exact .inl ⟨rfl, .inl rfl⟩
    · exact startPath_textFaultOnly ((loadSymByte_LF hend).symm.trans h)
  · by_cases hbad : isDigit c = false ∨ s.ndig = 3#2
    · cases (loadSymByte_bad hlf hbad).symm.trans h
      exact .inl ⟨rfl, .inl rfl⟩
    · obtain ⟨hd, hn⟩ : isDigit c = true ∧ s.ndig ≠ 3#2 := by simpa using hbad
      cases (loadSymByte_digit hd hn).symm.trans h
      exact .inr ⟨nofun, rfl⟩

theorem loadStep_textFaultOnly {s t : State} {b : Bool} {c : Byte} (hm : s.mode ≠ .fault) (h : s.loadStep b c = .ok t) :
    TextFaultOnly s t := by
  obtain ⟨nd, hnd, -⟩ := bind_eq_ok.1 h
  cases hb : nd.child b with
  | some n => cases (loadStep_of_child hnd hb c).symm.trans h; exact .inr ⟨hm, rfl⟩
  | none =>
    by_cases hcap : s.arena.length < Config.nodeCap
    · cases (loadStep_of_nil hnd hb hcap c).symm.trans h
      exact .inr ⟨hm, rfl⟩
    · cases (loadStep_of_full hnd hb hcap c).symm.trans h
      exact .inl ⟨rfl, .inr rfl⟩

theorem loadPathByte_textFaultOnly {s t : State} {c : Byte} (hm : s.mode ≠ .fault) (h : s.loadPathByte c = .ok t) :
    TextFaultOnly s t := by
  by_cases hlf : c = LF
  · subst hlf
    obtain ⟨nd, -, h⟩ := bind_eq_ok.1 h
    cases h
    exact .inr ⟨nofun, rfl⟩
  · by_cases hp : ∃ b, c = pathChar b
    · obtain ⟨b, rfl⟩ := hp
      exact loadStep_textFaultOnly hm ((loadPathByte_pathChar s b).symm.trans h)
    · cases (loadPathByte_bad hlf (not_exists.1 hp) s).symm.trans h
      exact .inl ⟨rfl, .inl rfl⟩

theorem loadByte_textFaultOnly {s t : State} {c : Byte} (hm : s.mode ≠ .fault) (h : s.loadByte c = .ok t) :
    TextFaultOnly s t := by
  unfold State.loadByte at h
  split at h
  next => exact loadSymByte_textFaultOnly (s := { s with val := 0, ndig := 0 }) h
  next => exact loadSymByte_textFaultOnly h
  next => exact loadPathByte_textFaultOnly hm h
  next => cases h; exact .inr ⟨hm, rfl⟩

theorem loadEnd_textFaultOnly {s : State} (hm : s.mode ≠ .fault) : TextFaultOnly s s.loadEnd := by
  unfold State.loadEnd
  split
  next =>
    split
    next => exact .inr ⟨nofun, rfl⟩
    next => exact .inl ⟨rfl, .inl rfl⟩
    next => exact .inl ⟨rfl, .inl rfl⟩
    next => exact .inr ⟨hm, rfl⟩
  next => exact .inr ⟨hm, rfl⟩

/-- LOAD's loop raises no fault but those of its text; after one it stops. -/
theorem loadBytes_textFaultOnly {cs : List Byte} {s t : State} (hm : s.mode ≠ .fault) (h : loadBytes cs s = .ok t) :
    TextFaultOnly s t := by
  induction cs generalizing s with
  | nil => cases h; exact loadEnd_textFaultOnly hm
  | cons c cs ih =>
    by_cases hl : s.loading = true
    · rw [loadBytes_cons hl] at h
      obtain ⟨u, hu, h⟩ := bind_eq_ok.1 h
      obtain ⟨hf, hcode⟩ | ⟨hgo, herr⟩ : TextFaultOnly s u :=
        loadByte_textFaultOnly (s := { s with tblSrc := { s.tblSrc with units := cs } }) hm hu
      · rw [loadBytes_stopped (by simp only [State.loading, hf])] at h
        cases h
        exact .inl ⟨hf, hcode⟩
      · have hrest : TextFaultOnly u t := ih hgo h
        rwa [TextFaultOnly, herr] at hrest
    · rw [loadBytes_stopped (by simpa using hl)] at h
      cases h
      exact .inr ⟨hm, rfl⟩

/-- Without a tree LOAD raises no fault but those of its text. -/
theorem loadBody_textFaultOnly {s t : State} (hr : s.root = none) (h : s.loadBody = .ok t) : TextFaultOnly s t := by
  rw [loadBody_of_no_root hr] at h
  exact loadBytes_textFaultOnly (s := { s with mode := .busy .loadPair }) nofun h

/-- Without a tree the bodies of BUILD and LOAD do not raise E_TREE_PRESENT. -/
theorem body_err_ne_treePresent {i : Instr} {s t : State} (hi : i = .build ∨ i = .load) (hr : s.root = none)
    (he : s.err ≠ .treePresent) (h : body i s = .ok t) : t.err ≠ .treePresent := by
  obtain rfl | rfl := hi
  · rwa [buildBody_err_of_no_root hr h]
  · obtain ⟨-, herr | herr⟩ | ⟨-, herr⟩ := loadBody_textFaultOnly hr h
    · simp [herr]
    · simp [herr]
    · rwa [herr]

/-- Settles O21: the test of `root` comes first in BUILD and LOAD, the frames of SAVE, ENCODE and DECODE (R60) hold the
tree, and without a tree BUILD and LOAD have no other place that raises E_TREE_PRESENT. -/
theorem oneTreePerInstance : Obligations.OneTreePerInstance := by
  refine ⟨fun s r hm hr => ⟨?_, ?_⟩, fun i s t hi h => ?_, fun i s t hi hr he h => ?_⟩
  · rw [exec_of_idle hm, body, buildBody_of_root hr]
    rfl
  · rw [exec_of_idle hm, body, loadBody_of_root hr]
    rfl
  · obtain ⟨hsave, hencode, hdecode⟩ := streamCommandFrames.1 s t
    obtain rfl | rfl | rfl := hi
    · rw [(hsave h).1]; exact ⟨rfl, rfl⟩
    · rw [(hencode h).1]; exact ⟨rfl, rfl⟩
    · rw [(hdecode h).1]; exact ⟨rfl, rfl⟩
  · have he' : s.err ≠ .treePresent := by simp [he]
    have hreset : i ≠ .reset := by rintro rfl; simp at hi
    exact exec_frame (Frame := fun _ t => t.err ≠ .treePresent) hreset he' (body_err_ne_treePresent hi hr he') h

end Sys2Proof.Machine
end

section
/-! PROOFS. O10: FAULT is left by a reset alone. -/

namespace Sys2Proof.Machine

open Sys2Proof Host

/-- An action that resets, taken from the script, leaves the reset state and every other entry of the script (R200). -/
theorem reset_of_taken {s : State} {a : HostAct} {rest : List HostAct} (hn : nextAct s.takes s.script = some (a, rest))
    (ha : a = .rst ∨ a = .cmd 7#3) :
    ∃ pre a post, s.script = pre ++ a :: post ∧ { s with script := rest }.toReset.script = pre ++ post ∧
      (a = .rst ∨ a = .cmd 7#3) := by
  obtain ⟨-, pre, post, hs, hrest, -⟩ := nextAct_eq_some hn
  exact ⟨pre, a, post, hs, hrest, ha⟩

/-- Settles O10, by what a step can be: FAULT drops every word but 7 and takes no count, the actions on the streams touch
no register, and no command is left to go on. -/
theorem faultIsStickyUntilReset : Obligations.FaultIsStickyUntilReset := by
  intro s t hm h
  obtain ⟨op, rest, hn, hs⟩ | ⟨a, rest, hn, hs⟩ | ⟨-, hs⟩ := step_cases s <;> rw [hs] at h
  · by_cases hi : decodeOp op = .reset
    · rw [hi, exec_reset_of_not_busy (s := { s with script := rest }) (.inr hm)] at h
      cases h
      exact .inr ⟨rfl, reset_of_taken hn (.inr (congrArg _ (decodeOp_eq_reset op hi)))⟩
    · rw [exec_of_not_idle (s := { s with script := rest }) (by simp [hm]) hi] at h
      cases h
      exact .inl ⟨hm, rfl, rfl, rfl, rfl, rfl⟩
  · cases h
    cases a
    case rst => exact .inr ⟨rfl, reset_of_taken hn (.inl rfl)⟩
    case freqw i d =>
      have htaken : s.freqReady = true := (nextAct_eq_some hn).1
      simp [State.freqReady, hm] at htaken
    all_goals exact .inl ⟨hm, rfl, rfl, rfl, rfl, rfl⟩
  · simp only [State.resume, hm, toOutcome_ok] at h
    cases h
    exact .inl ⟨hm, rfl, rfl, rfl, rfl, rfl⟩

end Sys2Proof.Machine
end

section
/-! PROOFS. O20, DECODE: the faults of its loop and of its first tests; in a full tree no bit selects a missing child. -/

namespace Sys2Proof.Machine

open Sys2Proof Host

/-! ### DECODE in a full tree -/

/-- DECODE stands at an entry of a full tree. -/
def InFullTree (s : State) : Prop :=
  ∃ tr, s.tree = .ok tr ∧ tr.full = true ∧ inTree s.nodeCount s.arena s.root s.cur = true

/-- The walk of a full tree may start at its root. -/
theorem inFullTree_root {s : State} {tr : CodeTree} {r : Idx} {nd : Node} (ht : s.tree = .ok tr) (hf : tr.full = true)
    (hr : s.root = some r) (hnd : readNode s.arena r = .ok nd) : InFullTree { s with cur := r } := by
  obtain ⟨hlt, -⟩ := List.getElem?_eq_some_iff.1 (readNode_eq_ok.1 hnd)
  exact ⟨tr, ht, hf, inTree_root hr hlt⟩

/-- The head of the loop stays in the tree, where it is or at the root. -/
theorem InFullTree.decodeTop {s u : State} (h : InFullTree s) (hu : s.decodeTop = .ok (some u)) : InFullTree u := by
  obtain ⟨nd, -, ⟨-, ho⟩ | ⟨c, r, rd, -, hr, hrd, -, ⟨-, ho⟩ | ⟨-, ho⟩⟩⟩ := State.decodeTop_eq_ok hu <;> cases ho
  · exact h
  · obtain ⟨tr, ht, hf, -⟩ := h
    exact (inFullTree_root ht hf hr hrd :)

/-- Where the head of the loop goes on, DECODE stands at a node that is no leaf. -/
theorem decodeTop_at_node {s u : State} (hu : s.decodeTop = .ok (some u)) :
    ∃ nd, readNode u.arena u.cur = .ok nd ∧ nd.sym = .sentinel := by
  obtain ⟨nd, hnd, ⟨hs, ho⟩ | ⟨c, r, rd, -, -, hrd, hl, ⟨-, ho⟩ | ⟨-, ho⟩⟩⟩ := State.decodeTop_eq_ok hu <;> cases ho
  · exact ⟨nd, hnd, hs⟩
  · exact ⟨rd, hrd, Node.isLeaf_eq_false.1 hl⟩

/-- A node of a full tree misses no child (R19 (b)). -/
theorem InFullTree.child_ne_none {s : State} (h : InFullTree s) {nd : Node} (hnd : readNode s.arena s.cur = .ok nd)
    (hs : nd.sym = .sentinel) (b : Bool) : nd.child b ≠ none := by
  obtain ⟨tr, ht, hf, hin⟩ := h
  exact inTree_full ht hf hin hnd hs b

/-- The child that a bit selects is in the tree. -/
theorem InFullTree.child {s : State} (h : InFullTree s) {nd : Node} (hnd : readNode s.arena s.cur = .ok nd)
    (hs : nd.sym = .sentinel) {b : Bool} {n : Idx} (hb : nd.child b = some n) : InFullTree { s with cur := n } := by
  obtain ⟨tr, ht, hf, hin⟩ := h
  exact ⟨tr, ht, hf, inTree_of_treeAt ht (inTree_child hin hnd hs hb)⟩

/-! ### The faults of DECODE -/

theorem decodeEnd_err {s : State} (hm : s.mode ≠ .fault) (h : s.decodeEnd.mode = .fault) :
    s.decodeEnd.err = .truncatedStream := by
  unfold State.decodeEnd at h ⊢
  split_ifs at h ⊢
  · cases h
  · rfl
  · exact absurd h hm

/-- DECODE's loop faults at the end of the input or at a missing child (R152, R153), in a full tree at the former only. -/
theorem decodeBits_err {bs : List Bool} {s t : State} (hm : s.mode = .busy .decode) (h : decodeBits bs s = .ok t)
    (ht : t.mode = .fault) : t.err = .truncatedStream ∨ (t.err = .badPath ∧ ¬ InFullTree s) := by
  induction bs generalizing s with
  | nil =>
    rw [decodeBits_nil] at h
    obtain ⟨o, ho, h⟩ := bind_eq_ok.1 h
    cases o with
    | none => cases h; cases hm.symm.trans ht
    | some u =>
      have hmu : u.mode ≠ .fault := by simp [decodeTop_mode ho, hm]
      cases h
      exact .inl (decodeEnd_err hmu ht)
  | cons b bs ih =>
    obtain ⟨o, ho⟩ := decodeTop_of_decodeBits h
    cases o with
    | none =>
      cases (decodeBits_of_top_none ho _).symm.trans h
      cases hm.symm.trans ht
    | some u =>
      have hmu : u.mode = .busy .decode := (decodeTop_mode ho).trans hm
      obtain ⟨nd, hnd, hs⟩ := decodeTop_at_node ho
      rw [decodeBits_of_top ho] at h
      cases hb : nd.child b with
      | none =>
        cases (decodeBits_missing hnd hs hb bs).symm.trans h
        exact .inr ⟨rfl, fun hfull => (hfull.decodeTop ho).child_ne_none hnd hs b hb⟩
      | some n =>
        rw [decodeBits_child hmu hnd hs hb] at h
        have hchild : InFullTree s → InFullTree { u.bitsLeft bs with cur := n } :=
          fun hfull => (hfull.decodeTop ho).child hnd hs hb
        exact (ih (s := { u.bitsLeft bs with cur := n }) hmu h).imp_right (And.imp_right (mt hchild))

/-- DECODE's first tests fault for want of codes (R154, R155). -/
theorem decodeProbe_err {s : State} (h : s.decodeProbe.mode = .fault) :
    s.decodeProbe.err = .noTree ∨ s.decodeProbe.err = .degenerateTree := by
  cases hb : s.bitSrc.units with
  | nil =>
    simp only [State.decodeProbe, hb] at h
    split at h <;> cases h
  | cons b bs =>
    rw [decodeProbe_of_bit hb]
    by_cases hr : s.root = none <;> simp [hr]

/-- DECODE accepted with a full tree raises no E_BAD_PATH. -/
theorem decodeBody_err_of_full {s t : State} {tr : CodeTree} (htr : s.tree = .ok tr) (hf : tr.full = true)
    (h : s.decodeBody = .ok t) (ht : t.mode = .fault) : t.err ≠ .badPath := by
  obtain ⟨-, rfl⟩ | ⟨r, nd, hr, hnd, -, h⟩ := decodeBody_cases h
  · obtain he | he := decodeProbe_err ht <;> simp [he]
  · have hroot : InFullTree { s with cur := r, mode := .busy .decode } := (inFullTree_root htr hf hr hnd :)
    obtain he | ⟨-, hout⟩ := decodeBits_err (s := { s with cur := r, mode := .busy .decode }) rfl h ht
    · simp [he]
    · exact absurd hroot hout

/-- Nor does DECODE that goes on in a full tree: the invariant says that it waits at an entry of the tree. -/
theorem resume_decode_err_of_full {s t : State} {p : Point} {tr : CodeTree} (hinv : s.Inv) (hm : s.mode = .busy p)
    (hp : p.command = .decode) (htr : s.tree = .ok tr) (hf : tr.full = true) (h : s.resume = .ok t)
    (ht : t.mode = .fault) : t.err ≠ .badPath := by
  cases p
  case decodeProbe =>
    rw [resume_of_decodeProbe hm] at h
    cases h
    obtain he | he := decodeProbe_err ht <;> simp [he]
  case decode =>
    obtain ⟨-, -, hin⟩ := (pointOk_decode hm).1 (pointOk_of_inv hinv)
    obtain he | ⟨-, hout⟩ := decodeBits_err hm (resume_of_decode hm ▸ h) ht
    · simp [he]
    · exact absurd ⟨tr, htr, hf, hin⟩ hout
  all_goals cases hp

end Sys2Proof.Machine
end

section
/-! PROOFS. O20: the fault codes of every command, on its acceptance and after a wait. -/

namespace Sys2Proof.Machine

open Sys2Proof Host

/-- If a state is in FAULT, then by a fault of this command (R182). -/
def FaultsWithin (i : Instr) (t : State) : Prop := t.mode = .fault → t.err ∈ faultsOf i

theorem FaultsWithin.of_mode {i : Instr} {t : State} (h : t.mode ≠ .fault) : FaultsWithin i t := fun ht => absurd ht h

theorem saveWrite_faultsWithin (s : State) (text : List Byte) : FaultsWithin .save (s.saveWrite text) := by
  refine .of_mode ?_
  rw [State.saveWrite_mode]
  split <;> nofun

theorem buildBody_faultsWithin {s t : State} (h : s.buildBody = .ok t) : FaultsWithin .build t := by
  obtain rfl | ⟨u, r, -, rfl⟩ := buildBody_eq_ok h
  · exact fun _ => List.mem_singleton.2 rfl
  · exact .of_mode nofun

/-! ### LOAD -/

theorem TextFaultOnly.faultsWithin {s t : State} (h : TextFaultOnly s t) : FaultsWithin .load t := by
  obtain ⟨-, he | he⟩ | ⟨hm, -⟩ := h
  · exact fun _ => by simp [he, faultsOf]
  · exact fun _ => by simp [he, faultsOf]
  · exact .of_mode hm

theorem loadBody_faultsWithin {s t : State} (h : s.loadBody = .ok t) : FaultsWithin .load t := by
  cases hr : s.root with
  | none => exact (loadBody_textFaultOnly hr h).faultsWithin
  | some r =>
    cases (loadBody_of_root hr).symm.trans h
    exact fun _ => by simp [faultsOf]

/-! ### ENCODE -/

/-- The tests of R143 and R142 raise the three faults of ENCODE; a code that is written raises none. -/
theorem encodeSym_faultsWithin {s t : State} {c : Byte} (h : s.encodeSym c = .ok t) : FaultsWithin .encode t := by
  unfold State.encodeSym at h
  split at h
  next => cases h; exact fun _ => by simp [faultsOf]
  next =>
    obtain ⟨nd, -, h⟩ := bind_eq_ok.1 h
    split at h
    next => cases h; exact fun _ => by simp [faultsOf]
    next =>
      obtain ⟨tr, -, h⟩ := bind_eq_ok.1 h
      split at h
      next => cases h; exact fun _ => by simp [faultsOf]
      next => cases h; exact .of_mode (by simp)

theorem encodeSyms_faultsWithin {cs : List Byte} {s t : State} (hs : FaultsWithin .encode s)
    (h : encodeSyms cs s = .ok t) : FaultsWithin .encode t := by
  induction cs generalizing s with
  | nil =>
    simp only [encodeSyms] at h
    split at h <;> cases h
    · exact .of_mode nofun
    · exact hs
  | cons c cs ih =>
    by_cases hr : s.encodeReady = true
    · rw [encodeSyms_cons hr] at h
      obtain ⟨u, hu, h⟩ := bind_eq_ok.1 h
      exact ih (encodeSym_faultsWithin hu) h
    · cases (encodeSyms_stopped (by simpa using hr) _).symm.trans h
      exact hs

theorem encodeRun_faultsWithin {s t : State} {rest : Path} (h : s.encodeRun rest = .ok t) : FaultsWithin .encode t :=
  encodeSyms_faultsWithin (.of_mode (by simp)) h

/-! ### DECODE -/

theorem decodeProbe_faultsWithin (s : State) : FaultsWithin .decode s.decodeProbe := by
  intro h
  obtain he | he := decodeProbe_err h <;> simp [he, faultsOf]

theorem decodeRun_faultsWithin {s t : State} (hm : s.mode = .busy .decode) (h : s.decodeRun = .ok t) :
    FaultsWithin .decode t := by
  intro ht
  obtain he | ⟨he, -⟩ := decodeBits_err hm h ht <;> simp [he, faultsOf]

theorem decodeBody_faultsWithin {s t : State} (h : s.decodeBody = .ok t) : FaultsWithin .decode t := by
  obtain ⟨-, rfl⟩ | ⟨r, nd, -, -, -, h⟩ := decodeBody_cases h
  · exact decodeProbe_faultsWithin s
  · exact decodeRun_faultsWithin rfl h

/-! ### Every command -/

/-- What a command accepted in IDLE raises (R182). -/
theorem body_faultsWithin {i : Instr} {s t : State} (h : body i s = .ok t) : FaultsWithin i t := by
  cases i
  case nop => cases h; exact .of_mode nofun
  case build => exact buildBody_faultsWithin h
  case save =>
    obtain ⟨tr, -, rfl⟩ := saveBody_eq_ok h
    exact saveWrite_faultsWithin s _
  case load => exact loadBody_faultsWithin h
  case encode => exact encodeRun_faultsWithin h
  case decode => exact decodeBody_faultsWithin h
  case reserved6 => cases h; exact fun _ => List.mem_singleton.2 rfl
  case reset => cases h; exact .of_mode nofun

/-- What a command that goes on raises (R182). -/
theorem resume_faultsWithin {s t : State} {p : Point} (hm : s.mode = .busy p) (h : s.resume = .ok t) :
    FaultsWithin p.command t := by
  cases p
  case save rest =>
    rw [resume_of_save hm] at h
    cases h
    exact saveWrite_faultsWithin s rest
  case encode rest => exact encodeRun_faultsWithin (resume_of_encode hm ▸ h)
  case decodeProbe =>
    rw [resume_of_decodeProbe hm] at h
    cases h
    exact decodeProbe_faultsWithin s
  case decode => exact decodeRun_faultsWithin hm (resume_of_decode hm ▸ h)
  all_goals
    have hl : s.loading = true := (loading_of_busy hm).2 rfl
    exact (loadBytes_textFaultOnly (by simp [hm]) (resume_of_loading hl ▸ h)).faultsWithin

/-- Settles O20: the codes of each command, a full tree that has no missing child, and LOAD of a tree's table, which ends
with the tree (O40). -/
theorem faultCodesByCommand : Obligations.FaultCodesByCommand := by
  refine ⟨fun i s t hm h => ?_, fun s t p hm hq h => resume_faultsWithin hm (step_quiet_eq_next hq h),
    fun s t tr hm htr hf h => ?_,
    fun s t p tr hinv hm hp hq htr hf h => resume_decode_err_of_full hinv hm hp htr hf (step_quiet_eq_next hq h),
    fun s t tr pairs hinv hm hr hwf hperm hsrc h => ?_⟩
  · rw [exec_of_idle hm] at h
    exact body_faultsWithin (toOutcome_eq_next.1 h)
  · rw [exec_of_idle hm] at h
    exact decodeBody_err_of_full htr hf (toOutcome_eq_next.1 h)
  · obtain ⟨u, hu, -, -, -, -, hframe⟩ := loadRebuildsTheTree s tr pairs hinv hm hr hwf hperm hsrc
    cases hu.symm.trans h
    rw [hframe]
    simp [hm]

end Sys2Proof.Machine
end

section
/-! PROOFS. O17: the rst pin, behind entries that wait. -/

namespace Sys2Proof.Machine

open Sys2Proof Host

/-- An action of the host that is no command and is taken now has its effect past entries that wait, and they stay in
place (R54, R165). -/
theorem step_hostAct_behind_waiting {s : State} {a : HostAct} {pre post : List HostAct}
    (hs : s.script = pre ++ a :: post) (hpre : ∀ b ∈ pre, s.takes b = false) (ha : s.takes a = true)
    (hc : ∀ op, a ≠ .cmd op) : step s = .next ({ s with script := pre ++ post }.hostAct a) := by
  have hn : nextAct s.takes s.script = some (a, pre ++ post) := by rw [hs, nextAct_behind_waiting ha hpre]
  obtain ⟨op, rest, h, -⟩ | ⟨b, rest, h, hstep⟩ | ⟨h, -⟩ := step_cases s <;> cases hn.symm.trans h
  · exact absurd rfl (hc op)
  · exact hstep

/-- Settles O17: the pin is taken in every mode, and its effect is the reset state with the ports and the script of the
state before. -/
theorem rstPinResetsAtAnyTime : Obligations.RstPinResetsAtAnyTime := by
  intro s pre post hs hpre
  have htaken : s.takes .rst = true := rfl
  exact step_hostAct_behind_waiting hs hpre htaken nofun

end Sys2Proof.Machine
end
